-- ==== Sys2Proof/Word.lean ====
section
/-! DEFINITION. The word types of the I2C-RTC core and their plainest arithmetic (spec/00_scope.md R7, R8).
Every quantity is unsigned (R8, spec/41_bcd_codec.md R167). -/

namespace Sys2Proof

/-- An 8-bit value: a register pointer, a payload byte, a field value (R7: REG_W, DATA_W, VAL_W). -/
abbrev Byte := BitVec 8

/-- A 7-bit device address (R7: DEV_W). -/
abbrev DevAddr := BitVec 7

/-- A 32-bit command word (R7: CW_W). -/
abbrev CmdWord := BitVec 32

/-- A value of the poll counter (R7: CNT_W). -/
abbrev Count := BitVec 16

end Sys2Proof
end

