-- ==== Sys2Proof/Config.lean ====
section
/-! DEFINITION. What is fixed for the block (spec/00_scope.md R7) and the free values: the environment's answers
(spec/40_bus_engine.md R126), which the spec leaves unconstrained. A free value is an opaque constant with no body,
applied to a plain counter of State or to an address; nothing about it can be proved (assumption log 2, 3). -/

namespace Sys2Proof

/-- The acknowledge slot of a transmitted byte (spec/10_state.md R29: `l_ackstat` 0 = ACK, 1 = NACK). -/
inductive Ack where
  | ack
  | nack
  deriving DecidableEq, Repr, Inhabited

/-- Whether, and after how many further cycles, the line unit raises `l_done` for a START, RESTART, STOP, TX or
MACK request (R126 (c), R127: it may never do so). -/
inductive Completion where
  | after (cycles : Nat)
  | never
  deriving DecidableEq, Repr, Inhabited

/-- Where the received byte comes from (spec/20_memory.md R66): the byte the addressed register holds, or any other
byte, since no relation between a written and a read byte is promised. -/
inductive RxSource where
  | held
  | other (b : Byte)
  deriving DecidableEq, Repr, Inhabited

/-- The oracle's answer to a receive (R126 (b)): never, or the pair (`k`, `b`) with `k` = `clear` + 1, i.e. `clear`
samples find `l_rxfull` clear before it is seen set. -/
inductive RxAnswer where
  | never
  | arrives (clear : Nat) (source : RxSource)
  deriving DecidableEq, Repr, Inhabited

/-- The RTC's bus address (R7: RTC_DEV_ADDR). -/
def Config.rtcDevAddr : DevAddr := 0x68

/-- The default of the parameter RX_POLL_LIMIT (R7, D9). -/
def Config.defaultPollLimit : Count := 10000

/-- Free value: the completion of the `n`-th primitive or transmission requested (R126 (c), R127). -/
opaque Config.freeDone : Nat → Completion

/-- Free value: the acknowledge of the `n`-th transmission (R126 (a)). -/
opaque Config.freeAck : Nat → Ack

/-- Free value: the answer to the `n`-th receive (R126 (b)). -/
opaque Config.freeRx : Nat → RxAnswer

/-- Free value: the register changes the chip makes by itself before the `n`-th transaction (spec/20_memory.md R65). -/
opaque Config.freeChip : Nat → List Host.Cell

/-- Free value: what the external register at a location holds before anything is written to it
(spec/10_state.md R46: an arbitrary byte). -/
opaque Config.initialByte : Nat → Byte

end Sys2Proof
end

