-- ==== Sys2Proof/Syntax.lean ====
section
/-! DEFINITION. The commands of the I2C-RTC core: one constructor of `Instr` per row of spec/opcode_table.json
(spec/30_encoding.md R93), with the operands its format uses (R91, R92); the ten fields (spec/10_state.md R43); and
the source lines an assembler accepts, with the two pseudo-instructions (R105, R106). -/

namespace Sys2Proof

/-- The twenty-three commands of R93. The operands are the fields of the command word that the command's format
uses (R91); a setter's operand is the value to store. -/
inductive Instr where
  | writeReg (dev : DevAddr) (reg : Byte) (data : Byte)
  | readReg (dev : DevAddr) (reg : Byte)
  | rtcInit
  | getSeconds
  | getMinutes
  | getHours
  | getDayname
  | getDays
  | getMonths
  | getYears
  | getAseconds
  | getAminutes
  | getAhours
  | setSeconds (value : Byte)
  | setMinutes (value : Byte)
  | setHours (value : Byte)
  | setDayname (value : Byte)
  | setDays (value : Byte)
  | setMonths (value : Byte)
  | setYears (value : Byte)
  | setAseconds (value : Byte)
  | setAminutes (value : Byte)
  | setAhours (value : Byte)
  deriving DecidableEq, Repr

/-- The ten time and alarm quantities, in the order of their register addresses (spec/10_state.md R43). -/
inductive Field where
  | seconds | minutes | hours | dayOfWeek | dayOfMonth | month | year
  | alarmSeconds | alarmMinutes | alarmHours
  deriving DecidableEq, Repr

/-- A line of the assembler's input (R105): a mnemonic with its unsigned operands as the programmer wrote them,
not yet checked against their ranges; the last two are the pseudo-instructions of R106. -/
inductive Source where
  | writeReg (dev reg data : Nat)
  | readReg (dev reg : Nat)
  | rtcInit
  | get (field : Field)
  | set (field : Field) (value : Nat)
  | rtcRead (reg : Nat)
  | rtcWrite (reg data : Nat)
  deriving DecidableEq, Repr

/-- The getter of a field (R14, R93). -/
def Instr.getter : Field → Instr
  | .seconds => .getSeconds
  | .minutes => .getMinutes
  | .hours => .getHours
  | .dayOfWeek => .getDayname
  | .dayOfMonth => .getDays
  | .month => .getMonths
  | .year => .getYears
  | .alarmSeconds => .getAseconds
  | .alarmMinutes => .getAminutes
  | .alarmHours => .getAhours

/-- The setter of a field (R14, R93). -/
def Instr.setter : Field → Byte → Instr
  | .seconds => .setSeconds
  | .minutes => .setMinutes
  | .hours => .setHours
  | .dayOfWeek => .setDayname
  | .dayOfMonth => .setDays
  | .month => .setMonths
  | .year => .setYears
  | .alarmSeconds => .setAseconds
  | .alarmMinutes => .setAminutes
  | .alarmHours => .setAhours

end Sys2Proof
end

