-- ==== Sys2Proof/Machine/State.lean ====
section
/-! DEFINITION. The state of the machine as plain data (spec/10_state.md R20 to R31, R44), its reset value (R45), and
the reasons a step can stop. -/

namespace Sys2Proof.Machine

/-- The engine state register `est` (R25). Its encoding is free. -/
inductive EngineState where
  | idle | start | addrW | reg | data | restart | addrR | rxPoll | mnack | stop
  deriving DecidableEq, Repr

/-- The codec state register `cst` (R26). Its encoding is free. -/
inductive CodecState where
  | idle | raw | getRd | setRd | setWr | initRdSec | initWrSec | initSettle | initRdHr | initWrHr | resp
  deriving DecidableEq, Repr

/-- The direction latch `t_dir` (R22): 0 = write, 1 = read. -/
inductive Dir where
  | write
  | read
  deriving DecidableEq, Repr

/-- The engine's transaction status `t_status` (R23, spec/60_exceptions.md R231). -/
inductive TStatus where
  | ok
  | nack
  | timeout
  deriving DecidableEq, Repr

/-- The request codes of `l_req` (spec/30_encoding.md R104). -/
inductive LReq where
  | none | start | restart | stop | tx | rxen | mack
  deriving DecidableEq, Repr

/-- What the line unit is doing (R44 (b), spec/40_bus_engine.md R124, R125). -/
inductive Line where
  /-- Nothing is outstanding. -/
  | idle
  /-- A START, RESTART, STOP or MACK; what is left until `l_done`. -/
  | prim (left : Completion)
  /-- A transmission; what is left until `l_done`, and the acknowledge it will report. -/
  | tx (left : Completion) (reply : Ack)
  /-- A pending receive; how many further samples find `l_rxfull` clear (`none`: all of them), and `l_rxbyte`. -/
  | rx (clear : Option Nat) (byte : Byte)
  deriving DecidableEq, Repr

/-- One event of the bus trace (spec/40_bus_engine.md R123). -/
inductive Event where
  | start
  | restart
  | tx (b : Byte) (a : Ack)
  | rxen
  | rx (b : Byte) (k : Nat)
  | rxTimeout
  | mnack
  | stop
  deriving DecidableEq, Repr

/-- The external register space (spec/20_memory.md R60): pairs of location and byte, location = device * 256 +
pointer, strictly rising; a location not listed has had nothing written to it. -/
abbrev Memory := List Host.Cell

/-- The state. Fields in R20's order: sequencers, latches, response, line-unit port; then the host's side and the
parameter; then the environment; last the trace, an output history. -/
structure State where
  /-- `est` (R25). -/
  est : EngineState
  /-- `cst` (R26). -/
  cst : CodecState
  /-- `op` (R22). -/
  op : BitVec 6
  /-- `dev` (R22). -/
  dev : DevAddr
  /-- `reg` (R22). -/
  reg : Byte
  /-- `wdata`, also called `val` (R22: two names for the same eight bits). -/
  wdata : Byte
  /-- `t_dev` (R22). -/
  tDev : DevAddr
  /-- `t_reg` (R22). -/
  tReg : Byte
  /-- `t_wdata` (R22). -/
  tWdata : Byte
  /-- `t_dir` (R22). -/
  tDir : Dir
  /-- `rbyte` (R23). -/
  rbyte : Byte
  /-- `t_result` (R23). -/
  tResult : Byte
  /-- `t_status` (R23). -/
  tStatus : TStatus
  /-- `tmp` (R23). -/
  tmp : Byte
  /-- DEDUCED (assumption log 5): the status of the first transaction of the running command that failed, which
  R28 and spec/43_rtc_setters.md R204 need and no latch of R20 holds. -/
  firstFail : TStatus
  /-- `cnt` (R24). -/
  cnt : Count
  /-- `rsp_data` (R27). -/
  rspData : Byte
  /-- `rsp_status` (R27, R28). -/
  rspStatus : BitVec 3
  /-- `l_req` (R31): the code driven in this cycle. -/
  lReq : LReq
  /-- `l_txbyte` (R31). -/
  lTxByte : Byte
  /-- The reset input `rst` (R30, R45). -/
  rst : Bool
  /-- The command words the host has still to present, oldest first; the head is on `cmd_word` (R30,
  spec/30_encoding.md R105; assumption log 15). -/
  commands : List CmdWord
  /-- The parameter RX_POLL_LIMIT (spec/00_scope.md R7); no step changes it (assumption log 6). -/
  pollLimit : Count
  /-- The line unit's operation in flight (R44). -/
  line : Line
  /-- The external registers (R33 to R43, spec/20_memory.md R60). -/
  mem : Memory
  /-- The slave's register pointer (R44); it keeps its value until the next pointer byte (assumption log 13). -/
  slavePtr : Byte
  /-- Scripted completions of requests (spec/40_bus_engine.md R126 (c); assumption log 2, as the next seven). -/
  doneScript : List Completion
  /-- Scripted acknowledges (R126 (a)). -/
  ackScript : List Ack
  /-- Scripted receive answers (R126 (b)). -/
  rxScript : List RxAnswer
  /-- Scripted register changes made by the chip itself, one entry before each transaction (spec/20_memory.md R65). -/
  chipScript : List (List Host.Cell)
  /-- Completions taken so far. -/
  doneSeen : Nat
  /-- Acknowledges taken so far. -/
  ackSeen : Nat
  /-- Receive answers taken so far. -/
  rxSeen : Nat
  /-- Chip changes taken so far: one per transaction. -/
  chipSeen : Nat
  /-- The bus trace, oldest event first (spec/40_bus_engine.md R123). -/
  trace : List Event
  deriving DecidableEq, Repr

/-- The machine right after reset (R45): both sequencers idle, every latch zero, status OK, no request. The
environment has done nothing yet (R46: the external registers hold arbitrary bytes). -/
def State.reset : State where
  est := .idle
  cst := .idle
  op := 0
  dev := 0
  reg := 0
  wdata := 0
  tDev := 0
  tReg := 0
  tWdata := 0
  tDir := .write
  rbyte := 0
  tResult := 0
  tStatus := .ok
  tmp := 0
  firstFail := .ok
  cnt := 0
  rspData := 0
  rspStatus := 0
  lReq := .none
  lTxByte := 0
  rst := false
  commands := []
  pollLimit := Config.defaultPollLimit
  line := .idle
  mem := []
  slavePtr := 0
  doneScript := []
  ackScript := []
  rxScript := []
  chipScript := []
  doneSeen := 0
  ackSeen := 0
  rxSeen := 0
  chipSeen := 0
  trace := []

/-- Why a step faults. The block itself has no fatal condition (spec/60_exceptions.md R230). -/
inductive Fault where
  /-- Raised when a command is accepted while `est` is not `E_IDLE`, which the precondition of
  spec/40_bus_engine.md R128 excludes; no run from reset reaches it. Safe: the model stops (assumption log 10). -/
  | engineNotIdle
  deriving DecidableEq, Repr

/-- Why a step is refused. -/
inductive Refusal where
  /-- Raised by `exec` alone, for an instruction that has no meaning yet. Safe. -/
  | notModelled (mnemonic : String)
  /-- Raised by every step and every command when RX_POLL_LIMIT is 0 (spec/93_implementation_defined.md U10:
  refuse the configuration). Safe (assumption log 6). -/
  | pollLimitZero
  /-- Raised by a step when `rst` is asserted while `cst` is not `C_IDLE` (R45, spec/70_reset_and_hazards.md R261,
  U9: refuse). Safe (assumption log 7). -/
  | resetWhileBusy
  deriving DecidableEq, Repr

/-- The outcome of one instruction or step. -/
abbrev Result := Host.Outcome State Fault Refusal

end Sys2Proof.Machine
end

