-- ==== Sys2Proof/Machine/Flags.lean ====
section
/-! DEFINITION. Every flag and code of the block: the line unit's flags (spec/10_state.md R29, R31, spec/40_bus_engine.md
R125), the host-side flags (R29, R30, R45), the status codes (R28, spec/60_exceptions.md R231) and the request codes
(spec/30_encoding.md R104). No command writes a flag as a side effect and there are no condition codes (R29). -/

namespace Sys2Proof.Machine

/-- The command status codes of R28. -/
inductive Status where
  | ok | nack | timeout | invalid | illegal
  deriving DecidableEq, Repr

/-- The 3-bit code (R28); 5 to 7 are never produced. -/
def Status.code : Status → BitVec 3
  | .ok => 0
  | .nack => 1
  | .timeout => 2
  | .invalid => 3
  | .illegal => 4

/-- The 2-bit code of `t_status` (R23, R231). -/
def TStatus.code : TStatus → BitVec 2
  | .ok => 0
  | .nack => 1
  | .timeout => 2

/-- A transaction status as a command status: the same three codes (R231). -/
def TStatus.status : TStatus → Status
  | .ok => .ok
  | .nack => .nack
  | .timeout => .timeout

/-- The 3-bit request code (R104). -/
def LReq.code : LReq → BitVec 3
  | .none => 0
  | .start => 1
  | .restart => 2
  | .stop => 3
  | .tx => 4
  | .rxen => 5
  | .mack => 6

/-- The direction bit (R22, R98): 0 = write, 1 = read. -/
def Dir.bit : Dir → BitVec 1
  | .write => 0
  | .read => 1

/-- The acknowledge bit as `l_ackstat` shows it (R29). -/
def Ack.bit : Ack → BitVec 1
  | .ack => 0
  | .nack => 1

/-- `l_done`: the outstanding START, RESTART, STOP, TX or MACK is complete in this cycle (R29, R124). -/
def State.lDone (s : State) : Bool :=
  match s.line with
  | .prim (.after 0) => true
  | .tx (.after 0) _ => true
  | _ => false

/-- `l_ackstat`, valid in the cycle `l_done` completes a transmission (R29, R125). DESIGN CHOICE (assumption log 14): the
spec leaves open what it shows before; here it shows the coming reply throughout a transmission, and ACK outside one. -/
def State.lAckstat (s : State) : Ack :=
  match s.line with
  | .tx _ a => a
  | _ => .ack

/-- `l_rxfull`, the receive-complete flag (R29, R125). -/
def State.lRxfull (s : State) : Bool :=
  match s.line with
  | .rx (some 0) _ => true
  | _ => false

/-- `l_rxbyte`, valid while `l_rxfull` is set (R31, R125). DESIGN CHOICE (assumption log 14): the spec leaves open what it
shows before; here it shows the coming byte throughout a pending receive (0 where none ever comes), and 0 outside one. -/
def State.lRxbyte (s : State) : Byte :=
  match s.line with
  | .rx _ b => b
  | _ => 0

/-- `l_ackdt`: the engine always drives 1, not-acknowledge (R31). -/
def State.lAckdt (_ : State) : BitVec 1 := 1

/-- `cmd_ready`: 1 exactly in `C_IDLE` (R29), and 0 while `rst` is asserted (R45). -/
def State.cmdReady (s : State) : Bool := decide (s.cst = .idle) && !s.rst

/-- `busy`: not `cmd_ready` (R29). -/
def State.busy (s : State) : Bool := !s.cmdReady

/-- `rsp_valid`: 1 exactly during `C_RESP` (R27). -/
def State.rspValid (s : State) : Bool := decide (s.cst = .resp)

/-- `cmd_valid`: the host presents a word (R30). -/
def State.cmdValid (s : State) : Bool := !s.commands.isEmpty

/-- `cmd_word` (R30). DESIGN CHOICE (assumption log 14): 0 while nothing is presented. -/
def State.cmdWord (s : State) : CmdWord := s.commands.headD 0

/-- The status of a command of several transactions is that of the first that failed (R28): keep an earlier failure,
else take the status of the transaction just ended. -/
def firstOf (earlier now : TStatus) : TStatus :=
  match earlier with
  | .ok => now
  | e => e

end Sys2Proof.Machine
end

