-- ==== Sys2Proof/Machine/Memory.lean ====
section
/-! DEFINITION. The external register space (spec/20_memory.md R60 to R66): locations, reading and writing one byte,
and the canonical form. An access is always one byte (R64). -/

namespace Sys2Proof.Machine

/-- How many locations there are: 128 devices of 256 registers (R60). -/
def locations : Nat := 32768

/-- The location of a register: the pair (device address, register pointer) of R60 as one number. -/
def location (d : DevAddr) (r : Byte) : Nat := d.toNat * 256 + r.toNat

/-- What a location is listed with; `none` where nothing has been written (assumption log 3). -/
def Memory.read : Memory → Nat → Option Byte
  | [], _ => none
  | (k, v) :: m, a => if k = a then some v else Memory.read m a

/-- Insert or replace one byte, keeping the addresses strictly rising. -/
def Memory.insert : Memory → Nat → Byte → Memory
  | [], a, b => [(a, b)]
  | (k, v) :: m, a, b =>
    if a < k then (a, b) :: (k, v) :: m
    else if a = k then (a, b) :: m
    else (k, v) :: Memory.insert m a b

/-- Write one byte; a number that is no location changes nothing. -/
def Memory.write (m : Memory) (a : Nat) (b : Byte) : Memory :=
  if a < locations then Memory.insert m a b else m

/-- Write several bytes, in order. -/
def Memory.writeAll : Memory → List Host.Cell → Memory
  | m, [] => m
  | m, (a, b) :: cs => Memory.writeAll (Memory.write m a b) cs

/-- Whether every address of the list lies above `lo` and below `locations` and the addresses strictly rise. -/
def Memory.risesFrom : Nat → Memory → Bool
  | _, [] => true
  | lo, (k, _) :: m => decide (lo ≤ k) && decide (k < locations) && Memory.risesFrom (k + 1) m

/-- The canonical form: addresses strictly rising, all of them locations. An unlisted address reads as `none`, which
no entry does, so no entry is redundant. -/
def Memory.wf (m : Memory) : Bool := Memory.risesFrom 0 m

/-- The byte a register holds: what was last written to it, and before any write an arbitrary byte (spec/10_state.md
R46, `Config.initialByte`). -/
def Memory.holds (m : Memory) (a : Nat) : Byte := (m.read a).getD (Config.initialByte a)

end Sys2Proof.Machine
end

