-- ==== Sys2Proof/WellFormed.lean ====
section
/-! DEFINITION. The range checks on an assembler line (spec/30_encoding.md R105) and its expansion into the one
command it stands for (R105, R106). An `Instr` carries its operands at their widths (R92), so every `Instr` is
encodable; the checks stand where a number can be out of range, on the source line (assumption log 18). -/

namespace Sys2Proof

/-- A device operand is 0 to 127 (R105). -/
def devInRange (n : Nat) : Bool := decide (n < 128)

/-- A register, data or value operand is 0 to 255 (R105). -/
def byteInRange (n : Nat) : Bool := decide (n < 256)

/-- The operand ranges of R105. -/
def Source.wellFormed : Source → Bool
  | .writeReg dev reg data => devInRange dev && byteInRange reg && byteInRange data
  | .readReg dev reg => devInRange dev && byteInRange reg
  | .rtcInit => true
  | .get _ => true
  | .set _ value => byteInRange value
  | .rtcRead reg => byteInRange reg
  | .rtcWrite reg data => byteInRange reg && byteInRange data

/-- The command a well-formed line stands for (R105), the pseudo-instructions expanded (R106); an ill-formed line
stands for none. -/
def Source.assemble (l : Source) : Option Instr :=
  if l.wellFormed then
    some <| match l with
    | .writeReg dev reg data => .writeReg (BitVec.ofNat 7 dev) (BitVec.ofNat 8 reg) (BitVec.ofNat 8 data)
    | .readReg dev reg => .readReg (BitVec.ofNat 7 dev) (BitVec.ofNat 8 reg)
    | .rtcInit => .rtcInit
    | .get field => Instr.getter field
    | .set field value => Instr.setter field (BitVec.ofNat 8 value)
    | .rtcRead reg => .readReg Config.rtcDevAddr (BitVec.ofNat 8 reg)
    | .rtcWrite reg data => .writeReg Config.rtcDevAddr (BitVec.ofNat 8 reg) (BitVec.ofNat 8 data)
  else none

/-- The source line that names a command. -/
def Instr.source : Instr → Source
  | .writeReg dev reg data => .writeReg dev.toNat reg.toNat data.toNat
  | .readReg dev reg => .readReg dev.toNat reg.toNat
  | .rtcInit => .rtcInit
  | .getSeconds => .get .seconds
  | .getMinutes => .get .minutes
  | .getHours => .get .hours
  | .getDayname => .get .dayOfWeek
  | .getDays => .get .dayOfMonth
  | .getMonths => .get .month
  | .getYears => .get .year
  | .getAseconds => .get .alarmSeconds
  | .getAminutes => .get .alarmMinutes
  | .getAhours => .get .alarmHours
  | .setSeconds value => .set .seconds value.toNat
  | .setMinutes value => .set .minutes value.toNat
  | .setHours value => .set .hours value.toNat
  | .setDayname value => .set .dayOfWeek value.toNat
  | .setDays value => .set .dayOfMonth value.toNat
  | .setMonths value => .set .month value.toNat
  | .setYears value => .set .year value.toNat
  | .setAseconds value => .set .alarmSeconds value.toNat
  | .setAminutes value => .set .alarmMinutes value.toNat
  | .setAhours value => .set .alarmHours value.toNat

/-- A command is well formed when its source line is. -/
def Instr.wellFormed (i : Instr) : Bool := i.source.wellFormed

end Sys2Proof
end

