-- ==== Sys2Proof/Decode.lean ====
section
/-! DEFINITION. Decoding, total on all 2^32 command words, with every illegal word rejected by name
(spec/30_encoding.md R90 to R95); then the encoder an assembler uses (R93, R105). -/

namespace Sys2Proof

/-- `OP` = CW[31:26] (R90). -/
def opField (cw : CmdWord) : BitVec 6 := cw.extractLsb' 26 6

/-- `RSV` = CW[25:23] (R90). -/
def rsvField (cw : CmdWord) : BitVec 3 := cw.extractLsb' 23 3

/-- `DEV` = CW[22:16] (R90, R92). -/
def devField (cw : CmdWord) : DevAddr := cw.extractLsb' 16 7

/-- `REG` = CW[15:8] (R90, R92). -/
def regField (cw : CmdWord) : Byte := cw.extractLsb' 8 8

/-- `DATA` = CW[7:0] (R90, R92). -/
def dataField (cw : CmdWord) : Byte := cw.extractLsb' 0 8

/-- Why a word is illegal (R95). -/
inductive Illegal where
  /-- `RSV` is not 0. -/
  | reservedBits
  /-- `OP` is 0x00, 0x04 to 0x0F, 0x1A to 0x1F, 0x2A to 0x2F or 0x30 to 0x3F. -/
  | unassignedOpcode
  deriving DecidableEq, Repr

/-- The decoder's answer. -/
inductive Decoded where
  | command (i : Instr)
  | illegal (why : Illegal)
  deriving DecidableEq, Repr

/-- The member of class 0b00, engine and system commands (R93). -/
def decodeEngine (cw : CmdWord) : Nat → Decoded
  | 1 => .command (.writeReg (devField cw) (regField cw) (dataField cw))
  | 2 => .command (.readReg (devField cw) (regField cw))
  | 3 => .command .rtcInit
  | _ => .illegal .unassignedOpcode

/-- The member of class 0b01, getters (R93). -/
def decodeGet : Nat → Decoded
  | 0 => .command .getSeconds
  | 1 => .command .getMinutes
  | 2 => .command .getHours
  | 3 => .command .getDayname
  | 4 => .command .getDays
  | 5 => .command .getMonths
  | 6 => .command .getYears
  | 7 => .command .getAseconds
  | 8 => .command .getAminutes
  | 9 => .command .getAhours
  | _ => .illegal .unassignedOpcode

/-- The member of class 0b10, setters (R93). -/
def decodeSet (v : Byte) : Nat → Decoded
  | 0 => .command (.setSeconds v)
  | 1 => .command (.setMinutes v)
  | 2 => .command (.setHours v)
  | 3 => .command (.setDayname v)
  | 4 => .command (.setDays v)
  | 5 => .command (.setMonths v)
  | 6 => .command (.setYears v)
  | 7 => .command (.setAseconds v)
  | 8 => .command (.setAminutes v)
  | 9 => .command (.setAhours v)
  | _ => .illegal .unassignedOpcode

/-- The decoding algorithm of R94: `RSV` first, then the class `OP[5:4]`, then the index `OP[3:0]`. -/
def decode (cw : CmdWord) : Decoded :=
  if rsvField cw = 0 then
    let op := (opField cw).toNat
    match op / 16 with
    | 0 => decodeEngine cw (op % 16)
    | 1 => decodeGet (op % 16)
    | 2 => decodeSet (dataField cw) (op % 16)
    | _ => .illegal .unassignedOpcode
  else .illegal .reservedBits

/-- The instruction the decoder reads from a word numbered as spec/opcode_table.json numbers it: every command is one
32-bit word (R90, R97), bit 0 the least significant. -/
def decodeTableWord (_nbits w : Nat) : Option Instr :=
  match decode (BitVec.ofNat 32 w) with
  | .command i => some i
  | .illegal _ => none

/-- The opcode of a command (R93). -/
def Instr.opcode : Instr → BitVec 6
  | .writeReg _ _ _ => 0x01
  | .readReg _ _ => 0x02
  | .rtcInit => 0x03
  | .getSeconds => 0x10
  | .getMinutes => 0x11
  | .getHours => 0x12
  | .getDayname => 0x13
  | .getDays => 0x14
  | .getMonths => 0x15
  | .getYears => 0x16
  | .getAseconds => 0x17
  | .getAminutes => 0x18
  | .getAhours => 0x19
  | .setSeconds _ => 0x20
  | .setMinutes _ => 0x21
  | .setHours _ => 0x22
  | .setDayname _ => 0x23
  | .setDays _ => 0x24
  | .setMonths _ => 0x25
  | .setYears _ => 0x26
  | .setAseconds _ => 0x27
  | .setAminutes _ => 0x28
  | .setAhours _ => 0x29

/-- The word with the given fields and `RSV` = 0 (R90). -/
def packWord (op : BitVec 6) (dev : DevAddr) (reg data : Byte) : CmdWord :=
  op ++ (0 : BitVec 3) ++ dev ++ reg ++ data

/-- The word of a command, every unused field and `RSV` 0 (R91, R105). -/
def encode (i : Instr) : CmdWord :=
  match i with
  | .writeReg dev reg data => packWord i.opcode dev reg data
  | .readReg dev reg => packWord i.opcode dev reg 0
  | .rtcInit | .getSeconds | .getMinutes | .getHours | .getDayname | .getDays | .getMonths | .getYears
  | .getAseconds | .getAminutes | .getAhours => packWord i.opcode 0 0 0
  | .setSeconds v | .setMinutes v | .setHours v | .setDayname v | .setDays v | .setMonths v | .setYears v
  | .setAseconds v | .setAminutes v | .setAhours v => packWord i.opcode 0 0 v

end Sys2Proof
end

