-- ==== Sys2Proof/Machine/Operands.lean ====
section
/-! DEFINITION. Operand forms: the operand latches (spec/10_state.md R22), the address byte (spec/30_encoding.md R98),
the field table (spec/10_state.md R43, spec/41_bcd_codec.md R165) and the codec functions R161 to R166. -/

namespace Sys2Proof.Machine

/-- `val`, the second name of `wdata` (R22). -/
def State.val (s : State) : Byte := s.wdata

/-- Acceptance of a word loads every operand latch from its field (R22, R30), whether the command uses it or not. -/
def State.latchWord (cw : CmdWord) (s : State) : State :=
  { s with op := opField cw, dev := devField cw, reg := regField cw, wdata := dataField cw }

/-- The latches format EW uses (R91). -/
def latchEW (op : BitVec 6) (dev : DevAddr) (reg data : Byte) (s : State) : State :=
  { s with op := op, dev := dev, reg := reg, wdata := data }

/-- The latches format ER uses (R91). -/
def latchER (op : BitVec 6) (dev : DevAddr) (reg : Byte) (s : State) : State :=
  { s with op := op, dev := dev, reg := reg }

/-- The latch format N uses (R91). -/
def latchN (op : BitVec 6) (s : State) : State := { s with op := op }

/-- The latches format V uses (R91). -/
def latchV (op : BitVec 6) (value : Byte) (s : State) : State := { s with op := op, wdata := value }

/-- ADDRBYTE(d, rw) (R98): the device address in bits [7:1], the direction in bit 0. -/
def addrByte (d : DevAddr) (rw : Dir) : Byte :=
  match rw with
  | .write => d ++ (0 : BitVec 1)
  | .read => d ++ (1 : BitVec 1)

/-- `bcd_enc(v)` (R161, R162): tens digit in the high nibble, ones digit in the low one, low eight bits kept. -/
def bcdEnc (v : Byte) : Byte := ((v / 10) <<< 4) ||| (v % 10)

/-- `bcd_dec(b, m)` (R163, R164): mask, then ones plus ten times the tens; never validates. -/
def bcdDec (b m : Byte) : Byte := (b &&& m &&& 0x0F) + ((b &&& m) >>> 4) * 10

/-- `lo <= v <= hi`, unsigned (R165). -/
def inRange (lo hi v : Byte) : Bool := decide (lo ≤ v) && decide (v ≤ hi)

/-- `merge_keep(e, cur, k)` (R166): the encoded byte with the kept bits of the byte just read. -/
def mergeKeep (e cur k : Byte) : Byte := e ||| (cur &&& k)

/-- Whether a register holds BCD digits or a plain number (R43, column kind). -/
inductive Kind where
  | bcd
  | raw
  deriving DecidableEq, Repr

end Sys2Proof.Machine

namespace Sys2Proof

/-- R43, column idx, which is also the register address. -/
def Field.index : Field → Nat
  | .seconds => 0
  | .minutes => 1
  | .hours => 2
  | .dayOfWeek => 3
  | .dayOfMonth => 4
  | .month => 5
  | .year => 6
  | .alarmSeconds => 7
  | .alarmMinutes => 8
  | .alarmHours => 9

/-- R43, column register. -/
def Field.register (f : Field) : Byte := BitVec.ofNat 8 (f.index)

/-- R43, column kind. -/
def Field.kind : Field → Machine.Kind
  | .dayOfWeek => .raw
  | _ => .bcd

/-- R43, column digit mask. -/
def Field.digitMask : Field → Byte
  | .seconds | .minutes | .alarmSeconds | .alarmMinutes => 0x7F
  | .hours | .alarmHours => 0x3F
  | .dayOfWeek | .dayOfMonth | .month | .year => 0xFF

/-- R165, column lo. -/
def Field.lo : Field → Byte
  | .dayOfWeek | .dayOfMonth | .month => 1
  | _ => 0

/-- R165, column hi. -/
def Field.hi : Field → Byte
  | .seconds | .minutes | .alarmSeconds | .alarmMinutes => 59
  | .hours | .alarmHours => 23
  | .dayOfWeek => 7
  | .dayOfMonth => 31
  | .month => 12
  | .year => 99

/-- R43, column keep mask. -/
def Field.keep : Field → Byte
  | .seconds => 0x80
  | .hours | .alarmHours => 0x40
  | _ => 0x00

/-- What a getter makes of the byte it read (spec/42_rtc_getters.md R180). -/
def Field.ofByte (f : Field) (b : Byte) : Byte :=
  match f.kind with
  | .raw => b
  | .bcd => Machine.bcdDec b (f.digitMask)

/-- What a setter encodes before merging (spec/43_rtc_setters.md R200). -/
def Field.toByte (f : Field) (v : Byte) : Byte :=
  match f.kind with
  | .raw => v
  | .bcd => Machine.bcdEnc v

end Sys2Proof

namespace Sys2Proof.Machine

/-- The field a codec opcode selects, `idx` = `OP[3:0]` (R92, R180, R200). An index above 9 is no command; the last
arm is never reached by one (assumption log 17). -/
def fieldOf (op : BitVec 6) : Field :=
  match op.toNat % 16 with
  | 0 => .seconds
  | 1 => .minutes
  | 2 => .hours
  | 3 => .dayOfWeek
  | 4 => .dayOfMonth
  | 5 => .month
  | 6 => .year
  | 7 => .alarmSeconds
  | 8 => .alarmMinutes
  | _ => .alarmHours

end Sys2Proof.Machine
end

