-- ==== Sys2Proof/Machine/Ops.lean ====
section
/-! DEFINITION. The named operations every command is built from: the environment's answers (spec/40_bus_engine.md
R126), the requests to the line unit (R121, R124, R125), the effects on the slave (R140, spec/10_state.md R44), loading
a transaction (R128), the entry of an error (R139, R137, spec/60_exceptions.md R237, R238) and of a response
(spec/10_state.md R27), the continuation after an error (spec/60_exceptions.md R241), and reset (R45). -/

namespace Sys2Proof.Machine

/-! ## The environment's answers -/

/-- The completion of the `n`-th request: scripted, else the free value (assumption log 2). -/
def State.doneAnswer (s : State) (n : Nat) : Completion := (s.doneScript[n]?).getD (Config.freeDone n)

/-- The acknowledge of the `n`-th transmission. -/
def State.ackAnswer (s : State) (n : Nat) : Ack := (s.ackScript[n]?).getD (Config.freeAck n)

/-- The answer to the `n`-th receive. -/
def State.rxAnswer (s : State) (n : Nat) : RxAnswer := (s.rxScript[n]?).getD (Config.freeRx n)

/-- The chip's own register changes before the `n`-th transaction (spec/20_memory.md R65). -/
def State.chipAnswer (s : State) (n : Nat) : List Host.Cell := (s.chipScript[n]?).getD (Config.freeChip n)

/-- A primitive is not complete in the cycle that requests it (R124): one cycle more than the answer says. -/
def Completion.delayed : Completion → Completion
  | .after n => .after (n + 1)
  | .never => .never

/-! ## Requests to the line unit -/

/-- Append one event to the bus trace (R123). -/
def State.emit (e : Event) (s : State) : State := { s with trace := s.trace ++ [e] }

/-- Request START, RESTART, STOP or MACK (R121): the code is on `l_req`, the line unit takes it. A STOP requested
while a receive is pending replaces it: the receive is cancelled (R125, R137, assumption log 11). -/
def State.ask (r : LReq) (s : State) : State :=
  { s with
    lReq := r
    line := .prim (Completion.delayed (s.doneAnswer s.doneSeen))
    doneSeen := s.doneSeen + 1 }

/-- Request L_TX of a byte (R121). -/
def State.askTx (b : Byte) (s : State) : State :=
  { s with
    lReq := .tx
    lTxByte := b
    line := .tx (Completion.delayed (s.doneAnswer s.doneSeen)) (s.ackAnswer s.ackSeen)
    doneSeen := s.doneSeen + 1
    ackSeen := s.ackSeen + 1 }

/-- The byte a receive answer delivers for a register (spec/20_memory.md R66). -/
def State.delivered (s : State) (d : DevAddr) (p : Byte) : RxSource → Byte
  | .held => s.mem.holds (location d p)
  | .other b => b

/-- The line unit with a receive just enabled (R125: `l_rxfull` is cleared, then set at the answered sample). -/
def State.receiving (s : State) : RxAnswer → Line
  | .never => .rx none 0
  | .arrives clear source => .rx (some clear) (s.delivered s.tDev s.slavePtr source)

/-- Request L_RXEN (R121, R135). -/
def State.askRxen (s : State) : State :=
  { s with
    lReq := .rxen
    line := s.receiving (s.rxAnswer s.rxSeen)
    rxSeen := s.rxSeen + 1 }

/-- The request cycle is over and nothing is outstanding. -/
def State.quiet (s : State) : State := { s with lReq := .none, line := .idle }

/-- The request lines fall while the line unit goes on waiting: the state a hang stays in (R127). -/
def State.stuck (s : State) : State := { s with lReq := .none }

/-! ## The slave -/

/-- The slave acknowledged the pointer byte: its register pointer is that byte (spec/10_state.md R44 (a)). DESIGN CHOICE
(assumption log 13): the spec leaves open whether the pointer survives a stop or advances after an access; here nothing but
the next pointer byte changes it. -/
def State.slavePoint (r : Byte) (s : State) : State := { s with slavePtr := r }

/-- The slave acknowledged the data byte: it writes the register (R140). -/
def State.slaveStore (d : DevAddr) (r v : Byte) (s : State) : State :=
  { s with mem := s.mem.write (location d r) v }

/-- Before a transaction the chip may have changed its registers by itself (spec/20_memory.md R65, assumption log
12). -/
def State.chipMoves (s : State) : State :=
  { s with
    mem := s.mem.writeAll (s.chipAnswer s.chipSeen)
    chipSeen := s.chipSeen + 1 }

/-! ## Transactions -/

/-- R128 for a write: load the transaction latches, clear the results. -/
def State.loadWrite (d : DevAddr) (r v : Byte) (s : State) : State :=
  { s.chipMoves with tDev := d, tReg := r, tDir := .write, tWdata := v, tStatus := .ok, tResult := 0 }

/-- R128 for a read. -/
def State.loadRead (d : DevAddr) (r : Byte) (s : State) : State :=
  { s.chipMoves with tDev := d, tReg := r, tDir := .read, tStatus := .ok, tResult := 0 }

/-- Request the start condition of the loaded transaction (R128). -/
def State.requestStart (s : State) : State := { (s.ask .start).emit .start with est := .start }

/-- Request the repeated start (R131). -/
def State.requestRestart (s : State) : State := { (s.ask .restart).emit .restart with est := .restart }

/-- Request the stop condition (R132, R137, R138, R139). -/
def State.requestStop (s : State) : State := { (s.ask .stop).emit .stop with est := .stop }

/-- Request the master's not-acknowledge handshake (R136). -/
def State.requestMnack (s : State) : State := { (s.ask .mack).emit .mnack with est := .mnack }

/-- Request a transmission and wait for it in the given engine state. -/
def State.requestTx (phase : EngineState) (b : Byte) (s : State) : State := { s.askTx b with est := phase }

/-- Enable the receive (R135). -/
def State.requestRx (s : State) : State :=
  { s.askRxen.emit .rxen with cnt := s.pollLimit, est := .rxPoll }

/-- The transaction is over (R138). -/
def State.engineIdle (s : State) : State := { s with est := .idle }

/-- The latched byte becomes the data result (R138). -/
def State.takeResult (s : State) : State := { s with tResult := s.rbyte }

/-- The codec moves to another state (spec/10_state.md R26). -/
def State.enter (phase : CodecState) (s : State) : State := { s with cst := phase }

/-- The codec keeps the byte just read (spec/10_state.md R23, `tmp`). -/
def State.keepTmp (b : Byte) (s : State) : State := { s with tmp := b }

/-! ## Errors and responses -/

/-- The entry of a bus error (R237): record the status, set the sentinel result 0x00; the stop follows (R139,
R137). Nothing is saved and there is no handler. -/
def State.failWith (st : TStatus) (s : State) : State := { s with tStatus := st, tResult := 0 }

/-- A transaction has ended: the command's status is that of its first failing transaction (spec/10_state.md R28). -/
def State.noteStatus (s : State) : State := { s with firstFail := firstOf s.firstFail s.tStatus }

/-- A command that will use the bus starts with no failure. -/
def State.clearStatus (s : State) : State := { s with firstFail := .ok }

/-- Enter `C_RESP` with the command's data result (R27). This is also how a command goes on after an error: there is
no return from one, the command simply ends with its response (spec/60_exceptions.md R241). -/
def State.respond (data : Byte) (s : State) : State :=
  { s with cst := .resp, rspData := data, rspStatus := s.firstFail.status.code }

/-- The entry of InvalidValue and IllegalCommand (R238): straight to the response, no bus activity. -/
def State.reject (st : Status) (s : State) : State :=
  { s with cst := .resp, rspData := 0, rspStatus := st.code }

/-- Reset of the core in `C_IDLE` (R45): every latch zero, both sequencers idle, no request; `rst` is released. The
environment, the host's list, the parameter and the trace are not part of the core, and no bus request is made. -/
def State.resetCore (s : State) : State :=
  { State.reset with
    commands := s.commands
    pollLimit := s.pollLimit
    line := s.line
    mem := s.mem
    slavePtr := s.slavePtr
    doneScript := s.doneScript
    ackScript := s.ackScript
    rxScript := s.rxScript
    chipScript := s.chipScript
    doneSeen := s.doneSeen
    ackSeen := s.ackSeen
    rxSeen := s.rxSeen
    chipSeen := s.chipSeen
    trace := s.trace }

/-! ## A piece of a command: it goes on with a result, or hangs -/

/-- How a piece of a command ends: with a result and a state, or waiting for ever in the state given (R127, U6). -/
inductive Run (α : Type) where
  | ended (a : α) (s : State)
  | hung (s : State)
  deriving Repr

/-- Do one piece, then the next; after a hang nothing follows. -/
def Run.next {α β : Type} (r : Run α) (f : α → State → Run β) : Run β :=
  match r with
  | .ended a s => f a s
  | .hung s => .hung s

/-- The state a command leaves: its response, or the wait it hangs in. -/
def Run.close {α : Type} (r : Run α) (f : α → State → State) : State :=
  match r with
  | .ended a s => f a s
  | .hung s => s

/-- Wait for the outstanding primitive (R124): the acknowledge it reports, or a hang. There is no timeout (R127). -/
def State.await (s : State) : Run Ack :=
  match s.line with
  | .prim (.after _) => .ended .ack s.quiet
  | .tx (.after _) a => .ended a s.quiet
  | .prim .never => .hung s.stuck
  | .tx .never _ => .hung s.stuck
  | .rx _ _ => .hung s.stuck
  | .idle => .hung s.stuck

/-! ## The frame of a command -/

/-- A command word is executed when it is accepted, i.e. when `cmd_ready` is 1 (R30); otherwise it is turned away with
no effect (R264). RX_POLL_LIMIT = 0 is refused (U10). The first transaction needs an idle engine (R128). -/
def command (latch : State → State) (body : State → State) (s : State) : Result :=
  if s.pollLimit = 0 then .refused .pollLimitZero
  else if s.cmdReady then
    if s.est = .idle then .next (body (latch s)) else .fault .engineNotIdle
  else .next s

end Sys2Proof.Machine
end

