-- ==== Sys2Proof/Machine/Cycle.lean ====
section
/-! DEFINITION. The block clock cycle by clock cycle: the engine's state machine (spec/40_bus_engine.md R128 to R139),
the codec sequencer (spec/10_state.md R26) and the line unit's waiting (R124, R125). The commands of Machine/Engine.lean
to Machine/Init.lean say the same command by command; Machine/Sequence.lean uses a cycle where no command is accepted. -/

namespace Sys2Proof.Machine

/-! ## The line unit -/

/-- One cycle passes without the awaited flag (R124, R125). -/
def Line.tick : Line → Line
  | .prim (.after (n + 1)) => .prim (.after n)
  | .tx (.after (n + 1)) a => .tx (.after n) a
  | .rx (some (n + 1)) b => .rx (some n) b
  | l => l

/-- A cycle in which the engine waits: nothing changes but the request lines and the line unit. -/
def State.wait (s : State) : State := { s with lReq := .none, line := s.line.tick }

/-! ## The engine (R129 to R139): what it does in the cycle the awaited flag is seen -/

/-- R139. -/
def bail (s : State) : State := (s.failWith .nack).requestStop

/-- R129. -/
def afterStart (s : State) : State := s.quiet.requestTx .addrW (addrByte s.tDev .write)

/-- R130. -/
def afterAddrW (s : State) : State :=
  let q := s.quiet.emit (.tx (addrByte s.tDev .write) s.lAckstat)
  match s.lAckstat with
  | .nack => bail q
  | .ack => q.requestTx .reg s.tReg

/-- R131. -/
def afterReg (s : State) : State :=
  let q := s.quiet.emit (.tx s.tReg s.lAckstat)
  match s.lAckstat with
  | .nack => bail q
  | .ack =>
    match s.tDir with
    | .write => (q.slavePoint s.tReg).requestTx .data s.tWdata
    | .read => (q.slavePoint s.tReg).requestRestart

/-- R132. -/
def afterData (s : State) : State :=
  let q := s.quiet.emit (.tx s.tWdata s.lAckstat)
  match s.lAckstat with
  | .nack => bail q
  | .ack => (q.slaveStore s.tDev s.tReg s.tWdata).requestStop

/-- R133. -/
def afterRestart (s : State) : State := s.quiet.requestTx .addrR (addrByte s.tDev .read)

/-- R134, R135. -/
def afterAddrR (s : State) : State :=
  let q := s.quiet.emit (.tx (addrByte s.tDev .read) s.lAckstat)
  match s.lAckstat with
  | .nack => bail q
  | .ack => q.requestRx

/-- R136: one sample of `l_rxfull`; the flag is tested before the counter. The number of this sample is one more than
the clear samples counted so far. -/
def sample (s : State) : State :=
  if s.lRxfull then
    ({ s.quiet with rbyte := s.lRxbyte }.emit (.rx s.lRxbyte (s.pollLimit.toNat - s.cnt.toNat + 1))).requestMnack
  else if s.cnt - 1 = 0 then
    ((({ s.quiet with cnt := 0 } : State).emit .rxTimeout).failWith .timeout).requestStop
  else { s.wait with cnt := s.cnt - 1 }

/-- R138, the handshake. -/
def afterMnack (s : State) : State := s.quiet.takeResult.requestStop

/-- R138, the stop: the transaction is over. -/
def afterStop (s : State) : State := s.quiet.engineIdle

/-- One cycle of the engine (R129 to R138). -/
def engineCycle (s : State) : State :=
  match s.est with
  | .idle => s
  | .start => if s.lDone then afterStart s else s.wait
  | .addrW => if s.lDone then afterAddrW s else s.wait
  | .reg => if s.lDone then afterReg s else s.wait
  | .data => if s.lDone then afterData s else s.wait
  | .restart => if s.lDone then afterRestart s else s.wait
  | .addrR => if s.lDone then afterAddrR s else s.wait
  | .rxPoll => sample s
  | .mnack => if s.lDone then afterMnack s else s.wait
  | .stop => if s.lDone then afterStop s else s.wait

/-! ## The codec sequencer (spec/10_state.md R26) -/

/-- Enter a codec state that runs a read (R128). -/
def enterRead (phase : CodecState) (d : DevAddr) (r : Byte) (s : State) : State :=
  ((s.enter phase).loadRead d r).requestStart

/-- Enter a codec state that runs a write (R128). -/
def enterWrite (phase : CodecState) (d : DevAddr) (r v : Byte) (s : State) : State :=
  ((s.enter phase).loadWrite d r v).requestStart

/-- The codec's move when the transaction of its state is over (R26, column next). -/
def codecNext (s : State) : State :=
  let q := s.noteStatus
  match s.cst with
  | .idle => s
  | .raw => q.respond s.tResult
  | .getRd => q.respond ((fieldOf s.op).ofByte s.tResult)
  | .setRd =>
    enterWrite .setWr Config.rtcDevAddr (fieldOf s.op).register
      (mergeKeep ((fieldOf s.op).toByte s.val) s.tResult (fieldOf s.op).keep) (q.keepTmp s.tResult)
  | .setWr => q.respond 0
  | .initRdSec =>
    if s.tResult.getLsbD 7 then
      enterWrite .initWrSec Config.rtcDevAddr 0x00 (s.tResult &&& 0x7F) (q.keepTmp s.tResult)
    else enterRead .initRdHr Config.rtcDevAddr 0x02 (q.keepTmp s.tResult)
  | .initWrSec => q.enter .initSettle
  | .initSettle => enterRead .initRdHr Config.rtcDevAddr 0x02 s
  | .initRdHr =>
    if s.tResult.getLsbD 6 then
      enterWrite .initWrHr Config.rtcDevAddr 0x02 (s.tResult &&& 0xBF) (q.keepTmp s.tResult)
    else (q.keepTmp s.tResult).respond 0
  | .initWrHr => q.respond 0
  | .resp => s.enter .idle

/-- The first state of a setter (spec/43_rtc_setters.md R200): invalid values go straight to the response. -/
def startSet (f : Field) (v : Byte) (s : State) : State :=
  if inRange f.lo f.hi v then
    if f.keep = 0 then enterWrite .setWr Config.rtcDevAddr f.register (f.toByte v) s.clearStatus
    else enterRead .setRd Config.rtcDevAddr f.register s.clearStatus
  else s.reject .invalid

/-- The first state of the command in the operand latches (R26, row `C_IDLE`), by the class of its opcode. -/
def startCommand (s : State) : State :=
  match s.op.toNat with
  | 1 => enterWrite .raw s.dev s.reg s.wdata s.clearStatus
  | 2 => enterRead .raw s.dev s.reg s.clearStatus
  | 3 => enterRead .initRdSec Config.rtcDevAddr 0x00 s.clearStatus
  | n =>
    if n < 32 then enterRead .getRd Config.rtcDevAddr (fieldOf s.op).register s.clearStatus
    else startSet (fieldOf s.op) s.val s

/-- The cycle that accepts a word (R30, R26): latch its fields, decode, take the first state or answer ILLEGAL. -/
def acceptCycle (cw : CmdWord) (s : State) : State :=
  match decode cw with
  | .command _ => startCommand (s.latchWord cw)
  | .illegal _ => (s.latchWord cw).reject .illegal

/-- One clock cycle of the block with `rst` low. -/
def cycle (s : State) : State :=
  match s.cst with
  | .idle =>
    match s.commands with
    | [] => s
    | cw :: rest => acceptCycle cw { s with commands := rest }
  | .resp => codecNext s
  | _ => if s.est = .idle then codecNext s else engineCycle s

/-- Several cycles. -/
def cycles : Nat → State → State
  | 0, s => s
  | n + 1, s => cycles n (cycle s)

end Sys2Proof.Machine
end

