-- ==== Sys2Proof/Machine/Engine.lean ====
section
/-! DEFINITION. The bus transaction engine as the spec's pseudocode (spec/40_bus_engine.md R140, R141): the bus
primitives (spec/00_scope.md R10), the two transactions, and the commands WRITE_REG and READ_REG. The same engine as a
state machine, cycle by cycle, is Machine/Cycle.lean. -/

namespace Sys2Proof.Machine

/-! ## Bus primitives (R10) -/

/-- `BusStart()`. -/
def busStart (s : State) : Run Ack := s.requestStart.await

/-- `BusRestart()`. -/
def busRestart (s : State) : Run Ack := s.requestRestart.await

/-- `BusMasterNack()`. -/
def busMasterNack (s : State) : Run Ack := s.requestMnack.await

/-- `BusStop()`: afterwards the engine is idle (R138). -/
def busStop (s : State) : Run Unit :=
  s.requestStop.await.next fun _ s => .ended () s.engineIdle

/-- `BusTx(b)`, waiting in the given engine state; the event is recorded when the byte is complete (R123). -/
def busTx (phase : EngineState) (b : Byte) (s : State) : Run Ack :=
  (s.requestTx phase b).await.next fun a s => .ended a (s.emit (.tx b a))

/-- A poll that found no byte: RX_POLL_LIMIT clear samples have taken `cnt` to 0 (R137). -/
def State.pollLost (s : State) : State := ({ s.requestRx.quiet with cnt := 0 } : State).emit .rxTimeout

/-- A poll that found byte `b` after `clear` clear samples, each of which took one from `cnt` (R136). -/
def State.pollFound (clear : Nat) (b : Byte) (s : State) : State :=
  ({ s.requestRx.quiet with cnt := s.pollLimit - BitVec.ofNat 16 clear, rbyte := b } : State).emit (.rx b (clear + 1))

/-- `BusRxPoll(RX_POLL_LIMIT)` (R135, R136): the byte is taken exactly when 1 <= `k` <= RX_POLL_LIMIT, where `k` is one
more than the samples that find the flag clear. -/
def busRxPoll (s : State) : Option Byte × State :=
  match s.requestRx.line with
  | .rx (some clear) b => if clear < s.pollLimit.toNat then (some b, s.pollFound clear b) else (none, s.pollLost)
  | .rx none _ => (none, s.pollLost)
  | .prim _ => (none, s.pollLost)
  | .tx _ _ => (none, s.pollLost)
  | .idle => (none, s.pollLost)

/-- The stop-and-bail sequence of R139, and with TIMEOUT the forced stop of R137. -/
def stopAndBail (st : TStatus) (s : State) : Run Unit := busStop (s.failWith st)

/-! ## The two transactions -/

/-- WRITE_REG's pseudocode (R140), from an idle engine. -/
def writeTransaction (d : DevAddr) (r v : Byte) (s : State) : Run Unit :=
  (busStart (s.loadWrite d r v)).next fun _ s =>
  (busTx .addrW (addrByte d .write) s).next fun a s =>
  match a with
  | .nack => stopAndBail .nack s
  | .ack =>
    (busTx .reg r s).next fun a s =>
    match a with
    | .nack => stopAndBail .nack s
    | .ack =>
      (busTx .data v (s.slavePoint r)).next fun a s =>
      match a with
      | .nack => stopAndBail .nack s
      | .ack => busStop (s.slaveStore d r v)

/-- READ_REG's pseudocode (R141), from an idle engine. -/
def readTransaction (d : DevAddr) (r : Byte) (s : State) : Run Unit :=
  (busStart (s.loadRead d r)).next fun _ s =>
  (busTx .addrW (addrByte d .write) s).next fun a s =>
  match a with
  | .nack => stopAndBail .nack s
  | .ack =>
    (busTx .reg r s).next fun a s =>
    match a with
    | .nack => stopAndBail .nack s
    | .ack =>
      (busRestart (s.slavePoint r)).next fun _ s =>
      (busTx .addrR (addrByte d .read) s).next fun a s =>
      match a with
      | .nack => stopAndBail .nack s
      | .ack =>
        match busRxPoll s with
        | (none, s) => stopAndBail .timeout s
        | (some _, s) =>
          (busMasterNack s).next fun _ s =>
          busStop s.takeResult

/-- `RegWrite(d, a, v)` (R11) in a codec state: its status goes nowhere but into the command's diagnostic status. -/
def regWrite (phase : CodecState) (d : DevAddr) (r v : Byte) (s : State) : Run Unit :=
  (writeTransaction d r v (s.enter phase)).next fun _ s => .ended () s.noteStatus

/-- `RegRead(d, a)` (R11) in a codec state: the byte, 0x00 when the transaction fails. -/
def regRead (phase : CodecState) (d : DevAddr) (r : Byte) (s : State) : Run Byte :=
  (readTransaction d r (s.enter phase)).next fun _ s => .ended s.tResult s.noteStatus

/-- `MemWrite(a, 1, v)` (R11). -/
def memWrite (phase : CodecState) (r v : Byte) (s : State) : Run Unit :=
  regWrite phase Config.rtcDevAddr r v s

/-- `MemRead(a, 1)` (R11). -/
def memRead (phase : CodecState) (r : Byte) (s : State) : Run Byte :=
  regRead phase Config.rtcDevAddr r s

/-! ## WRITE_REG and READ_REG -/

/-- WRITE_REG `dev, reg, data` (R140): one write transaction, `rsp_data` 0x00. -/
def execWriteReg (dev : DevAddr) (reg data : Byte) (s : State) : Result :=
  command (latchEW 0x01 dev reg data)
    (fun s => (regWrite .raw dev reg data s.clearStatus).close fun _ s => s.respond 0) s

/-- READ_REG `dev, reg` (R141): one read transaction, `rsp_data` the byte or the sentinel 0x00. -/
def execReadReg (dev : DevAddr) (reg : Byte) (s : State) : Result :=
  command (latchER 0x02 dev reg)
    (fun s => (regRead .raw dev reg s.clearStatus).close fun b s => s.respond b) s

end Sys2Proof.Machine
end

