-- ==== Sys2Proof/Machine/Getters.lean ====
section
/-! DEFINITION. The ten field getters (spec/42_rtc_getters.md R180 to R191). -/

namespace Sys2Proof.Machine

/-- The common shape of R180: one read transaction of register `r`, the byte decoded, kept nowhere. A failed read
delivers 0x00, which is decoded like any byte (R181). -/
def getCommand (op : BitVec 6) (r : Byte) (decoded : Byte → Byte) (s : State) : Result :=
  command (latchN op)
    (fun s => (memRead .getRd r s.clearStatus).close fun b s => s.respond (decoded b)) s

/-- GET_SECONDS (R182): bit 7, the clock-halt bit, is masked off. -/
def execGetSeconds (s : State) : Result := getCommand 0x10 0x00 (fun b => bcdDec b 0x7F) s

/-- GET_MINUTES (R183). -/
def execGetMinutes (s : State) : Result := getCommand 0x11 0x01 (fun b => bcdDec b 0x7F) s

/-- GET_HOURS (R184): bits 6 and 7 are masked off. -/
def execGetHours (s : State) : Result := getCommand 0x12 0x02 (fun b => bcdDec b 0x3F) s

/-- GET_DAYNAME (R185): the raw byte. -/
def execGetDayname (s : State) : Result := getCommand 0x13 0x03 (fun b => b) s

/-- GET_DAYS (R186): the whole byte is digits. -/
def execGetDays (s : State) : Result := getCommand 0x14 0x04 (fun b => bcdDec b 0xFF) s

/-- GET_MONTHS (R187). -/
def execGetMonths (s : State) : Result := getCommand 0x15 0x05 (fun b => bcdDec b 0xFF) s

/-- GET_YEARS (R188). -/
def execGetYears (s : State) : Result := getCommand 0x16 0x06 (fun b => bcdDec b 0xFF) s

/-- GET_ASECONDS (R189). -/
def execGetAseconds (s : State) : Result := getCommand 0x17 0x07 (fun b => bcdDec b 0x7F) s

/-- GET_AMINUTES (R190). -/
def execGetAminutes (s : State) : Result := getCommand 0x18 0x08 (fun b => bcdDec b 0x7F) s

/-- GET_AHOURS (R191). -/
def execGetAhours (s : State) : Result := getCommand 0x19 0x09 (fun b => bcdDec b 0x3F) s

end Sys2Proof.Machine
end

