-- ==== Sys2Proof/Machine/Init.lean ====
section
/-! DEFINITION. RTC_INIT (spec/44_rtc_init.md R220 to R224). -/

namespace Sys2Proof.Machine

/-- The seconds half of R220: read register 0x00; if the clock-halt bit is set, write the byte back with only that bit
cleared and wait INIT_SETTLE, a step that changes nothing but `cst` (R222). -/
def initSeconds (s : State) : Run Unit :=
  (memRead .initRdSec 0x00 s).next fun sec s =>
  if sec.getLsbD 7 then
    (memWrite .initWrSec 0x00 (sec &&& 0x7F) (s.keepTmp sec)).next fun _ s => .ended () (s.enter .initSettle)
  else .ended () (s.keepTmp sec)

/-- The hours half of R220: read register 0x02; if the 12-hour mode bit is set, write the byte back with only that bit
cleared (R223). -/
def initHours (s : State) : Run Unit :=
  (memRead .initRdHr 0x02 s).next fun hr s =>
  if hr.getLsbD 6 then memWrite .initWrHr 0x02 (hr &&& 0xBF) (s.keepTmp hr) else .ended () (s.keepTmp hr)

/-- RTC_INIT (R220): no failure stops the sequence (R221). -/
def execRtcInit (s : State) : Result :=
  command (latchN 0x03)
    (fun s => ((initSeconds s.clearStatus).next fun _ s => initHours s).close fun _ s => s.respond 0) s

end Sys2Proof.Machine
end

