-- ==== Sys2Proof/Machine/Setters.lean ====
section
/-! DEFINITION. The ten field setters (spec/43_rtc_setters.md R200 to R214). -/

namespace Sys2Proof.Machine

/-- The shape of R202: validate; an invalid value causes nothing (R201); a valid one is written in one transaction,
no read. `rsp_data` is 0x00 (R204). -/
def setPlain (op : BitVec 6) (r lo hi : Byte) (encoded : Byte) (v : Byte) (s : State) : Result :=
  command (latchV op v)
    (fun s =>
      if inRange lo hi v then
        (memWrite .setWr r encoded s.clearStatus).close fun _ s => s.respond 0
      else s.reject .invalid) s

/-- The shape of R203: validate; read the register, keep the bits of `keep`, write the merged byte. A failed read is
taken as 0x00 and the write still happens. -/
def setKeeping (op : BitVec 6) (r lo hi keep : Byte) (encoded : Byte) (v : Byte) (s : State) : Result :=
  command (latchV op v)
    (fun s =>
      if inRange lo hi v then
        ((memRead .setRd r s.clearStatus).next fun cur s =>
          memWrite .setWr r (mergeKeep encoded cur keep) (s.keepTmp cur)).close fun _ s => s.respond 0
      else s.reject .invalid) s

/-- SET_SECONDS (R205): keeps bit 7, the clock-halt bit. -/
def execSetSeconds (v : Byte) (s : State) : Result := setKeeping 0x20 0x00 0 59 0x80 (bcdEnc v) v s

/-- SET_MINUTES (R206). -/
def execSetMinutes (v : Byte) (s : State) : Result := setPlain 0x21 0x01 0 59 (bcdEnc v) v s

/-- SET_HOURS (R207): keeps bit 6, the 12/24-hour mode bit. -/
def execSetHours (v : Byte) (s : State) : Result := setKeeping 0x22 0x02 0 23 0x40 (bcdEnc v) v s

/-- SET_DAYNAME (R208): no BCD. -/
def execSetDayname (v : Byte) (s : State) : Result := setPlain 0x23 0x03 1 7 v v s

/-- SET_DAYS (R209). -/
def execSetDays (v : Byte) (s : State) : Result := setPlain 0x24 0x04 1 31 (bcdEnc v) v s

/-- SET_MONTHS (R210). -/
def execSetMonths (v : Byte) (s : State) : Result := setPlain 0x25 0x05 1 12 (bcdEnc v) v s

/-- SET_YEARS (R211). -/
def execSetYears (v : Byte) (s : State) : Result := setPlain 0x26 0x06 0 99 (bcdEnc v) v s

/-- SET_ASECONDS (R212): no read, bit 7 written 0. -/
def execSetAseconds (v : Byte) (s : State) : Result := setPlain 0x27 0x07 0 59 (bcdEnc v) v s

/-- SET_AMINUTES (R213). -/
def execSetAminutes (v : Byte) (s : State) : Result := setPlain 0x28 0x08 0 59 (bcdEnc v) v s

/-- SET_AHOURS (R214): keeps bit 6, the 12/24-hour mode bit. -/
def execSetAhours (v : Byte) (s : State) : Result := setKeeping 0x29 0x09 0 23 0x40 (bcdEnc v) v s

end Sys2Proof.Machine
end

