-- ==== Sys2Proof/Machine/Dispatch.lean ====
section
/-! DEFINITION. One arm per command, each one call of its meaning. -/

namespace Sys2Proof.Machine

def exec (i : Instr) (s : State) : Host.Outcome State Fault Refusal :=
  match i with
  | .writeReg dev reg data => Sys2Proof.Machine.execWriteReg dev reg data s
  | .readReg dev reg => Sys2Proof.Machine.execReadReg dev reg s
  | .rtcInit => Sys2Proof.Machine.execRtcInit s
  | .getSeconds => Sys2Proof.Machine.execGetSeconds s
  | .getMinutes => Sys2Proof.Machine.execGetMinutes s
  | .getHours => Sys2Proof.Machine.execGetHours s
  | .getDayname => Sys2Proof.Machine.execGetDayname s
  | .getDays => Sys2Proof.Machine.execGetDays s
  | .getMonths => Sys2Proof.Machine.execGetMonths s
  | .getYears => Sys2Proof.Machine.execGetYears s
  | .getAseconds => Sys2Proof.Machine.execGetAseconds s
  | .getAminutes => Sys2Proof.Machine.execGetAminutes s
  | .getAhours => Sys2Proof.Machine.execGetAhours s
  | .setSeconds value => Sys2Proof.Machine.execSetSeconds value s
  | .setMinutes value => Sys2Proof.Machine.execSetMinutes value s
  | .setHours value => Sys2Proof.Machine.execSetHours value s
  | .setDayname value => Sys2Proof.Machine.execSetDayname value s
  | .setDays value => Sys2Proof.Machine.execSetDays value s
  | .setMonths value => Sys2Proof.Machine.execSetMonths value s
  | .setYears value => Sys2Proof.Machine.execSetYears value s
  | .setAseconds value => Sys2Proof.Machine.execSetAseconds value s
  | .setAminutes value => Sys2Proof.Machine.execSetAminutes value s
  | .setAhours value => Sys2Proof.Machine.execSetAhours value s

end Sys2Proof.Machine
end

