-- ==== Sys2Proof/Machine/Sequence.lean ====
section
/-! DEFINITION. What one step is (assumption log 1): the acceptance of the presented command word and the whole
command up to its response, when the block is ready; otherwise one clock cycle. -/

namespace Sys2Proof.Machine

/-- A word is accepted (spec/10_state.md R30): its fields are latched, it is decoded once (spec/20_memory.md R72), and
its command is executed; an illegal word is answered ILLEGAL with no other effect (spec/30_encoding.md R96). -/
def acceptWord (cw : CmdWord) (s : State) : Result :=
  match decode cw with
  | .command i => exec i (s.latchWord cw)
  | .illegal _ => .next ((s.latchWord cw).reject .illegal)

/-- In `C_IDLE`: wait while nothing is presented, else accept the word presented. -/
def idleStep (s : State) : Result :=
  match s.commands with
  | [] => .next s
  | cw :: rest => acceptWord cw { s with commands := rest }

/-- With `rst` asserted: reset in `C_IDLE`, refused while a command is running (R45, spec/70_reset_and_hazards.md
R261). -/
def resetStep (s : State) : Result :=
  match s.cst with
  | .idle => .next s.resetCore
  | _ => .refused .resetWhileBusy

/-- One step: the configuration check (U10), then reset, then acceptance or a cycle. -/
def advance (s : State) : Result :=
  if s.pollLimit = 0 then .refused .pollLimitZero
  else if s.rst then resetStep s
  else
    match s.cst with
    | .idle => idleStep s
    | _ => .next (cycle s)

/-- The state with a word presented to an idle block (assumption log 16): the word in front of the host's list, `rst`
low, both sequencers idle. -/
def State.present (cw : CmdWord) (s : State) : State :=
  { s with commands := cw :: s.commands, cst := .idle, est := .idle, rst := false }

end Sys2Proof.Machine
end

