-- ==== Sys2Proof/Machine/Step.lean ====
section
/-! DEFINITION. One step of the machine, and the placing of a word where it takes its next command from. -/

namespace Sys2Proof.Machine

/-- One step (Machine/Sequence.lean). -/
def step (s : State) : Host.Outcome State Fault Refusal := advance s

/-- The state in which the next step accepts the command word `w`, numbered as spec/opcode_table.json numbers it. -/
def State.withFetchWord (s : State) (_nbits w : Nat) : State := s.present (BitVec.ofNat 32 w)

end Sys2Proof.Machine
end

