-- ==== Sys2Proof/Safety.lean ====
section
/-! DEFINITION. What counts as a safe run, in the terms claims use: the block ready for a command, the environment's
coming answers, the outcome tables of the two transactions (spec/40_bus_engine.md R142, R143), the discipline of the bus
(R25, R144), and the invariants every step keeps. -/

namespace Sys2Proof.Machine

/-! ## Premises -/

/-- The block accepts a command: configured (R7, U10), `cmd_ready` (spec/10_state.md R29) and the engine idle (R128). -/
def State.Ready (s : State) : Prop := s.pollLimit ≠ 0 ∧ s.cst = .idle ∧ s.rst = false ∧ s.est = .idle

/-- The next `n` requests for which the line unit owes an `l_done` are all completed: the assumption LINE_UNIT_LIVE of
spec/40_bus_engine.md R127, for as many requests as a command can make (R146, R281) and no more. -/
def State.LiveFor (n : Nat) (s : State) : Prop := ∀ j < n, s.doneAnswer (s.doneSeen + j) ≠ .never

/-- The acknowledge of the `j`-th transmission from now on (R126 (a)). -/
def State.nextAck (s : State) (j : Nat) : Ack := s.ackAnswer (s.ackSeen + j)

/-- The external registers as the next transaction finds them, after the chip's own changes. -/
def State.nextMem (s : State) : Memory := s.mem.writeAll (s.chipAnswer s.chipSeen)

/-- The answer to the next receive for register `r` of device `d`, in the form of R126 (b): never, or (`k`, `b`). -/
def State.nextRx (s : State) (d : DevAddr) (r : Byte) : Option (Nat × Byte) :=
  match s.rxAnswer s.rxSeen with
  | .never => none
  | .arrives clear .held => some (clear + 1, s.nextMem.holds (location d r))
  | .arrives clear (.other b) => some (clear + 1, b)

/-- The chip changes location `a` by itself before one of the next `n` transactions (spec/20_memory.md R65). -/
def State.ChipTouches (s : State) (n a : Nat) : Prop :=
  ∃ j < n, a ∈ (s.chipAnswer (s.chipSeen + j)).map Prod.fst

/-! ## The outcome tables -/

/-- What one transaction does: its piece of the bus trace, its status, its data result, how many bytes it transmitted,
and whether its payload byte was acknowledged. -/
structure Outcome where
  events : List Event
  status : TStatus
  byte : Byte
  sent : Nat
  stored : Bool
  deriving DecidableEq, Repr

/-- The table of R142. `ack j` answers the `j`-th transmission of the transaction. -/
def writeOutcome (d : DevAddr) (r v : Byte) (ack : Nat → Ack) : Outcome :=
  match ack 0, ack 1, ack 2 with
  | .nack, _, _ => ⟨[.start, .tx (addrByte d .write) .nack, .stop], .nack, 0, 1, false⟩
  | .ack, .nack, _ => ⟨[.start, .tx (addrByte d .write) .ack, .tx r .nack, .stop], .nack, 0, 2, false⟩
  | .ack, .ack, .nack =>
    ⟨[.start, .tx (addrByte d .write) .ack, .tx r .ack, .tx v .nack, .stop], .nack, 0, 3, false⟩
  | .ack, .ack, .ack =>
    ⟨[.start, .tx (addrByte d .write) .ack, .tx r .ack, .tx v .ack, .stop], .ok, 0, 3, true⟩

/-- The table of R143. `rx` answers the receive; `limit` is RX_POLL_LIMIT. -/
def readOutcome (d : DevAddr) (r : Byte) (limit : Nat) (ack : Nat → Ack) (rx : Option (Nat × Byte)) : Outcome :=
  match ack 0, ack 1, ack 2 with
  | .nack, _, _ => ⟨[.start, .tx (addrByte d .write) .nack, .stop], .nack, 0, 1, false⟩
  | .ack, .nack, _ => ⟨[.start, .tx (addrByte d .write) .ack, .tx r .nack, .stop], .nack, 0, 2, false⟩
  | .ack, .ack, .nack =>
    ⟨[.start, .tx (addrByte d .write) .ack, .tx r .ack, .restart, .tx (addrByte d .read) .nack, .stop],
      .nack, 0, 3, false⟩
  | .ack, .ack, .ack =>
    let sofar := [.start, .tx (addrByte d .write) .ack, .tx r .ack, .restart, .tx (addrByte d .read) .ack, .rxen]
    match rx with
    | none => ⟨sofar ++ [.rxTimeout, .stop], .timeout, 0, 3, false⟩
    | some (k, b) =>
      if k ≤ limit then ⟨sofar ++ [.rx b k, .mnack, .stop], .ok, b, 3, false⟩
      else ⟨sofar ++ [.rxTimeout, .stop], .timeout, 0, 3, false⟩

/-- The read transaction of register `r` of device `d` that starts in `s`. -/
def State.readHere (s : State) (d : DevAddr) (r : Byte) : Outcome :=
  readOutcome d r s.pollLimit.toNat s.nextAck (s.nextRx d r)

/-- The write transaction that starts in `s`, after `sent` bytes of an earlier transaction of the same command. -/
def State.writeAfter (s : State) (sent : Nat) (d : DevAddr) (r v : Byte) : Outcome :=
  writeOutcome d r v fun j => s.nextAck (sent + j)

/-- The environment as the read transaction of register `r` of device `d` that starts in `s` leaves it: the chip's own
changes are made, the answers of the transaction are taken. A later transaction of the same command starts here. -/
def State.afterRead (s : State) (d : DevAddr) (r : Byte) : State :=
  { s with
    mem := s.nextMem
    ackSeen := s.ackSeen + (s.readHere d r).sent
    rxSeen := s.rxSeen + (s.readHere d r).events.count .rxen
    chipSeen := s.chipSeen + 1 }

/-- The environment as the write transaction of `v` to register `r` of device `d` that starts in `s` leaves it: the
register holds `v` if the payload byte was acknowledged (spec/40_bus_engine.md R140, assumption log 13), and else what it
held when the transaction began. -/
def State.afterWrite (s : State) (d : DevAddr) (r v : Byte) : State :=
  { s with
    mem := if (s.writeAfter 0 d r v).stored then s.nextMem.write (location d r) v else s.nextMem
    ackSeen := s.ackSeen + (s.writeAfter 0 d r v).sent
    chipSeen := s.chipSeen + 1 }

/-! ## The bus -/

/-- How a bus trace leaves the bus. -/
inductive BusPhase where
  /-- Released: every START so far has had its STOP. -/
  | free
  /-- Inside a transaction. -/
  | held
  /-- An event outside a transaction, or a START inside one. -/
  | broken
  deriving DecidableEq, Repr

/-- One event more. -/
def BusPhase.after : BusPhase → Event → BusPhase
  | .free, .start => .held
  | .free, _ => .broken
  | .held, .start => .broken
  | .held, .stop => .free
  | .held, _ => .held
  | .broken, _ => .broken

/-- The phase a trace leaves, starting from a released bus. -/
def busPhase (t : List Event) : BusPhase := t.foldl BusPhase.after .free

/-- Whether the engine has no transaction open on the bus: idle, or with its STOP requested (R25). -/
def EngineState.closed : EngineState → Bool
  | .idle => true
  | .stop => true
  | _ => false

/-! ## Invariants -/

/-- While the codec runs no transaction, the engine is idle (spec/10_state.md R25, R26). -/
def State.SequencersAgree (s : State) : Prop :=
  (s.cst = .idle ∨ s.cst = .resp ∨ s.cst = .initSettle) → s.est = .idle

/-- The bus is released exactly when the engine has no transaction open, and every event lies inside a transaction
(spec/20_memory.md R68, R70). -/
def State.BusDisciplined (s : State) : Prop :=
  busPhase s.trace = if s.est.closed then .free else .held

/-- What the line unit is doing is what the engine waits for (spec/40_bus_engine.md R124): nothing in `E_IDLE`, a
transmission in the three address, pointer and data states, a receive in `E_RX_POLL`, a primitive elsewhere. -/
def State.LineAwaited (s : State) : Prop :=
  match s.est, s.line with
  | .idle, .idle => s.lReq = .none
  | .start, .prim _ => True
  | .addrW, .tx _ _ => True
  | .reg, .tx _ _ => True
  | .data, .tx _ _ => True
  | .restart, .prim _ => True
  | .addrR, .tx _ _ => True
  | .rxPoll, .rx _ _ => True
  | .mnack, .prim _ => True
  | .stop, .prim _ => True
  | _, _ => False

/-- The poll counter never wraps: in `E_RX_POLL` it is at least 1 and at most RX_POLL_LIMIT (spec/10_state.md R24). -/
def State.PollBounded (s : State) : Prop :=
  s.est = .rxPoll → s.cnt ≠ 0 ∧ s.cnt ≤ s.pollLimit

/-- The sentinel (spec/40_bus_engine.md R141, spec/60_exceptions.md R239): a response with a status other than OK has
data 0x00. The rest is what makes it inductive: a failed transaction's result is 0x00, an open one has not failed, and a
command of one transaction has no earlier failure. -/
def State.SentinelZero (s : State) : Prop :=
  (s.rspStatus ≠ 0 → s.rspData = 0) ∧ (s.tStatus ≠ .ok → s.tResult = 0) ∧
  (s.est.closed = false → s.tStatus = .ok) ∧ (s.cst = .raw ∨ s.cst = .getRd → s.firstFail = .ok)

end Sys2Proof.Machine
end

