-- ==== Sys2Proof/Certificates/Slice0/Obligations.lean ====
section
/-! DEFINITION. The statements about the I2C-RTC core, each a `def Obligations.<Name> : Prop` with the rules of spec/ it
formalises in its docstring. The words a statement uses beyond the model's (the block ready, the environment live, the
outcome tables) are defined in Safety.lean; a few shapes shared by several statements stand first. -/

open Sys2Proof Sys2Proof.Machine

namespace Sys2Proof.Claims

/-- The BCD byte of `v`, in natural numbers: tens digit in the high nibble, ones digit in the low one
(spec/41_bcd_codec.md R161 for `v` up to 99). -/
def bcdByte (v : Byte) : Byte := BitVec.ofNat 8 (v.toNat / 10 * 16 + v.toNat % 10)

/-- The bits of a command word that a command uses, `OP` and `RSV` included (spec/30_encoding.md R91). -/
def usedBits : Instr → CmdWord
  | .writeReg _ _ _ => 0xFFFFFFFF
  | .readReg _ _ => 0xFFFFFF00
  | .rtcInit | .getSeconds | .getMinutes | .getHours | .getDayname | .getDays | .getMonths | .getYears
  | .getAseconds | .getAminutes | .getAhours => 0xFF800000
  | .setSeconds _ | .setMinutes _ | .setHours _ | .setDayname _ | .setDays _ | .setMonths _ | .setYears _
  | .setAseconds _ | .setAminutes _ | .setAhours _ => 0xFF8000FF

/-- The location of a register of the RTC. -/
def rtcLocation (r : Byte) : Nat := location Config.rtcDevAddr r

/-- The response is presented and the engine is idle with the bus released. -/
def Responded (t : State) : Prop :=
  t.cst = .resp ∧ t.rspValid = true ∧ t.est = .idle ∧ t.line = .idle ∧ t.lReq = .none

/-- The shape of a getter (spec/42_rtc_getters.md R180): one read transaction of register `r`, the response its byte
through `decoded` and its status. -/
def GetsField (i : Instr) (r : Byte) (decoded : Byte → Byte) : Prop :=
  ∀ s : State, s.Ready → s.LiveFor 8 →
    ∃ t, exec i s = .next t ∧ Responded t ∧
      t.trace = s.trace ++ (s.readHere Config.rtcDevAddr r).events ∧
      t.rspData = decoded (s.readHere Config.rtcDevAddr r).byte ∧
      t.rspStatus = (s.readHere Config.rtcDevAddr r).status.status.code

/-- The shape of a plain-write setter (spec/43_rtc_setters.md R202) on a valid value: one write transaction of the
byte `encoded v` to register `r`, which then holds it if it was acknowledged and else keeps what it held. -/
def SetsPlain (set : Byte → Instr) (r : Byte) (lo hi : Nat) (encoded : Byte → Byte) : Prop :=
  ∀ (v : Byte) (s : State), lo ≤ v.toNat → v.toNat ≤ hi → s.Ready → s.LiveFor 5 →
    ∃ t, exec (set v) s = .next t ∧ Responded t ∧
      t.trace = s.trace ++ (s.writeAfter 0 Config.rtcDevAddr r (encoded v)).events ∧
      t.rspData = 0 ∧
      t.rspStatus = (s.writeAfter 0 Config.rtcDevAddr r (encoded v)).status.status.code ∧
      t.mem.read (rtcLocation r) =
        (if (s.writeAfter 0 Config.rtcDevAddr r (encoded v)).stored then some (encoded v)
         else s.nextMem.read (rtcLocation r))

/-- The shape of a read-modify-write setter (R203) on a valid value: one read transaction of register `r`, then one
write transaction of the BCD byte with the bits of `keep` as read (0 where the read failed); the status is that of the
first transaction that failed (R204); the register holds that byte if it was acknowledged, and else what it held when the
write transaction began (R140). -/
def SetsKeeping (set : Byte → Instr) (r : Byte) (hi : Nat) (keep : Byte) : Prop :=
  ∀ (v : Byte) (s : State), v.toNat ≤ hi → s.Ready → s.LiveFor 13 →
    let rd := s.readHere Config.rtcDevAddr r
    let payload := bcdByte v ||| (rd.byte &&& keep)
    let wr := s.writeAfter rd.sent Config.rtcDevAddr r payload
    ∃ t, exec (set v) s = .next t ∧ Responded t ∧
      t.trace = s.trace ++ rd.events ++ wr.events ∧
      t.tmp = rd.byte ∧
      t.rspData = 0 ∧
      t.rspStatus = (if rd.status = .ok then wr.status else rd.status).status.code ∧
      t.mem.read (rtcLocation r) =
        (if wr.stored then some payload else (s.afterRead Config.rtcDevAddr r).nextMem.read (rtcLocation r))

/-- What no command changes: the host's side, the parameter, the scripts of the environment; and the trace only
grows. -/
structure SurroundingsKept (s t : State) : Prop where
  rst : t.rst = s.rst
  commands : t.commands = s.commands
  pollLimit : t.pollLimit = s.pollLimit
  doneScript : t.doneScript = s.doneScript
  ackScript : t.ackScript = s.ackScript
  rxScript : t.rxScript = s.rxScript
  chipScript : t.chipScript = s.chipScript
  trace : ∃ es, t.trace = s.trace ++ es

/-- A command without a response yet (turned away, or hung) has not written the response registers
(spec/10_state.md R27). -/
def ResponseKept (s t : State) : Prop :=
  t.cst ≠ .resp → t.rspData = s.rspData ∧ t.rspStatus = s.rspStatus

/-- Every register of every device reads as before, but for the locations in `stored` and those the chip itself
changes before one of the next `n` transactions (spec/20_memory.md R65). -/
def RegistersKept (n : Nat) (stored : List Nat) (s t : State) : Prop :=
  ∀ a, a ∉ stored → ¬ s.ChipTouches n a → t.mem.read a = s.mem.read a

/-- The receive side: `rbyte`, `cnt` and the receive answers taken. -/
def ReceiveSideKept (s t : State) : Prop := t.rbyte = s.rbyte ∧ t.cnt = s.cnt ∧ t.rxSeen = s.rxSeen

/-- A transmission. -/
def isTx : Event → Bool
  | .tx _ _ => true
  | _ => false

/-- A received byte. -/
def isRx : Event → Bool
  | .rx _ _ => true
  | _ => false

/-- The clauses (a) to (g) of spec/40_bus_engine.md R144 for the trace of one transaction. -/
structure TransactionShape (dir : Dir) (es : List Event) : Prop where
  beginsWithStart : es.head? = some .start
  endsWithStop : es.getLast? = some .stop
  oneStart : es.count .start = 1
  oneStop : es.count .stop = 1
  restarts : es.count .restart ≤ 1 ∧ (dir = .write → es.count .restart = 0)
  transmissions : es.countP isTx ≤ 3
  handshake : Event.mnack ∈ es ↔ es.any isRx = true
  stopsAfterNack : ∀ before b later, es = before ++ Event.tx b .nack :: later → later = [.stop]

/-- The trace of a read that delivers `b` at sample `k`, every byte acknowledged (spec/30_encoding.md R99). -/
def readEvents (r b : Byte) (k : Nat) : List Event :=
  [.start, .tx 0xD0 .ack, .tx r .ack, .restart, .tx 0xD1 .ack, .rxen, .rx b k, .mnack, .stop]

/-- The trace of a write of `v`, every byte acknowledged (spec/30_encoding.md R99). -/
def writeEvents (r v : Byte) : List Event :=
  [.start, .tx 0xD0 .ack, .tx r .ack, .tx v .ack, .stop]

/-- The status of a command of several transactions (spec/10_state.md R28): that of the first that failed. -/
def firstFailure (l : List TStatus) : TStatus := (l.find? (· ≠ .ok)).getD .ok

/-- The environment in which RTC_INIT's second read starts (spec/44_rtc_init.md R220): after the first read, and after the
corrective write of register 0x00 if bit 7 of the byte read was 1. -/
def afterInitSeconds (s : State) : State :=
  let sec := (s.readHere Config.rtcDevAddr 0x00).byte
  let s1 := s.afterRead Config.rtcDevAddr 0x00
  if sec.getLsbD 7 then s1.afterWrite Config.rtcDevAddr 0x00 (sec &&& 0x7F) else s1

/-- The reference slave of spec/95_test_vectors.md section 2 for the next `n` transactions of a command sequence: every
request completes, every byte is acknowledged, every receive delivers at the first sample the byte the register holds,
and the chip changes nothing by itself. -/
def ReferenceSlave (n : Nat) (s : State) : Prop :=
  s.LiveFor (8 * n) ∧ (∀ j < 3 * n, s.nextAck j = .ack) ∧
  (∀ j < n, s.rxAnswer (s.rxSeen + j) = .arrives 0 .held) ∧ (∀ j < n, s.chipAnswer (s.chipSeen + j) = [])

end Sys2Proof.Claims

open Sys2Proof.Claims

/-! ## Encoding -/

/-- The encoder's word of a well-formed command decodes to that command, every operand at every value
(spec/30_encoding.md R91, R93, R94, R105). -/
def Obligations.DecodeEncodedCommand : Prop :=
  ∀ i : Instr, i.wellFormed = true → decode (encode i) = .command i

/-- A word that decodes to a command is that command's word in every bit the command uses; the bits of the other
fields are ignored (spec/30_encoding.md R91, R94). -/
def Obligations.EncodeDecodedWord : Prop :=
  ∀ (w : CmdWord) (i : Instr), decode w = .command i → encode i = w &&& usedBits i

/-- Two words that differ only in bits the decoded command does not use decode alike (spec/30_encoding.md R91: an unused
field is ignored). -/
def Obligations.UnusedFieldsIgnored : Prop :=
  ∀ (w w' : CmdWord) (i : Instr), decode w = .command i → w &&& usedBits i = w' &&& usedBits i →
    decode w' = .command i

/-- The illegal words are exactly those of spec/30_encoding.md R95. -/
def Obligations.IllegalWordsExactly : Prop :=
  (∀ w : CmdWord, (∃ why, decode w = .illegal why) ↔
    (w.toNat / 2 ^ 23 % 8 ≠ 0 ∨
      (let op := w.toNat / 2 ^ 26
       op = 0x00 ∨ (0x04 ≤ op ∧ op ≤ 0x0F) ∨ (0x1A ≤ op ∧ op ≤ 0x1F) ∨ (0x2A ≤ op ∧ op ≤ 0x2F) ∨
        (0x30 ≤ op ∧ op ≤ 0x3F)))) ∧
  (∃ why, decode 0 = .illegal why) ∧ (∃ why, decode 0xFFFFFFFF = .illegal why)

/-- Words written out from spec/30_encoding.md R93 and spec/95_test_vectors.md section 3.4, one per class and format. -/
def Obligations.ExampleWordsDecode : Prop :=
  decode 0x04680159 = .command (.writeReg 0x68 0x01 0x59) ∧
  decode 0x087FFF00 = .command (.readReg 0x7F 0xFF) ∧
  decode 0x0C7FFFFF = .command .rtcInit ∧
  decode 0x4412ABCD = .command .getMinutes ∧
  decode 0x8400FF3B = .command (.setMinutes 59) ∧
  decode 0xA4000007 = .command (.setAhours 7) ∧
  decode 0x0C800000 = .illegal .reservedBits ∧
  decode 0x68000000 = .illegal .unassignedOpcode

/-- ADDRBYTE (spec/30_encoding.md R98, which the spec marks as derived from R63): the device address in bits [7:1], the
direction in bit 0. -/
def Obligations.AddressByteLayout : Prop :=
  (∀ d : DevAddr, addrByte d .write = (d.zeroExtend 8 <<< 1) ||| 0 ∧ addrByte d .read = (d.zeroExtend 8 <<< 1) ||| 1 ∧
    addrByte d .write = d ++ (0 : BitVec 1) ∧ addrByte d .read = d ++ (1 : BitVec 1)) ∧
  addrByte Config.rtcDevAddr .write = 0xD0 ∧ addrByte Config.rtcDevAddr .read = 0xD1

/-- The pseudo-instructions stand for raw accesses to device 0x68 (spec/30_encoding.md R106). -/
def Obligations.PseudoInstructionsExpand : Prop :=
  (∀ reg < 256, (Source.rtcRead reg).assemble = (Source.readReg 0x68 reg).assemble ∧
    (Source.rtcRead reg).assemble = some (.readReg 0x68 (BitVec.ofNat 8 reg))) ∧
  (∀ reg < 256, ∀ data < 256, (Source.rtcWrite reg data).assemble = (Source.writeReg 0x68 reg data).assemble ∧
    (Source.rtcWrite reg data).assemble = some (.writeReg 0x68 (BitVec.ofNat 8 reg) (BitVec.ofNat 8 data)))

/-! ## The codec's functions -/

/-- `bcd_enc` (spec/41_bcd_codec.md R161): the low eight bits of the source's formula, for every byte; below 100 the
BCD byte. -/
def Obligations.BcdEncodeFormula : Prop :=
  (∀ v : Byte, (bcdEnc v).toNat = ((v.toNat / 10) <<< 4 ||| v.toNat % 10) % 256) ∧
  (∀ v : Byte, v.toNat ≤ 99 → bcdEnc v = bcdByte v)

/-- `bcd_dec` (spec/41_bcd_codec.md R163): the formula for every byte and mask; the masks of the nine decoded fields, and
day-of-week not decoded. -/
def Obligations.BcdDecodeFormula : Prop :=
  (∀ b m : Byte, (bcdDec b m).toNat = (b &&& m).toNat % 16 + (b &&& m).toNat / 16 * 10) ∧
  (∀ f ∈ [Field.seconds, .minutes, .alarmSeconds, .alarmMinutes], ∀ b, f.ofByte b = bcdDec b 0x7F) ∧
  (∀ f ∈ [Field.hours, .alarmHours], ∀ b, f.ofByte b = bcdDec b 0x3F) ∧
  (∀ f ∈ [Field.dayOfMonth, .month, .year], ∀ b, f.ofByte b = bcdDec b 0xFF) ∧
  (∀ b : Byte, Field.dayOfWeek.ofByte b = b)

/-- The round-trip laws (a) to (d) of spec/41_bcd_codec.md R168; (c) and (d) are inferences the spec marks as its own. -/
def Obligations.BcdRoundTrips : Prop :=
  (∀ v : Byte, v.toNat ≤ 59 → bcdDec (bcdEnc v) 0x7F = v) ∧
  (∀ v cur : Byte, v.toNat ≤ 23 → bcdDec (mergeKeep (bcdEnc v) cur 0x40) 0x3F = v ∧
    (mergeKeep (bcdEnc v) cur 0x40).getLsbD 6 = cur.getLsbD 6) ∧
  (∀ v cur : Byte, v.toNat ≤ 59 → bcdDec (mergeKeep (bcdEnc v) cur 0x80) 0x7F = v ∧
    (mergeKeep (bcdEnc v) cur 0x80).getLsbD 7 = cur.getLsbD 7) ∧
  (∀ v : Byte, v.toNat ≤ 99 → bcdDec (bcdEnc v) 0xFF = v)

/-! ## Reset, acceptance, the step -/

/-- The state right after reset (spec/10_state.md R45, R260; spec/95_test_vectors.md section 3.10): both sequencers
idle, every latch zero, OK, no request, ready for a command, an empty bus trace; the limit at its default (R7). -/
def Obligations.ResetStateValues : Prop :=
  let s := State.reset
  s.est = .idle ∧ s.cst = .idle ∧ s.op = 0 ∧ s.dev = 0 ∧ s.reg = 0 ∧ s.wdata = 0 ∧ s.tDev = 0 ∧ s.tReg = 0 ∧
  s.tWdata = 0 ∧ s.tDir = .write ∧ s.rbyte = 0 ∧ s.tmp = 0 ∧ s.tResult = 0 ∧ s.tStatus = .ok ∧ s.cnt = 0 ∧
  s.rspData = 0 ∧ s.rspStatus = 0 ∧ s.rspValid = false ∧ s.lReq = .none ∧ s.cmdReady = true ∧ s.trace = [] ∧
  s.pollLimit = 10000

/-- Asserting `rst` (spec/10_state.md R45, spec/70_reset_and_hazards.md R261): `cmd_ready` is 0; in `C_IDLE` the core
takes its reset values, no bus request is made and the external registers keep their contents; while a command is
running the reset is refused. -/
def Obligations.ResetStep : Prop :=
  ∀ s : State, s.pollLimit ≠ 0 → s.rst = true →
    s.cmdReady = false ∧
    (s.cst = .idle → ∃ t, step s = .next t ∧
      t.est = .idle ∧ t.cst = .idle ∧ t.op = 0 ∧ t.dev = 0 ∧ t.reg = 0 ∧ t.wdata = 0 ∧ t.tDev = 0 ∧ t.tReg = 0 ∧
      t.tWdata = 0 ∧ t.tDir = .write ∧ t.rbyte = 0 ∧ t.tmp = 0 ∧ t.tResult = 0 ∧ t.tStatus = .ok ∧ t.cnt = 0 ∧
      t.rspData = 0 ∧ t.rspStatus = 0 ∧ t.rspValid = false ∧ t.lReq = .none ∧ t.cmdReady = true ∧
      t.trace = s.trace ∧ t.doneSeen = s.doneSeen ∧ t.rxSeen = s.rxSeen ∧ t.mem = s.mem ∧ t.commands = s.commands ∧
      t.pollLimit = s.pollLimit) ∧
    (s.cst ≠ .idle → step s = .refused .resetWhileBusy)

/-- A step of a ready block to which a legal word is presented is `exec` of the command, on the state with the word
taken from the host's list and every operand latch loaded from its field (spec/10_state.md R22, R30). That one step is the
whole command (assumption log 1) and that the host port is a list of words (assumption log 15) are the model's choices;
StepIsClockCycles says what such a step is in clock cycles. -/
def Obligations.StepRunsAcceptedCommand : Prop :=
  ∀ (s : State) (w : CmdWord) (rest : List CmdWord) (i : Instr), s.pollLimit ≠ 0 → s.cmdReady = true →
    s.commands = w :: rest → decode w = .command i →
      step s = exec i { s with
        commands := rest, op := opField w, dev := devField w, reg := regField w, wdata := dataField w }

/-- An illegal word that is accepted (spec/30_encoding.md R96): the operand latches are loaded, the response is 0x00 and
ILLEGAL, and nothing else changes: no request, no other latch, no external register. -/
def Obligations.IllegalWordAnswered : Prop :=
  ∀ (s : State) (w : CmdWord) (rest : List CmdWord) (why : Illegal), s.pollLimit ≠ 0 → s.cmdReady = true →
    s.commands = w :: rest → decode w = .illegal why →
      step s = .next { s with
        commands := rest, op := opField w, dev := devField w, reg := regField w, wdata := dataField w,
        cst := .resp, rspData := 0, rspStatus := 4 }

/-- With nothing presented the block waits in `C_IDLE` and nothing changes (spec/10_state.md R26, R30). -/
def Obligations.IdleWaits : Prop :=
  ∀ s : State, s.pollLimit ≠ 0 → s.cmdReady = true → s.cmdValid = false → step s = .next s

/-- The response is presented for one cycle, after which the block is ready and the response registers keep their
values (spec/10_state.md R26, R27, R30). -/
def Obligations.ResponseLastsOneStep : Prop :=
  ∀ s : State, s.pollLimit ≠ 0 → s.rst = false → s.rspValid = true →
    s.busy = true ∧ ∃ t, step s = .next t ∧ t.rspValid = false ∧ t.cmdReady = true ∧
      t.rspData = s.rspData ∧ t.rspStatus = s.rspStatus ∧ t.trace = s.trace ∧ t.mem = s.mem

/-- The response registers are written only on entering `C_RESP` (spec/10_state.md R27), whatever the step. -/
def Obligations.ResponseRegistersHold : Prop :=
  ∀ s t : State, s.rst = false → step s = .next t → t.cst ≠ .resp →
    t.rspData = s.rspData ∧ t.rspStatus = s.rspStatus

/-- While a command is running nothing the host presents has any effect, nor is it taken (spec/70_reset_and_hazards.md
R264, spec/10_state.md R30): two busy states that differ only in what the host presents step alike. -/
def Obligations.BusyIgnoresHost : Prop :=
  ∀ (s : State) (other : List CmdWord), s.pollLimit ≠ 0 → s.rst = false → s.cst ≠ .idle →
    ∃ t, step s = .next t ∧ t.commands = s.commands ∧
      step { s with commands := other } = .next { t with commands := other }

/-- A command given to a block that is not ready is turned away with no effect at all (spec/10_state.md R30,
spec/70_reset_and_hazards.md R264). That `exec` then answers the unchanged state is the model's choice (assumption log
9). -/
def Obligations.CommandTurnedAway : Prop :=
  ∀ (i : Instr) (s : State), s.pollLimit ≠ 0 → s.cmdReady = false → exec i s = .next s

/-- RX_POLL_LIMIT = 0 is refused by every step and every command (spec/93_implementation_defined.md U10,
spec/00_scope.md R7). That it is a refusal at every step is the model's choice (assumption log 6). -/
def Obligations.ZeroPollLimitRefused : Prop :=
  ∀ s : State, s.pollLimit = 0 → step s = .refused .pollLimitZero ∧ ∀ i, exec i s = .refused .pollLimitZero

/-- A block that is ready by R29 but whose engine is not idle takes no command: the model's own fault (assumption log
10), the precondition of spec/40_bus_engine.md R128. -/
def Obligations.BusyEngineFaults : Prop :=
  ∀ (i : Instr) (s : State), s.pollLimit ≠ 0 → s.cmdReady = true → s.est ≠ .idle →
    exec i s = .fault .engineNotIdle

/-! ## The engine, cycle by cycle -/

/-- What the engine does in the cycle the line unit completes the awaited primitive or byte (spec/40_bus_engine.md R129,
R130, R131, R132, R133, R134, R135, R138, R139). -/
def Obligations.EngineTransitions : Prop :=
  ∀ s : State, s.cst ≠ .idle → s.cst ≠ .resp → s.lDone = true →
    let t := cycle s
    let bailed := t.tStatus = .nack ∧ t.tResult = 0 ∧ t.lReq = .stop ∧ t.est = .stop
    (s.est = .start → t.lReq = .tx ∧ t.lTxByte = addrByte s.tDev .write ∧ t.est = .addrW ∧ t.trace = s.trace) ∧
    (s.est = .addrW → s.lAckstat = .ack →
      t.lReq = .tx ∧ t.lTxByte = s.tReg ∧ t.est = .reg ∧
      t.trace = s.trace ++ [.tx (addrByte s.tDev .write) .ack]) ∧
    (s.est = .addrW → s.lAckstat = .nack →
      bailed ∧ t.trace = s.trace ++ [.tx (addrByte s.tDev .write) .nack, .stop]) ∧
    (s.est = .reg → s.lAckstat = .ack → s.tDir = .write →
      t.lReq = .tx ∧ t.lTxByte = s.tWdata ∧ t.est = .data ∧ t.trace = s.trace ++ [.tx s.tReg .ack]) ∧
    (s.est = .reg → s.lAckstat = .ack → s.tDir = .read →
      t.lReq = .restart ∧ t.est = .restart ∧ t.trace = s.trace ++ [.tx s.tReg .ack, .restart]) ∧
    (s.est = .reg → s.lAckstat = .nack → bailed ∧ t.trace = s.trace ++ [.tx s.tReg .nack, .stop]) ∧
    (s.est = .data → s.lAckstat = .ack →
      t.tStatus = s.tStatus ∧ t.lReq = .stop ∧ t.est = .stop ∧ t.trace = s.trace ++ [.tx s.tWdata .ack, .stop]) ∧
    (s.est = .data → s.lAckstat = .nack →
      bailed ∧ t.trace = s.trace ++ [.tx s.tWdata .nack, .stop]) ∧
    (s.est = .restart → t.lReq = .tx ∧ t.lTxByte = addrByte s.tDev .read ∧ t.est = .addrR ∧ t.trace = s.trace) ∧
    (s.est = .addrR → s.lAckstat = .ack →
      t.lReq = .rxen ∧ t.cnt = s.pollLimit ∧ t.est = .rxPoll ∧
      t.trace = s.trace ++ [.tx (addrByte s.tDev .read) .ack, .rxen]) ∧
    (s.est = .addrR → s.lAckstat = .nack →
      bailed ∧ t.trace = s.trace ++ [.tx (addrByte s.tDev .read) .nack, .stop]) ∧
    (s.est = .mnack → t.tResult = s.rbyte ∧ t.lReq = .stop ∧ t.est = .stop ∧ t.trace = s.trace ++ [.stop]) ∧
    (s.est = .stop → t.est = .idle ∧ t.lReq = .none ∧ t.tResult = s.tResult ∧ t.tStatus = s.tStatus ∧
      t.trace = s.trace)

/-- One sample of the bounded poll (spec/40_bus_engine.md R136, R137): the flag before the counter; the timeout when the
new counter value is zero, with the forced stop and no handshake. -/
def Obligations.PollSample : Prop :=
  ∀ s : State, s.cst ≠ .idle → s.cst ≠ .resp → s.est = .rxPoll → s.cnt ≠ 0 →
    let t := cycle s
    (s.lRxfull = true → t.rbyte = s.lRxbyte ∧ t.lReq = .mack ∧ t.lAckdt = 1 ∧ t.est = .mnack ∧ t.cnt = s.cnt ∧
      t.trace = s.trace ++ [.rx s.lRxbyte (s.pollLimit.toNat - s.cnt.toNat + 1), .mnack]) ∧
    (s.lRxfull = false → t.cnt.toNat = s.cnt.toNat - 1) ∧
    (s.lRxfull = false → s.cnt = 1 → t.tStatus = .timeout ∧ t.tResult = 0 ∧ t.lReq = .stop ∧ t.est = .stop ∧
      t.trace = s.trace ++ [.rxTimeout, .stop]) ∧
    (s.lRxfull = false → s.cnt ≠ 1 → t.lReq = .none ∧ t.est = .rxPoll ∧ t.trace = s.trace)

/-- A primitive that is never completed (spec/40_bus_engine.md R127): the engine stays in its wait state for ever, no
request and no event follows, and the command never responds. -/
def Obligations.HangLastsForEver : Prop :=
  ∀ s : State, s.cst ≠ .idle → s.cst ≠ .resp → s.est ≠ .idle → s.est ≠ .rxPoll →
    (s.line = .prim .never ∨ ∃ a, s.line = .tx .never a) →
    (∀ n, cycles (n + 1) s = { s with lReq := .none }) ∧
    (s.pollLimit ≠ 0 → s.rst = false → step s = .next { s with lReq := .none })

/-- Every step is some number of clock cycles: the commands as the spec's pseudocode (R140, R141, R180, R200, R220) and
the two state machines (spec/40_bus_engine.md R128 to R139, spec/10_state.md R26) are one machine, in every environment,
also where the command hangs. That one step is a whole command is the model's choice (assumption log 1); this says it adds
nothing to the cycles. -/
def Obligations.StepIsClockCycles : Prop :=
  ∀ s t : State, s.rst = false → step s = .next t → ∃ n, cycles n s = t

/-! ## The two transactions -/

/-- WRITE_REG's outcomes (spec/40_bus_engine.md R142, which the spec marks as derived): the four rows of the table, each
with its trace and result; an acknowledged payload byte is in the register afterwards, and without one the register keeps
what it held when the transaction began (R140; that it is stored on the acknowledge is the model's reading, assumption log
13). -/
def Obligations.WriteRegOutcomes : Prop :=
  ∀ (d : DevAddr) (r v : Byte) (s : State), s.Ready → s.LiveFor 5 →
    let AW := addrByte d .write
    ∃ t, exec (.writeReg d r v) s = .next t ∧ Responded t ∧ t.rspData = 0 ∧
      (s.nextAck 0 = .nack → t.trace = s.trace ++ [.start, .tx AW .nack, .stop] ∧ t.rspStatus = 1 ∧
        t.mem.read (location d r) = s.nextMem.read (location d r)) ∧
      (s.nextAck 0 = .ack → s.nextAck 1 = .nack →
        t.trace = s.trace ++ [.start, .tx AW .ack, .tx r .nack, .stop] ∧ t.rspStatus = 1 ∧
        t.mem.read (location d r) = s.nextMem.read (location d r)) ∧
      (s.nextAck 0 = .ack → s.nextAck 1 = .ack → s.nextAck 2 = .nack →
        t.trace = s.trace ++ [.start, .tx AW .ack, .tx r .ack, .tx v .nack, .stop] ∧ t.rspStatus = 1 ∧
        t.mem.read (location d r) = s.nextMem.read (location d r)) ∧
      (s.nextAck 0 = .ack → s.nextAck 1 = .ack → s.nextAck 2 = .ack →
        t.trace = s.trace ++ [.start, .tx AW .ack, .tx r .ack, .tx v .ack, .stop] ∧ t.rspStatus = 0 ∧
        t.mem.read (location d r) = some v)

/-- READ_REG's outcomes (spec/40_bus_engine.md R143, which the spec marks as derived): the five rows of the table. -/
def Obligations.ReadRegOutcomes : Prop :=
  ∀ (d : DevAddr) (r : Byte) (s : State), s.Ready → s.LiveFor 8 →
    let AW := addrByte d .write
    let AR := addrByte d .read
    let N := s.pollLimit.toNat
    ∃ t, exec (.readReg d r) s = .next t ∧ Responded t ∧
      (s.nextAck 0 = .nack →
        t.trace = s.trace ++ [.start, .tx AW .nack, .stop] ∧ t.rspData = 0 ∧ t.rspStatus = 1) ∧
      (s.nextAck 0 = .ack → s.nextAck 1 = .nack →
        t.trace = s.trace ++ [.start, .tx AW .ack, .tx r .nack, .stop] ∧ t.rspData = 0 ∧ t.rspStatus = 1) ∧
      (s.nextAck 0 = .ack → s.nextAck 1 = .ack → s.nextAck 2 = .nack →
        t.trace = s.trace ++ [.start, .tx AW .ack, .tx r .ack, .restart, .tx AR .nack, .stop] ∧
        t.rspData = 0 ∧ t.rspStatus = 1) ∧
      (s.nextAck 0 = .ack → s.nextAck 1 = .ack → s.nextAck 2 = .ack →
        (s.nextRx d r = none ∨ ∃ k b, s.nextRx d r = some (k, b) ∧ N < k) →
        t.trace = s.trace ++ [.start, .tx AW .ack, .tx r .ack, .restart, .tx AR .ack, .rxen, .rxTimeout, .stop] ∧
        t.rspData = 0 ∧ t.rspStatus = 2) ∧
      (s.nextAck 0 = .ack → s.nextAck 1 = .ack → s.nextAck 2 = .ack →
        ∀ k b, s.nextRx d r = some (k, b) → k ≤ N →
          t.trace = s.trace ++
            [.start, .tx AW .ack, .tx r .ack, .restart, .tx AR .ack, .rxen, .rx b k, .mnack, .stop] ∧
          t.rspData = b ∧ t.rspStatus = 0)

/-- Every transaction in an environment that completes its primitives has a trace of the shape (a) to (g) of
spec/40_bus_engine.md R144, which the spec marks as derived. -/
def Obligations.TransactionTraceShape : Prop :=
  (∀ (d : DevAddr) (r v : Byte) (s : State), s.LiveFor 5 →
    ∃ t es, writeTransaction d r v s = .ended () t ∧ t.trace = s.trace ++ es ∧ TransactionShape .write es) ∧
  (∀ (d : DevAddr) (r : Byte) (s : State), s.LiveFor 8 →
    ∃ t es, readTransaction d r s = .ended () t ∧ t.trace = s.trace ++ es ∧ TransactionShape .read es)

/-- Boundedness (spec/40_bus_engine.md R146): under LINE_UNIT_LIVE a write ends after at most 5 requests and a read after
at most 8, of which at most one is a receive. -/
def Obligations.TransactionsBounded : Prop :=
  (∀ (d : DevAddr) (r v : Byte) (s : State), s.LiveFor 5 →
    ∃ t, writeTransaction d r v s = .ended () t ∧ t.est = .idle ∧
      (t.doneSeen - s.doneSeen) + (t.rxSeen - s.rxSeen) ≤ 5) ∧
  (∀ (d : DevAddr) (r : Byte) (s : State), s.LiveFor 8 →
    ∃ t, readTransaction d r s = .ended () t ∧ t.est = .idle ∧
      (t.doneSeen - s.doneSeen) + (t.rxSeen - s.rxSeen) ≤ 8 ∧ t.rxSeen ≤ s.rxSeen + 1)

/-- The poll is bounded by the counter in every environment (spec/40_bus_engine.md R136, R137, R146; spec/10_state.md
R24): after at most `cnt` samples, during which the engine makes no request, it leaves `E_RX_POLL` with the handshake or
with the forced stop. -/
def Obligations.PollEndsWithinLimit : Prop :=
  ∀ s : State, s.cst ≠ .idle → s.cst ≠ .resp → s.est = .rxPoll → s.cnt ≠ 0 →
    ∃ n, 1 ≤ n ∧ n ≤ s.cnt.toNat ∧
      (∀ m < n, (cycles m s).est = .rxPoll ∧ (cycles m s).trace = s.trace) ∧
      ((cycles n s).est = .mnack ∧ (cycles n s).lReq = .mack ∨
        (cycles n s).est = .stop ∧ (cycles n s).lReq = .stop ∧ (cycles n s).tStatus = .timeout)

/-! ## The getters -/

/-- GET_SECONDS, GET_MINUTES, GET_HOURS (spec/42_rtc_getters.md R182, R183, R184), the decoding written out. -/
def Obligations.TimeGetterResults : Prop :=
  GetsField .getSeconds 0x00 (fun b => (b &&& 0x0F) + ((b &&& 0x70) >>> 4) * 10) ∧
  GetsField .getMinutes 0x01 (fun b => (b &&& 0x0F) + ((b &&& 0x70) >>> 4) * 10) ∧
  GetsField .getHours 0x02 (fun b => (b &&& 0x0F) + ((b &&& 0x30) >>> 4) * 10)

/-- GET_DAYNAME, GET_DAYS, GET_MONTHS, GET_YEARS (R185, R186, R187, R188): day-of-week raw, the others with the whole
high nibble as tens digit. -/
def Obligations.DateGetterResults : Prop :=
  GetsField .getDayname 0x03 (fun b => b) ∧
  GetsField .getDays 0x04 (fun b => (b &&& 0x0F) + (b >>> 4) * 10) ∧
  GetsField .getMonths 0x05 (fun b => (b &&& 0x0F) + (b >>> 4) * 10) ∧
  GetsField .getYears 0x06 (fun b => (b &&& 0x0F) + (b >>> 4) * 10)

/-- GET_ASECONDS, GET_AMINUTES, GET_AHOURS (R189, R190, R191). -/
def Obligations.AlarmGetterResults : Prop :=
  GetsField .getAseconds 0x07 (fun b => (b &&& 0x0F) + ((b &&& 0x70) >>> 4) * 10) ∧
  GetsField .getAminutes 0x08 (fun b => (b &&& 0x0F) + ((b &&& 0x70) >>> 4) * 10) ∧
  GetsField .getAhours 0x09 (fun b => (b &&& 0x0F) + ((b &&& 0x30) >>> 4) * 10)

/-- A getter whose read fails (spec/42_rtc_getters.md R181, which the spec marks as derived): data 0, the status that of
the engine; and a getter never answers INVALID or ILLEGAL. -/
def Obligations.FailedGetterIsZero : Prop :=
  ∀ (f : Field) (s : State), s.Ready → s.LiveFor 8 →
    ∃ t, exec (Instr.getter f) s = .next t ∧ t.rspStatus.toNat ≤ 2 ∧
      ((s.readHere Config.rtcDevAddr f.register).status ≠ .ok →
        t.rspData = 0 ∧
        t.rspStatus = (s.readHere Config.rtcDevAddr f.register).status.status.code ∧ t.rspStatus ≠ 0)

/-! ## The setters -/

/-- SET_MINUTES, SET_DAYNAME, SET_DAYS, SET_MONTHS, SET_YEARS on valid values (spec/43_rtc_setters.md R206, R208, R209,
R210, R211). -/
def Obligations.PlainSetterResults : Prop :=
  SetsPlain .setMinutes 0x01 0 59 bcdByte ∧
  SetsPlain .setDayname 0x03 1 7 (fun v => v) ∧
  SetsPlain .setDays 0x04 1 31 bcdByte ∧
  SetsPlain .setMonths 0x05 1 12 bcdByte ∧
  SetsPlain .setYears 0x06 0 99 bcdByte

/-- SET_ASECONDS and SET_AMINUTES on valid values (R212, R213): plain writes, bit 7 written 0. -/
def Obligations.AlarmPlainSetterResults : Prop :=
  SetsPlain .setAseconds 0x07 0 59 bcdByte ∧
  SetsPlain .setAminutes 0x08 0 59 bcdByte ∧
  (∀ v : Byte, v.toNat ≤ 59 → (bcdByte v).getLsbD 7 = false)

/-- SET_SECONDS, SET_HOURS, SET_AHOURS on valid values (R203, R205, R207, R214): read, keep the control bit, write. -/
def Obligations.KeepingSetterResults : Prop :=
  SetsKeeping .setSeconds 0x00 59 0x80 ∧
  SetsKeeping .setHours 0x02 23 0x40 ∧
  SetsKeeping .setAhours 0x09 23 0x40

/-- The byte a read-modify-write setter writes (spec/41_bcd_codec.md R166): its control bit is the one read, its other
bits are the digits of the value. -/
def Obligations.KeptBitsAreThoseRead : Prop :=
  (∀ v cur : Byte, v.toNat ≤ 59 → (mergeKeep (bcdEnc v) cur 0x80).getLsbD 7 = cur.getLsbD 7 ∧
    mergeKeep (bcdEnc v) cur 0x80 &&& 0x7F = bcdByte v) ∧
  (∀ v cur : Byte, v.toNat ≤ 23 → (mergeKeep (bcdEnc v) cur 0x40).getLsbD 6 = cur.getLsbD 6 ∧
    mergeKeep (bcdEnc v) cur 0x40 &&& 0xBF = bcdByte v)

/-- An out-of-range value causes nothing at all (spec/43_rtc_setters.md R201): the operand latches, the response 0x00
and INVALID, and otherwise the state as it was: no event, no request, no external register. -/
def Obligations.InvalidValueDoesNothing : Prop :=
  ∀ (f : Field) (v : Byte) (s : State), s.Ready → ¬ (f.lo ≤ v ∧ v ≤ f.hi) →
    exec (Instr.setter f v) s =
      .next { s with
        op := (Instr.setter f v).opcode, wdata := v, cst := .resp, rspData := 0, rspStatus := 3 }

/-- The ranges of spec/41_bcd_codec.md R165, field by field. -/
def Obligations.FieldRanges : Prop :=
  ∀ v : Byte,
    (inRange Field.seconds.lo Field.seconds.hi v = true ↔ v.toNat ≤ 59) ∧
    (inRange Field.minutes.lo Field.minutes.hi v = true ↔ v.toNat ≤ 59) ∧
    (inRange Field.hours.lo Field.hours.hi v = true ↔ v.toNat ≤ 23) ∧
    (inRange Field.dayOfWeek.lo Field.dayOfWeek.hi v = true ↔ 1 ≤ v.toNat ∧ v.toNat ≤ 7) ∧
    (inRange Field.dayOfMonth.lo Field.dayOfMonth.hi v = true ↔ 1 ≤ v.toNat ∧ v.toNat ≤ 31) ∧
    (inRange Field.month.lo Field.month.hi v = true ↔ 1 ≤ v.toNat ∧ v.toNat ≤ 12) ∧
    (inRange Field.year.lo Field.year.hi v = true ↔ v.toNat ≤ 99) ∧
    (inRange Field.alarmSeconds.lo Field.alarmSeconds.hi v = true ↔ v.toNat ≤ 59) ∧
    (inRange Field.alarmMinutes.lo Field.alarmMinutes.hi v = true ↔ v.toNat ≤ 59) ∧
    (inRange Field.alarmHours.lo Field.alarmHours.hi v = true ↔ v.toNat ≤ 23)

/-! ## RTC_INIT -/

/-- RTC_INIT on a device that acknowledges every byte and delivers `sec` and `hr` in time, whether these are the bytes its
registers hold or others (spec/44_rtc_init.md R220): each corrective write exactly when its bit was read as 1, with only
that bit cleared. -/
def Obligations.RtcInitOnWorkingDevice : Prop :=
  ∀ (s : State) (sec hr : Byte) (k1 k2 : Nat), s.Ready → s.LiveFor 26 → (∀ j < 12, s.nextAck j = .ack) →
    s.nextRx Config.rtcDevAddr 0x00 = some (k1, sec) → k1 ≤ s.pollLimit.toNat →
    (afterInitSeconds s).nextRx Config.rtcDevAddr 0x02 = some (k2, hr) → k2 ≤ s.pollLimit.toNat →
    ∃ t, exec .rtcInit s = .next t ∧ Responded t ∧ t.rspData = 0 ∧ t.rspStatus = 0 ∧ t.tmp = hr ∧
      t.trace = s.trace ++ readEvents 0x00 sec k1 ++
        (if sec.getLsbD 7 then writeEvents 0x00 (sec &&& 0x7F) else []) ++ readEvents 0x02 hr k2 ++
        (if hr.getLsbD 6 then writeEvents 0x02 (hr &&& 0xBF) else []) ∧
      (hr.getLsbD 6 = true → t.mem.read (rtcLocation 0x02) = some (hr &&& 0xBF)) ∧
      (sec.getLsbD 7 = true → ¬ s.ChipTouches 4 (rtcLocation 0x00) →
        t.mem.read (rtcLocation 0x00) = some (sec &&& 0x7F))

/-- RTC_INIT in any environment that completes its requests (spec/44_rtc_init.md R220, R221): it reads 0x00, writes the
byte back with bit 7 cleared exactly if that bit was read as 1, reads 0x02, writes the byte back with bit 6 cleared exactly
if that bit was read as 1, whatever fails on the way; a failed read delivers 0x00, so that its write is skipped; the status
is that of the first transaction that failed; each register is written exactly when its write was acknowledged. It is two,
three or four transactions. -/
def Obligations.RtcInitAlwaysResponds : Prop :=
  ∀ s : State, s.Ready → s.LiveFor 26 →
    let sec := s.readHere Config.rtcDevAddr 0x00
    let wsec := (s.afterRead Config.rtcDevAddr 0x00).writeAfter 0 Config.rtcDevAddr 0x00 (sec.byte &&& 0x7F)
    let s2 := afterInitSeconds s
    let hr := s2.readHere Config.rtcDevAddr 0x02
    let s3 := s2.afterRead Config.rtcDevAddr 0x02
    let whr := s3.writeAfter 0 Config.rtcDevAddr 0x02 (hr.byte &&& 0xBF)
    ∃ t es, exec .rtcInit s = .next t ∧ Responded t ∧ t.rspData = 0 ∧ t.tmp = hr.byte ∧
      t.trace = s.trace ++ es ∧
      es = sec.events ++ (if sec.byte.getLsbD 7 then wsec.events else []) ++ hr.events ++
        (if hr.byte.getLsbD 6 then whr.events else []) ∧
      (sec.status ≠ .ok → sec.byte.getLsbD 7 = false) ∧ (hr.status ≠ .ok → hr.byte.getLsbD 6 = false) ∧
      t.rspStatus = (firstFailure [sec.status, if sec.byte.getLsbD 7 then wsec.status else .ok, hr.status,
        if hr.byte.getLsbD 6 then whr.status else .ok]).status.code ∧
      t.mem = (if hr.byte.getLsbD 6 then (s3.afterWrite Config.rtcDevAddr 0x02 (hr.byte &&& 0xBF)).mem else s3.mem) ∧
      t.rspStatus.toNat ≤ 2 ∧ 2 ≤ es.count .start ∧ es.count .start ≤ 4 ∧ es.count .stop = es.count .start

/-- RTC_INIT on a bus with no device (spec/44_rtc_init.md R221): two failed reads, each with its own stop, and nothing
else. -/
def Obligations.RtcInitWithoutDevice : Prop :=
  ∀ s : State, s.Ready → s.LiveFor 26 → (∀ j < 2, s.nextAck j = .nack) →
    ∃ t, exec .rtcInit s = .next t ∧ Responded t ∧ t.rspData = 0 ∧ t.rspStatus = 1 ∧
      t.trace = s.trace ++ [.start, .tx 0xD0 .nack, .stop, .start, .tx 0xD0 .nack, .stop] ∧
      ∀ a, ¬ s.ChipTouches 2 a → t.mem.read a = s.mem.read a

/-! ## Frames -/

/-- WRITE_REG's frame (spec/40_bus_engine.md R140, state written), in every next state, also a hung one. -/
def Obligations.WriteRegFrame : Prop :=
  ∀ (d : DevAddr) (r v : Byte) (s t : State), exec (.writeReg d r v) s = .next t →
    SurroundingsKept s t ∧ ResponseKept s t ∧ ReceiveSideKept s t ∧ t.tmp = s.tmp ∧
    RegistersKept 1 [location d r] s t

/-- READ_REG's frame (R141): no external register is written. -/
def Obligations.ReadRegFrame : Prop :=
  ∀ (d : DevAddr) (r : Byte) (s t : State), exec (.readReg d r) s = .next t →
    SurroundingsKept s t ∧ ResponseKept s t ∧ t.wdata = s.wdata ∧ t.tWdata = s.tWdata ∧ t.tmp = s.tmp ∧
    RegistersKept 1 [] s t

/-- The frame of the ten getters (spec/42_rtc_getters.md R180): no operand latch but `op`, no external register. -/
def Obligations.GetterFrame : Prop :=
  ∀ (f : Field) (s t : State), exec (Instr.getter f) s = .next t →
    SurroundingsKept s t ∧ ResponseKept s t ∧ t.dev = s.dev ∧ t.reg = s.reg ∧ t.wdata = s.wdata ∧
    t.tWdata = s.tWdata ∧ t.tmp = s.tmp ∧ RegistersKept 1 [] s t

/-- The frame of the plain-write setters (spec/43_rtc_setters.md R202): nothing is received, and at most the field's
own register is written. -/
def Obligations.PlainSetterFrame : Prop :=
  ∀ (f : Field) (v : Byte) (s t : State), f.keep = 0 → exec (Instr.setter f v) s = .next t →
    SurroundingsKept s t ∧ ResponseKept s t ∧ ReceiveSideKept s t ∧ t.dev = s.dev ∧ t.reg = s.reg ∧
    t.tmp = s.tmp ∧ RegistersKept 1 [rtcLocation f.register] s t

/-- The frame of the read-modify-write setters (R203): at most the field's own register is written. -/
def Obligations.KeepingSetterFrame : Prop :=
  ∀ (f : Field) (v : Byte) (s t : State), f.keep ≠ 0 → exec (Instr.setter f v) s = .next t →
    SurroundingsKept s t ∧ ResponseKept s t ∧ t.dev = s.dev ∧ t.reg = s.reg ∧
    RegistersKept 2 [rtcLocation f.register] s t

/-- RTC_INIT's frame (spec/44_rtc_init.md R220, R223): no operand latch but `op`, at most the registers 0x00 and
0x02. -/
def Obligations.RtcInitFrame : Prop :=
  ∀ s t : State, exec .rtcInit s = .next t →
    SurroundingsKept s t ∧ ResponseKept s t ∧ t.dev = s.dev ∧ t.reg = s.reg ∧ t.wdata = s.wdata ∧
    RegistersKept 4 [rtcLocation 0x00, rtcLocation 0x02] s t

/-! ## Whole-machine rules -/

/-- No command but WRITE_REG changes a register other than 0x00 to 0x09 of device 0x68: the getters, the setters and
RTC_INIT because those are the only registers they reach (spec/20_memory.md R61), READ_REG because it writes no external
register (spec/40_bus_engine.md R141). It says what changes, not what is addressed; the result statements say that. -/
def Obligations.OnlyWriteRegChangesOtherRegisters : Prop :=
  ∀ (i : Instr) (s t : State), (∀ d r v, i ≠ .writeReg d r v) → exec i s = .next t →
    ∀ a, (∀ r : Byte, r.toNat ≤ 9 → a ≠ rtcLocation r) → ¬ s.ChipTouches 4 a → t.mem.read a = s.mem.read a

/-- No step faults while the sequencers agree (spec/00_scope.md R12, spec/60_exceptions.md R230: there are no fatal
conditions in the core). -/
def Obligations.NoStepFaults : Prop :=
  ∀ (s : State) (why : Fault), s.SequencersAgree → step s ≠ .fault why

/-- No step changes the parameter (spec/60_exceptions.md R244) or rewrites the trace (spec/40_bus_engine.md R123); the
environment's answers are taken in order (the counters are the model's own, assumption log 2). -/
def Obligations.HistoryOnlyGrows : Prop :=
  ∀ s t : State, step s = .next t →
    t.pollLimit = s.pollLimit ∧ (∃ es, t.trace = s.trace ++ es) ∧ s.doneSeen ≤ t.doneSeen ∧ s.ackSeen ≤ t.ackSeen ∧
    s.rxSeen ≤ t.rxSeen ∧ s.chipSeen ≤ t.chipSeen

/-- Status codes 5 to 7 are never produced (spec/10_state.md R28). -/
def Obligations.StatusStaysLegal : Prop :=
  ∀ s t : State, s.rspStatus.toNat ≤ 4 → step s = .next t → t.rspStatus.toNat ≤ 4

/-- Every step keeps the external register space in its canonical form (spec/20_memory.md R60; the form is the model's own,
assumption log 3). -/
def Obligations.StepKeepsMemoryForm : Prop :=
  ∀ s t : State, s.mem.wf = true → step s = .next t → t.mem.wf = true

/-- The bus is never left half-asserted (spec/20_memory.md R68, R70, spec/10_state.md R25): every step keeps that the
bus is released exactly when the engine has no transaction open, and that the engine is idle while the codec runs none. -/
def Obligations.StepKeepsBusDiscipline : Prop :=
  ∀ s t : State, s.SequencersAgree → s.BusDisciplined → step s = .next t → t.SequencersAgree ∧ t.BusDisciplined

/-- Every step keeps that the line unit is doing what the engine waits for (spec/40_bus_engine.md R124) and that the
poll counter is in range while it is read (spec/10_state.md R24). -/
def Obligations.StepKeepsLineAndPoll : Prop :=
  ∀ s t : State, s.SequencersAgree → s.LineAwaited → s.PollBounded → step s = .next t →
    t.LineAwaited ∧ t.PollBounded

/-- The sentinel (spec/95_test_vectors.md section 5 item 4, spec/40_bus_engine.md R141): every step keeps that a
response whose status is not OK has data 0x00. -/
def Obligations.StepKeepsSentinel : Prop :=
  ∀ s t : State, s.SequencersAgree → s.SentinelZero → step s = .next t → t.SentinelZero

/-- The invariants hold at reset. -/
def Obligations.InvariantsAtReset : Prop :=
  State.reset.SequencersAgree ∧ State.reset.BusDisciplined ∧ State.reset.LineAwaited ∧ State.reset.PollBounded ∧
  State.reset.SentinelZero ∧ State.reset.mem.wf = true ∧ State.reset.rspStatus.toNat ≤ 4

/-- Setting a field and getting it back on the reference slave (spec/95_test_vectors.md section 5 item 8): for every
field and every valid value, the setter responds OK and, once the response has been presented, the getter returns the
value with status OK. -/
def Obligations.SetThenGetOnReferenceSlave : Prop :=
  ∀ (f : Field) (v : Byte) (s : State), f.lo ≤ v → v ≤ f.hi → s.Ready → ReferenceSlave 3 s →
    ∃ t u w, exec (Instr.setter f v) s = .next t ∧ t.rspStatus = 0 ∧ step t = .next u ∧
      exec (Instr.getter f) u = .next w ∧ w.rspStatus = 0 ∧ w.rspData = v
end

