-- ==== Sys2Proof/Laws/State.lean ====
section
/-! SUPPORT. One lemma per field per named update of the state, each true by rfl, so that no later proof unfolds a
record update. Where an update leaves a field alone the lemma says so; that is its frame. -/

namespace Sys2Proof.Machine

variable (s : State)

/-! ### emit -/

@[simp] theorem State.emit_est (e : Event) : (s.emit e).est = s.est := rfl
@[simp] theorem State.emit_cst (e : Event) : (s.emit e).cst = s.cst := rfl
@[simp] theorem State.emit_op (e : Event) : (s.emit e).op = s.op := rfl
@[simp] theorem State.emit_dev (e : Event) : (s.emit e).dev = s.dev := rfl
@[simp] theorem State.emit_reg (e : Event) : (s.emit e).reg = s.reg := rfl
@[simp] theorem State.emit_wdata (e : Event) : (s.emit e).wdata = s.wdata := rfl
@[simp] theorem State.emit_tDev (e : Event) : (s.emit e).tDev = s.tDev := rfl
@[simp] theorem State.emit_tReg (e : Event) : (s.emit e).tReg = s.tReg := rfl
@[simp] theorem State.emit_tWdata (e : Event) : (s.emit e).tWdata = s.tWdata := rfl
@[simp] theorem State.emit_tDir (e : Event) : (s.emit e).tDir = s.tDir := rfl
@[simp] theorem State.emit_rbyte (e : Event) : (s.emit e).rbyte = s.rbyte := rfl
@[simp] theorem State.emit_tResult (e : Event) : (s.emit e).tResult = s.tResult := rfl
@[simp] theorem State.emit_tStatus (e : Event) : (s.emit e).tStatus = s.tStatus := rfl
@[simp] theorem State.emit_tmp (e : Event) : (s.emit e).tmp = s.tmp := rfl
@[simp] theorem State.emit_firstFail (e : Event) : (s.emit e).firstFail = s.firstFail := rfl
@[simp] theorem State.emit_cnt (e : Event) : (s.emit e).cnt = s.cnt := rfl
@[simp] theorem State.emit_rspData (e : Event) : (s.emit e).rspData = s.rspData := rfl
@[simp] theorem State.emit_rspStatus (e : Event) : (s.emit e).rspStatus = s.rspStatus := rfl
@[simp] theorem State.emit_lReq (e : Event) : (s.emit e).lReq = s.lReq := rfl
@[simp] theorem State.emit_lTxByte (e : Event) : (s.emit e).lTxByte = s.lTxByte := rfl
@[simp] theorem State.emit_rst (e : Event) : (s.emit e).rst = s.rst := rfl
@[simp] theorem State.emit_commands (e : Event) : (s.emit e).commands = s.commands := rfl
@[simp] theorem State.emit_pollLimit (e : Event) : (s.emit e).pollLimit = s.pollLimit := rfl
@[simp] theorem State.emit_line (e : Event) : (s.emit e).line = s.line := rfl
@[simp] theorem State.emit_mem (e : Event) : (s.emit e).mem = s.mem := rfl
@[simp] theorem State.emit_slavePtr (e : Event) : (s.emit e).slavePtr = s.slavePtr := rfl
@[simp] theorem State.emit_doneScript (e : Event) : (s.emit e).doneScript = s.doneScript := rfl
@[simp] theorem State.emit_ackScript (e : Event) : (s.emit e).ackScript = s.ackScript := rfl
@[simp] theorem State.emit_rxScript (e : Event) : (s.emit e).rxScript = s.rxScript := rfl
@[simp] theorem State.emit_chipScript (e : Event) : (s.emit e).chipScript = s.chipScript := rfl
@[simp] theorem State.emit_doneSeen (e : Event) : (s.emit e).doneSeen = s.doneSeen := rfl
@[simp] theorem State.emit_ackSeen (e : Event) : (s.emit e).ackSeen = s.ackSeen := rfl
@[simp] theorem State.emit_rxSeen (e : Event) : (s.emit e).rxSeen = s.rxSeen := rfl
@[simp] theorem State.emit_chipSeen (e : Event) : (s.emit e).chipSeen = s.chipSeen := rfl
@[simp] theorem State.emit_trace (e : Event) : (s.emit e).trace = s.trace ++ [e] := rfl
@[simp] theorem State.emit_doneAnswer (e : Event) (n : Nat) : (s.emit e).doneAnswer n = s.doneAnswer n := rfl
@[simp] theorem State.emit_ackAnswer (e : Event) (n : Nat) : (s.emit e).ackAnswer n = s.ackAnswer n := rfl
@[simp] theorem State.emit_rxAnswer (e : Event) (n : Nat) : (s.emit e).rxAnswer n = s.rxAnswer n := rfl
@[simp] theorem State.emit_chipAnswer (e : Event) (n : Nat) : (s.emit e).chipAnswer n = s.chipAnswer n := rfl

/-! ### quiet -/

@[simp] theorem State.quiet_est : (s.quiet).est = s.est := rfl
@[simp] theorem State.quiet_cst : (s.quiet).cst = s.cst := rfl
@[simp] theorem State.quiet_op : (s.quiet).op = s.op := rfl
@[simp] theorem State.quiet_dev : (s.quiet).dev = s.dev := rfl
@[simp] theorem State.quiet_reg : (s.quiet).reg = s.reg := rfl
@[simp] theorem State.quiet_wdata : (s.quiet).wdata = s.wdata := rfl
@[simp] theorem State.quiet_tDev : (s.quiet).tDev = s.tDev := rfl
@[simp] theorem State.quiet_tReg : (s.quiet).tReg = s.tReg := rfl
@[simp] theorem State.quiet_tWdata : (s.quiet).tWdata = s.tWdata := rfl
@[simp] theorem State.quiet_tDir : (s.quiet).tDir = s.tDir := rfl
@[simp] theorem State.quiet_rbyte : (s.quiet).rbyte = s.rbyte := rfl
@[simp] theorem State.quiet_tResult : (s.quiet).tResult = s.tResult := rfl
@[simp] theorem State.quiet_tStatus : (s.quiet).tStatus = s.tStatus := rfl
@[simp] theorem State.quiet_tmp : (s.quiet).tmp = s.tmp := rfl
@[simp] theorem State.quiet_firstFail : (s.quiet).firstFail = s.firstFail := rfl
@[simp] theorem State.quiet_cnt : (s.quiet).cnt = s.cnt := rfl
@[simp] theorem State.quiet_rspData : (s.quiet).rspData = s.rspData := rfl
@[simp] theorem State.quiet_rspStatus : (s.quiet).rspStatus = s.rspStatus := rfl
@[simp] theorem State.quiet_lReq : (s.quiet).lReq = .none := rfl
@[simp] theorem State.quiet_lTxByte : (s.quiet).lTxByte = s.lTxByte := rfl
@[simp] theorem State.quiet_rst : (s.quiet).rst = s.rst := rfl
@[simp] theorem State.quiet_commands : (s.quiet).commands = s.commands := rfl
@[simp] theorem State.quiet_pollLimit : (s.quiet).pollLimit = s.pollLimit := rfl
@[simp] theorem State.quiet_line : (s.quiet).line = .idle := rfl
@[simp] theorem State.quiet_mem : (s.quiet).mem = s.mem := rfl
@[simp] theorem State.quiet_slavePtr : (s.quiet).slavePtr = s.slavePtr := rfl
@[simp] theorem State.quiet_doneScript : (s.quiet).doneScript = s.doneScript := rfl
@[simp] theorem State.quiet_ackScript : (s.quiet).ackScript = s.ackScript := rfl
@[simp] theorem State.quiet_rxScript : (s.quiet).rxScript = s.rxScript := rfl
@[simp] theorem State.quiet_chipScript : (s.quiet).chipScript = s.chipScript := rfl
@[simp] theorem State.quiet_doneSeen : (s.quiet).doneSeen = s.doneSeen := rfl
@[simp] theorem State.quiet_ackSeen : (s.quiet).ackSeen = s.ackSeen := rfl
@[simp] theorem State.quiet_rxSeen : (s.quiet).rxSeen = s.rxSeen := rfl
@[simp] theorem State.quiet_chipSeen : (s.quiet).chipSeen = s.chipSeen := rfl
@[simp] theorem State.quiet_trace : (s.quiet).trace = s.trace := rfl
@[simp] theorem State.quiet_doneAnswer (n : Nat) : (s.quiet).doneAnswer n = s.doneAnswer n := rfl
@[simp] theorem State.quiet_ackAnswer (n : Nat) : (s.quiet).ackAnswer n = s.ackAnswer n := rfl
@[simp] theorem State.quiet_rxAnswer (n : Nat) : (s.quiet).rxAnswer n = s.rxAnswer n := rfl
@[simp] theorem State.quiet_chipAnswer (n : Nat) : (s.quiet).chipAnswer n = s.chipAnswer n := rfl

/-! ### slavePoint -/

@[simp] theorem State.slavePoint_est (r : Byte) : (s.slavePoint r).est = s.est := rfl
@[simp] theorem State.slavePoint_cst (r : Byte) : (s.slavePoint r).cst = s.cst := rfl
@[simp] theorem State.slavePoint_op (r : Byte) : (s.slavePoint r).op = s.op := rfl
@[simp] theorem State.slavePoint_dev (r : Byte) : (s.slavePoint r).dev = s.dev := rfl
@[simp] theorem State.slavePoint_reg (r : Byte) : (s.slavePoint r).reg = s.reg := rfl
@[simp] theorem State.slavePoint_wdata (r : Byte) : (s.slavePoint r).wdata = s.wdata := rfl
@[simp] theorem State.slavePoint_tDev (r : Byte) : (s.slavePoint r).tDev = s.tDev := rfl
@[simp] theorem State.slavePoint_tReg (r : Byte) : (s.slavePoint r).tReg = s.tReg := rfl
@[simp] theorem State.slavePoint_tWdata (r : Byte) : (s.slavePoint r).tWdata = s.tWdata := rfl
@[simp] theorem State.slavePoint_tDir (r : Byte) : (s.slavePoint r).tDir = s.tDir := rfl
@[simp] theorem State.slavePoint_rbyte (r : Byte) : (s.slavePoint r).rbyte = s.rbyte := rfl
@[simp] theorem State.slavePoint_tResult (r : Byte) : (s.slavePoint r).tResult = s.tResult := rfl
@[simp] theorem State.slavePoint_tStatus (r : Byte) : (s.slavePoint r).tStatus = s.tStatus := rfl
@[simp] theorem State.slavePoint_tmp (r : Byte) : (s.slavePoint r).tmp = s.tmp := rfl
@[simp] theorem State.slavePoint_firstFail (r : Byte) : (s.slavePoint r).firstFail = s.firstFail := rfl
@[simp] theorem State.slavePoint_cnt (r : Byte) : (s.slavePoint r).cnt = s.cnt := rfl
@[simp] theorem State.slavePoint_rspData (r : Byte) : (s.slavePoint r).rspData = s.rspData := rfl
@[simp] theorem State.slavePoint_rspStatus (r : Byte) : (s.slavePoint r).rspStatus = s.rspStatus := rfl
@[simp] theorem State.slavePoint_lReq (r : Byte) : (s.slavePoint r).lReq = s.lReq := rfl
@[simp] theorem State.slavePoint_lTxByte (r : Byte) : (s.slavePoint r).lTxByte = s.lTxByte := rfl
@[simp] theorem State.slavePoint_rst (r : Byte) : (s.slavePoint r).rst = s.rst := rfl
@[simp] theorem State.slavePoint_commands (r : Byte) : (s.slavePoint r).commands = s.commands := rfl
@[simp] theorem State.slavePoint_pollLimit (r : Byte) : (s.slavePoint r).pollLimit = s.pollLimit := rfl
@[simp] theorem State.slavePoint_line (r : Byte) : (s.slavePoint r).line = s.line := rfl
@[simp] theorem State.slavePoint_mem (r : Byte) : (s.slavePoint r).mem = s.mem := rfl
@[simp] theorem State.slavePoint_slavePtr (r : Byte) : (s.slavePoint r).slavePtr = r := rfl
@[simp] theorem State.slavePoint_doneScript (r : Byte) : (s.slavePoint r).doneScript = s.doneScript := rfl
@[simp] theorem State.slavePoint_ackScript (r : Byte) : (s.slavePoint r).ackScript = s.ackScript := rfl
@[simp] theorem State.slavePoint_rxScript (r : Byte) : (s.slavePoint r).rxScript = s.rxScript := rfl
@[simp] theorem State.slavePoint_chipScript (r : Byte) : (s.slavePoint r).chipScript = s.chipScript := rfl
@[simp] theorem State.slavePoint_doneSeen (r : Byte) : (s.slavePoint r).doneSeen = s.doneSeen := rfl
@[simp] theorem State.slavePoint_ackSeen (r : Byte) : (s.slavePoint r).ackSeen = s.ackSeen := rfl
@[simp] theorem State.slavePoint_rxSeen (r : Byte) : (s.slavePoint r).rxSeen = s.rxSeen := rfl
@[simp] theorem State.slavePoint_chipSeen (r : Byte) : (s.slavePoint r).chipSeen = s.chipSeen := rfl
@[simp] theorem State.slavePoint_trace (r : Byte) : (s.slavePoint r).trace = s.trace := rfl
@[simp] theorem State.slavePoint_doneAnswer (r : Byte) (n : Nat) : (s.slavePoint r).doneAnswer n = s.doneAnswer n := rfl
@[simp] theorem State.slavePoint_ackAnswer (r : Byte) (n : Nat) : (s.slavePoint r).ackAnswer n = s.ackAnswer n := rfl
@[simp] theorem State.slavePoint_rxAnswer (r : Byte) (n : Nat) : (s.slavePoint r).rxAnswer n = s.rxAnswer n := rfl
@[simp] theorem State.slavePoint_chipAnswer (r : Byte) (n : Nat) : (s.slavePoint r).chipAnswer n = s.chipAnswer n := rfl

/-! ### slaveStore -/

@[simp] theorem State.slaveStore_est (d : DevAddr) (r v : Byte) : (s.slaveStore d r v).est = s.est := rfl
@[simp] theorem State.slaveStore_cst (d : DevAddr) (r v : Byte) : (s.slaveStore d r v).cst = s.cst := rfl
@[simp] theorem State.slaveStore_op (d : DevAddr) (r v : Byte) : (s.slaveStore d r v).op = s.op := rfl
@[simp] theorem State.slaveStore_dev (d : DevAddr) (r v : Byte) : (s.slaveStore d r v).dev = s.dev := rfl
@[simp] theorem State.slaveStore_reg (d : DevAddr) (r v : Byte) : (s.slaveStore d r v).reg = s.reg := rfl
@[simp] theorem State.slaveStore_wdata (d : DevAddr) (r v : Byte) : (s.slaveStore d r v).wdata = s.wdata := rfl
@[simp] theorem State.slaveStore_tDev (d : DevAddr) (r v : Byte) : (s.slaveStore d r v).tDev = s.tDev := rfl
@[simp] theorem State.slaveStore_tReg (d : DevAddr) (r v : Byte) : (s.slaveStore d r v).tReg = s.tReg := rfl
@[simp] theorem State.slaveStore_tWdata (d : DevAddr) (r v : Byte) : (s.slaveStore d r v).tWdata = s.tWdata := rfl
@[simp] theorem State.slaveStore_tDir (d : DevAddr) (r v : Byte) : (s.slaveStore d r v).tDir = s.tDir := rfl
@[simp] theorem State.slaveStore_rbyte (d : DevAddr) (r v : Byte) : (s.slaveStore d r v).rbyte = s.rbyte := rfl
@[simp] theorem State.slaveStore_tResult (d : DevAddr) (r v : Byte) : (s.slaveStore d r v).tResult = s.tResult := rfl
@[simp] theorem State.slaveStore_tStatus (d : DevAddr) (r v : Byte) : (s.slaveStore d r v).tStatus = s.tStatus := rfl
@[simp] theorem State.slaveStore_tmp (d : DevAddr) (r v : Byte) : (s.slaveStore d r v).tmp = s.tmp := rfl
@[simp] theorem State.slaveStore_firstFail (d : DevAddr) (r v : Byte) : (s.slaveStore d r v).firstFail = s.firstFail := rfl
@[simp] theorem State.slaveStore_cnt (d : DevAddr) (r v : Byte) : (s.slaveStore d r v).cnt = s.cnt := rfl
@[simp] theorem State.slaveStore_rspData (d : DevAddr) (r v : Byte) : (s.slaveStore d r v).rspData = s.rspData := rfl
@[simp] theorem State.slaveStore_rspStatus (d : DevAddr) (r v : Byte) : (s.slaveStore d r v).rspStatus = s.rspStatus := rfl
@[simp] theorem State.slaveStore_lReq (d : DevAddr) (r v : Byte) : (s.slaveStore d r v).lReq = s.lReq := rfl
@[simp] theorem State.slaveStore_lTxByte (d : DevAddr) (r v : Byte) : (s.slaveStore d r v).lTxByte = s.lTxByte := rfl
@[simp] theorem State.slaveStore_rst (d : DevAddr) (r v : Byte) : (s.slaveStore d r v).rst = s.rst := rfl
@[simp] theorem State.slaveStore_commands (d : DevAddr) (r v : Byte) : (s.slaveStore d r v).commands = s.commands := rfl
@[simp] theorem State.slaveStore_pollLimit (d : DevAddr) (r v : Byte) : (s.slaveStore d r v).pollLimit = s.pollLimit := rfl
@[simp] theorem State.slaveStore_line (d : DevAddr) (r v : Byte) : (s.slaveStore d r v).line = s.line := rfl
@[simp] theorem State.slaveStore_mem (d : DevAddr) (r v : Byte) : (s.slaveStore d r v).mem = s.mem.write (location d r) v := rfl
@[simp] theorem State.slaveStore_slavePtr (d : DevAddr) (r v : Byte) : (s.slaveStore d r v).slavePtr = s.slavePtr := rfl
@[simp] theorem State.slaveStore_doneScript (d : DevAddr) (r v : Byte) : (s.slaveStore d r v).doneScript = s.doneScript := rfl
@[simp] theorem State.slaveStore_ackScript (d : DevAddr) (r v : Byte) : (s.slaveStore d r v).ackScript = s.ackScript := rfl
@[simp] theorem State.slaveStore_rxScript (d : DevAddr) (r v : Byte) : (s.slaveStore d r v).rxScript = s.rxScript := rfl
@[simp] theorem State.slaveStore_chipScript (d : DevAddr) (r v : Byte) : (s.slaveStore d r v).chipScript = s.chipScript := rfl
@[simp] theorem State.slaveStore_doneSeen (d : DevAddr) (r v : Byte) : (s.slaveStore d r v).doneSeen = s.doneSeen := rfl
@[simp] theorem State.slaveStore_ackSeen (d : DevAddr) (r v : Byte) : (s.slaveStore d r v).ackSeen = s.ackSeen := rfl
@[simp] theorem State.slaveStore_rxSeen (d : DevAddr) (r v : Byte) : (s.slaveStore d r v).rxSeen = s.rxSeen := rfl
@[simp] theorem State.slaveStore_chipSeen (d : DevAddr) (r v : Byte) : (s.slaveStore d r v).chipSeen = s.chipSeen := rfl
@[simp] theorem State.slaveStore_trace (d : DevAddr) (r v : Byte) : (s.slaveStore d r v).trace = s.trace := rfl
@[simp] theorem State.slaveStore_doneAnswer (d : DevAddr) (r v : Byte) (n : Nat) : (s.slaveStore d r v).doneAnswer n = s.doneAnswer n := rfl
@[simp] theorem State.slaveStore_ackAnswer (d : DevAddr) (r v : Byte) (n : Nat) : (s.slaveStore d r v).ackAnswer n = s.ackAnswer n := rfl
@[simp] theorem State.slaveStore_rxAnswer (d : DevAddr) (r v : Byte) (n : Nat) : (s.slaveStore d r v).rxAnswer n = s.rxAnswer n := rfl
@[simp] theorem State.slaveStore_chipAnswer (d : DevAddr) (r v : Byte) (n : Nat) : (s.slaveStore d r v).chipAnswer n = s.chipAnswer n := rfl

/-! ### failWith -/

@[simp] theorem State.failWith_est (st : TStatus) : (s.failWith st).est = s.est := rfl
@[simp] theorem State.failWith_cst (st : TStatus) : (s.failWith st).cst = s.cst := rfl
@[simp] theorem State.failWith_op (st : TStatus) : (s.failWith st).op = s.op := rfl
@[simp] theorem State.failWith_dev (st : TStatus) : (s.failWith st).dev = s.dev := rfl
@[simp] theorem State.failWith_reg (st : TStatus) : (s.failWith st).reg = s.reg := rfl
@[simp] theorem State.failWith_wdata (st : TStatus) : (s.failWith st).wdata = s.wdata := rfl
@[simp] theorem State.failWith_tDev (st : TStatus) : (s.failWith st).tDev = s.tDev := rfl
@[simp] theorem State.failWith_tReg (st : TStatus) : (s.failWith st).tReg = s.tReg := rfl
@[simp] theorem State.failWith_tWdata (st : TStatus) : (s.failWith st).tWdata = s.tWdata := rfl
@[simp] theorem State.failWith_tDir (st : TStatus) : (s.failWith st).tDir = s.tDir := rfl
@[simp] theorem State.failWith_rbyte (st : TStatus) : (s.failWith st).rbyte = s.rbyte := rfl
@[simp] theorem State.failWith_tResult (st : TStatus) : (s.failWith st).tResult = 0 := rfl
@[simp] theorem State.failWith_tStatus (st : TStatus) : (s.failWith st).tStatus = st := rfl
@[simp] theorem State.failWith_tmp (st : TStatus) : (s.failWith st).tmp = s.tmp := rfl
@[simp] theorem State.failWith_firstFail (st : TStatus) : (s.failWith st).firstFail = s.firstFail := rfl
@[simp] theorem State.failWith_cnt (st : TStatus) : (s.failWith st).cnt = s.cnt := rfl
@[simp] theorem State.failWith_rspData (st : TStatus) : (s.failWith st).rspData = s.rspData := rfl
@[simp] theorem State.failWith_rspStatus (st : TStatus) : (s.failWith st).rspStatus = s.rspStatus := rfl
@[simp] theorem State.failWith_lReq (st : TStatus) : (s.failWith st).lReq = s.lReq := rfl
@[simp] theorem State.failWith_lTxByte (st : TStatus) : (s.failWith st).lTxByte = s.lTxByte := rfl
@[simp] theorem State.failWith_rst (st : TStatus) : (s.failWith st).rst = s.rst := rfl
@[simp] theorem State.failWith_commands (st : TStatus) : (s.failWith st).commands = s.commands := rfl
@[simp] theorem State.failWith_pollLimit (st : TStatus) : (s.failWith st).pollLimit = s.pollLimit := rfl
@[simp] theorem State.failWith_line (st : TStatus) : (s.failWith st).line = s.line := rfl
@[simp] theorem State.failWith_mem (st : TStatus) : (s.failWith st).mem = s.mem := rfl
@[simp] theorem State.failWith_slavePtr (st : TStatus) : (s.failWith st).slavePtr = s.slavePtr := rfl
@[simp] theorem State.failWith_doneScript (st : TStatus) : (s.failWith st).doneScript = s.doneScript := rfl
@[simp] theorem State.failWith_ackScript (st : TStatus) : (s.failWith st).ackScript = s.ackScript := rfl
@[simp] theorem State.failWith_rxScript (st : TStatus) : (s.failWith st).rxScript = s.rxScript := rfl
@[simp] theorem State.failWith_chipScript (st : TStatus) : (s.failWith st).chipScript = s.chipScript := rfl
@[simp] theorem State.failWith_doneSeen (st : TStatus) : (s.failWith st).doneSeen = s.doneSeen := rfl
@[simp] theorem State.failWith_ackSeen (st : TStatus) : (s.failWith st).ackSeen = s.ackSeen := rfl
@[simp] theorem State.failWith_rxSeen (st : TStatus) : (s.failWith st).rxSeen = s.rxSeen := rfl
@[simp] theorem State.failWith_chipSeen (st : TStatus) : (s.failWith st).chipSeen = s.chipSeen := rfl
@[simp] theorem State.failWith_trace (st : TStatus) : (s.failWith st).trace = s.trace := rfl
@[simp] theorem State.failWith_doneAnswer (st : TStatus) (n : Nat) : (s.failWith st).doneAnswer n = s.doneAnswer n := rfl
@[simp] theorem State.failWith_ackAnswer (st : TStatus) (n : Nat) : (s.failWith st).ackAnswer n = s.ackAnswer n := rfl
@[simp] theorem State.failWith_rxAnswer (st : TStatus) (n : Nat) : (s.failWith st).rxAnswer n = s.rxAnswer n := rfl
@[simp] theorem State.failWith_chipAnswer (st : TStatus) (n : Nat) : (s.failWith st).chipAnswer n = s.chipAnswer n := rfl

/-! ### noteStatus -/

@[simp] theorem State.noteStatus_est : (s.noteStatus).est = s.est := rfl
@[simp] theorem State.noteStatus_cst : (s.noteStatus).cst = s.cst := rfl
@[simp] theorem State.noteStatus_op : (s.noteStatus).op = s.op := rfl
@[simp] theorem State.noteStatus_dev : (s.noteStatus).dev = s.dev := rfl
@[simp] theorem State.noteStatus_reg : (s.noteStatus).reg = s.reg := rfl
@[simp] theorem State.noteStatus_wdata : (s.noteStatus).wdata = s.wdata := rfl
@[simp] theorem State.noteStatus_tDev : (s.noteStatus).tDev = s.tDev := rfl
@[simp] theorem State.noteStatus_tReg : (s.noteStatus).tReg = s.tReg := rfl
@[simp] theorem State.noteStatus_tWdata : (s.noteStatus).tWdata = s.tWdata := rfl
@[simp] theorem State.noteStatus_tDir : (s.noteStatus).tDir = s.tDir := rfl
@[simp] theorem State.noteStatus_rbyte : (s.noteStatus).rbyte = s.rbyte := rfl
@[simp] theorem State.noteStatus_tResult : (s.noteStatus).tResult = s.tResult := rfl
@[simp] theorem State.noteStatus_tStatus : (s.noteStatus).tStatus = s.tStatus := rfl
@[simp] theorem State.noteStatus_tmp : (s.noteStatus).tmp = s.tmp := rfl
@[simp] theorem State.noteStatus_firstFail : (s.noteStatus).firstFail = firstOf s.firstFail s.tStatus := rfl
@[simp] theorem State.noteStatus_cnt : (s.noteStatus).cnt = s.cnt := rfl
@[simp] theorem State.noteStatus_rspData : (s.noteStatus).rspData = s.rspData := rfl
@[simp] theorem State.noteStatus_rspStatus : (s.noteStatus).rspStatus = s.rspStatus := rfl
@[simp] theorem State.noteStatus_lReq : (s.noteStatus).lReq = s.lReq := rfl
@[simp] theorem State.noteStatus_lTxByte : (s.noteStatus).lTxByte = s.lTxByte := rfl
@[simp] theorem State.noteStatus_rst : (s.noteStatus).rst = s.rst := rfl
@[simp] theorem State.noteStatus_commands : (s.noteStatus).commands = s.commands := rfl
@[simp] theorem State.noteStatus_pollLimit : (s.noteStatus).pollLimit = s.pollLimit := rfl
@[simp] theorem State.noteStatus_line : (s.noteStatus).line = s.line := rfl
@[simp] theorem State.noteStatus_mem : (s.noteStatus).mem = s.mem := rfl
@[simp] theorem State.noteStatus_slavePtr : (s.noteStatus).slavePtr = s.slavePtr := rfl
@[simp] theorem State.noteStatus_doneScript : (s.noteStatus).doneScript = s.doneScript := rfl
@[simp] theorem State.noteStatus_ackScript : (s.noteStatus).ackScript = s.ackScript := rfl
@[simp] theorem State.noteStatus_rxScript : (s.noteStatus).rxScript = s.rxScript := rfl
@[simp] theorem State.noteStatus_chipScript : (s.noteStatus).chipScript = s.chipScript := rfl
@[simp] theorem State.noteStatus_doneSeen : (s.noteStatus).doneSeen = s.doneSeen := rfl
@[simp] theorem State.noteStatus_ackSeen : (s.noteStatus).ackSeen = s.ackSeen := rfl
@[simp] theorem State.noteStatus_rxSeen : (s.noteStatus).rxSeen = s.rxSeen := rfl
@[simp] theorem State.noteStatus_chipSeen : (s.noteStatus).chipSeen = s.chipSeen := rfl
@[simp] theorem State.noteStatus_trace : (s.noteStatus).trace = s.trace := rfl
@[simp] theorem State.noteStatus_doneAnswer (n : Nat) : (s.noteStatus).doneAnswer n = s.doneAnswer n := rfl
@[simp] theorem State.noteStatus_ackAnswer (n : Nat) : (s.noteStatus).ackAnswer n = s.ackAnswer n := rfl
@[simp] theorem State.noteStatus_rxAnswer (n : Nat) : (s.noteStatus).rxAnswer n = s.rxAnswer n := rfl
@[simp] theorem State.noteStatus_chipAnswer (n : Nat) : (s.noteStatus).chipAnswer n = s.chipAnswer n := rfl

/-! ### clearStatus -/

@[simp] theorem State.clearStatus_est : (s.clearStatus).est = s.est := rfl
@[simp] theorem State.clearStatus_cst : (s.clearStatus).cst = s.cst := rfl
@[simp] theorem State.clearStatus_op : (s.clearStatus).op = s.op := rfl
@[simp] theorem State.clearStatus_dev : (s.clearStatus).dev = s.dev := rfl
@[simp] theorem State.clearStatus_reg : (s.clearStatus).reg = s.reg := rfl
@[simp] theorem State.clearStatus_wdata : (s.clearStatus).wdata = s.wdata := rfl
@[simp] theorem State.clearStatus_tDev : (s.clearStatus).tDev = s.tDev := rfl
@[simp] theorem State.clearStatus_tReg : (s.clearStatus).tReg = s.tReg := rfl
@[simp] theorem State.clearStatus_tWdata : (s.clearStatus).tWdata = s.tWdata := rfl
@[simp] theorem State.clearStatus_tDir : (s.clearStatus).tDir = s.tDir := rfl
@[simp] theorem State.clearStatus_rbyte : (s.clearStatus).rbyte = s.rbyte := rfl
@[simp] theorem State.clearStatus_tResult : (s.clearStatus).tResult = s.tResult := rfl
@[simp] theorem State.clearStatus_tStatus : (s.clearStatus).tStatus = s.tStatus := rfl
@[simp] theorem State.clearStatus_tmp : (s.clearStatus).tmp = s.tmp := rfl
@[simp] theorem State.clearStatus_firstFail : (s.clearStatus).firstFail = .ok := rfl
@[simp] theorem State.clearStatus_cnt : (s.clearStatus).cnt = s.cnt := rfl
@[simp] theorem State.clearStatus_rspData : (s.clearStatus).rspData = s.rspData := rfl
@[simp] theorem State.clearStatus_rspStatus : (s.clearStatus).rspStatus = s.rspStatus := rfl
@[simp] theorem State.clearStatus_lReq : (s.clearStatus).lReq = s.lReq := rfl
@[simp] theorem State.clearStatus_lTxByte : (s.clearStatus).lTxByte = s.lTxByte := rfl
@[simp] theorem State.clearStatus_rst : (s.clearStatus).rst = s.rst := rfl
@[simp] theorem State.clearStatus_commands : (s.clearStatus).commands = s.commands := rfl
@[simp] theorem State.clearStatus_pollLimit : (s.clearStatus).pollLimit = s.pollLimit := rfl
@[simp] theorem State.clearStatus_line : (s.clearStatus).line = s.line := rfl
@[simp] theorem State.clearStatus_mem : (s.clearStatus).mem = s.mem := rfl
@[simp] theorem State.clearStatus_slavePtr : (s.clearStatus).slavePtr = s.slavePtr := rfl
@[simp] theorem State.clearStatus_doneScript : (s.clearStatus).doneScript = s.doneScript := rfl
@[simp] theorem State.clearStatus_ackScript : (s.clearStatus).ackScript = s.ackScript := rfl
@[simp] theorem State.clearStatus_rxScript : (s.clearStatus).rxScript = s.rxScript := rfl
@[simp] theorem State.clearStatus_chipScript : (s.clearStatus).chipScript = s.chipScript := rfl
@[simp] theorem State.clearStatus_doneSeen : (s.clearStatus).doneSeen = s.doneSeen := rfl
@[simp] theorem State.clearStatus_ackSeen : (s.clearStatus).ackSeen = s.ackSeen := rfl
@[simp] theorem State.clearStatus_rxSeen : (s.clearStatus).rxSeen = s.rxSeen := rfl
@[simp] theorem State.clearStatus_chipSeen : (s.clearStatus).chipSeen = s.chipSeen := rfl
@[simp] theorem State.clearStatus_trace : (s.clearStatus).trace = s.trace := rfl
@[simp] theorem State.clearStatus_doneAnswer (n : Nat) : (s.clearStatus).doneAnswer n = s.doneAnswer n := rfl
@[simp] theorem State.clearStatus_ackAnswer (n : Nat) : (s.clearStatus).ackAnswer n = s.ackAnswer n := rfl
@[simp] theorem State.clearStatus_rxAnswer (n : Nat) : (s.clearStatus).rxAnswer n = s.rxAnswer n := rfl
@[simp] theorem State.clearStatus_chipAnswer (n : Nat) : (s.clearStatus).chipAnswer n = s.chipAnswer n := rfl

/-! ### respond -/

@[simp] theorem State.respond_est (b : Byte) : (s.respond b).est = s.est := rfl
@[simp] theorem State.respond_cst (b : Byte) : (s.respond b).cst = .resp := rfl
@[simp] theorem State.respond_op (b : Byte) : (s.respond b).op = s.op := rfl
@[simp] theorem State.respond_dev (b : Byte) : (s.respond b).dev = s.dev := rfl
@[simp] theorem State.respond_reg (b : Byte) : (s.respond b).reg = s.reg := rfl
@[simp] theorem State.respond_wdata (b : Byte) : (s.respond b).wdata = s.wdata := rfl
@[simp] theorem State.respond_tDev (b : Byte) : (s.respond b).tDev = s.tDev := rfl
@[simp] theorem State.respond_tReg (b : Byte) : (s.respond b).tReg = s.tReg := rfl
@[simp] theorem State.respond_tWdata (b : Byte) : (s.respond b).tWdata = s.tWdata := rfl
@[simp] theorem State.respond_tDir (b : Byte) : (s.respond b).tDir = s.tDir := rfl
@[simp] theorem State.respond_rbyte (b : Byte) : (s.respond b).rbyte = s.rbyte := rfl
@[simp] theorem State.respond_tResult (b : Byte) : (s.respond b).tResult = s.tResult := rfl
@[simp] theorem State.respond_tStatus (b : Byte) : (s.respond b).tStatus = s.tStatus := rfl
@[simp] theorem State.respond_tmp (b : Byte) : (s.respond b).tmp = s.tmp := rfl
@[simp] theorem State.respond_firstFail (b : Byte) : (s.respond b).firstFail = s.firstFail := rfl
@[simp] theorem State.respond_cnt (b : Byte) : (s.respond b).cnt = s.cnt := rfl
@[simp] theorem State.respond_rspData (b : Byte) : (s.respond b).rspData = b := rfl
@[simp] theorem State.respond_rspStatus (b : Byte) : (s.respond b).rspStatus = s.firstFail.status.code := rfl
@[simp] theorem State.respond_lReq (b : Byte) : (s.respond b).lReq = s.lReq := rfl
@[simp] theorem State.respond_lTxByte (b : Byte) : (s.respond b).lTxByte = s.lTxByte := rfl
@[simp] theorem State.respond_rst (b : Byte) : (s.respond b).rst = s.rst := rfl
@[simp] theorem State.respond_commands (b : Byte) : (s.respond b).commands = s.commands := rfl
@[simp] theorem State.respond_pollLimit (b : Byte) : (s.respond b).pollLimit = s.pollLimit := rfl
@[simp] theorem State.respond_line (b : Byte) : (s.respond b).line = s.line := rfl
@[simp] theorem State.respond_mem (b : Byte) : (s.respond b).mem = s.mem := rfl
@[simp] theorem State.respond_slavePtr (b : Byte) : (s.respond b).slavePtr = s.slavePtr := rfl
@[simp] theorem State.respond_doneScript (b : Byte) : (s.respond b).doneScript = s.doneScript := rfl
@[simp] theorem State.respond_ackScript (b : Byte) : (s.respond b).ackScript = s.ackScript := rfl
@[simp] theorem State.respond_rxScript (b : Byte) : (s.respond b).rxScript = s.rxScript := rfl
@[simp] theorem State.respond_chipScript (b : Byte) : (s.respond b).chipScript = s.chipScript := rfl
@[simp] theorem State.respond_doneSeen (b : Byte) : (s.respond b).doneSeen = s.doneSeen := rfl
@[simp] theorem State.respond_ackSeen (b : Byte) : (s.respond b).ackSeen = s.ackSeen := rfl
@[simp] theorem State.respond_rxSeen (b : Byte) : (s.respond b).rxSeen = s.rxSeen := rfl
@[simp] theorem State.respond_chipSeen (b : Byte) : (s.respond b).chipSeen = s.chipSeen := rfl
@[simp] theorem State.respond_trace (b : Byte) : (s.respond b).trace = s.trace := rfl
@[simp] theorem State.respond_doneAnswer (b : Byte) (n : Nat) : (s.respond b).doneAnswer n = s.doneAnswer n := rfl
@[simp] theorem State.respond_ackAnswer (b : Byte) (n : Nat) : (s.respond b).ackAnswer n = s.ackAnswer n := rfl
@[simp] theorem State.respond_rxAnswer (b : Byte) (n : Nat) : (s.respond b).rxAnswer n = s.rxAnswer n := rfl
@[simp] theorem State.respond_chipAnswer (b : Byte) (n : Nat) : (s.respond b).chipAnswer n = s.chipAnswer n := rfl

/-! ### reject -/

@[simp] theorem State.reject_est (st : Status) : (s.reject st).est = s.est := rfl
@[simp] theorem State.reject_cst (st : Status) : (s.reject st).cst = .resp := rfl
@[simp] theorem State.reject_op (st : Status) : (s.reject st).op = s.op := rfl
@[simp] theorem State.reject_dev (st : Status) : (s.reject st).dev = s.dev := rfl
@[simp] theorem State.reject_reg (st : Status) : (s.reject st).reg = s.reg := rfl
@[simp] theorem State.reject_wdata (st : Status) : (s.reject st).wdata = s.wdata := rfl
@[simp] theorem State.reject_tDev (st : Status) : (s.reject st).tDev = s.tDev := rfl
@[simp] theorem State.reject_tReg (st : Status) : (s.reject st).tReg = s.tReg := rfl
@[simp] theorem State.reject_tWdata (st : Status) : (s.reject st).tWdata = s.tWdata := rfl
@[simp] theorem State.reject_tDir (st : Status) : (s.reject st).tDir = s.tDir := rfl
@[simp] theorem State.reject_rbyte (st : Status) : (s.reject st).rbyte = s.rbyte := rfl
@[simp] theorem State.reject_tResult (st : Status) : (s.reject st).tResult = s.tResult := rfl
@[simp] theorem State.reject_tStatus (st : Status) : (s.reject st).tStatus = s.tStatus := rfl
@[simp] theorem State.reject_tmp (st : Status) : (s.reject st).tmp = s.tmp := rfl
@[simp] theorem State.reject_firstFail (st : Status) : (s.reject st).firstFail = s.firstFail := rfl
@[simp] theorem State.reject_cnt (st : Status) : (s.reject st).cnt = s.cnt := rfl
@[simp] theorem State.reject_rspData (st : Status) : (s.reject st).rspData = 0 := rfl
@[simp] theorem State.reject_rspStatus (st : Status) : (s.reject st).rspStatus = st.code := rfl
@[simp] theorem State.reject_lReq (st : Status) : (s.reject st).lReq = s.lReq := rfl
@[simp] theorem State.reject_lTxByte (st : Status) : (s.reject st).lTxByte = s.lTxByte := rfl
@[simp] theorem State.reject_rst (st : Status) : (s.reject st).rst = s.rst := rfl
@[simp] theorem State.reject_commands (st : Status) : (s.reject st).commands = s.commands := rfl
@[simp] theorem State.reject_pollLimit (st : Status) : (s.reject st).pollLimit = s.pollLimit := rfl
@[simp] theorem State.reject_line (st : Status) : (s.reject st).line = s.line := rfl
@[simp] theorem State.reject_mem (st : Status) : (s.reject st).mem = s.mem := rfl
@[simp] theorem State.reject_slavePtr (st : Status) : (s.reject st).slavePtr = s.slavePtr := rfl
@[simp] theorem State.reject_doneScript (st : Status) : (s.reject st).doneScript = s.doneScript := rfl
@[simp] theorem State.reject_ackScript (st : Status) : (s.reject st).ackScript = s.ackScript := rfl
@[simp] theorem State.reject_rxScript (st : Status) : (s.reject st).rxScript = s.rxScript := rfl
@[simp] theorem State.reject_chipScript (st : Status) : (s.reject st).chipScript = s.chipScript := rfl
@[simp] theorem State.reject_doneSeen (st : Status) : (s.reject st).doneSeen = s.doneSeen := rfl
@[simp] theorem State.reject_ackSeen (st : Status) : (s.reject st).ackSeen = s.ackSeen := rfl
@[simp] theorem State.reject_rxSeen (st : Status) : (s.reject st).rxSeen = s.rxSeen := rfl
@[simp] theorem State.reject_chipSeen (st : Status) : (s.reject st).chipSeen = s.chipSeen := rfl
@[simp] theorem State.reject_trace (st : Status) : (s.reject st).trace = s.trace := rfl
@[simp] theorem State.reject_doneAnswer (st : Status) (n : Nat) : (s.reject st).doneAnswer n = s.doneAnswer n := rfl
@[simp] theorem State.reject_ackAnswer (st : Status) (n : Nat) : (s.reject st).ackAnswer n = s.ackAnswer n := rfl
@[simp] theorem State.reject_rxAnswer (st : Status) (n : Nat) : (s.reject st).rxAnswer n = s.rxAnswer n := rfl
@[simp] theorem State.reject_chipAnswer (st : Status) (n : Nat) : (s.reject st).chipAnswer n = s.chipAnswer n := rfl

/-! ### latchWord -/

@[simp] theorem State.latchWord_est (w : CmdWord) : (s.latchWord w).est = s.est := rfl
@[simp] theorem State.latchWord_cst (w : CmdWord) : (s.latchWord w).cst = s.cst := rfl
@[simp] theorem State.latchWord_op (w : CmdWord) : (s.latchWord w).op = opField w := rfl
@[simp] theorem State.latchWord_dev (w : CmdWord) : (s.latchWord w).dev = devField w := rfl
@[simp] theorem State.latchWord_reg (w : CmdWord) : (s.latchWord w).reg = regField w := rfl
@[simp] theorem State.latchWord_wdata (w : CmdWord) : (s.latchWord w).wdata = dataField w := rfl
@[simp] theorem State.latchWord_tDev (w : CmdWord) : (s.latchWord w).tDev = s.tDev := rfl
@[simp] theorem State.latchWord_tReg (w : CmdWord) : (s.latchWord w).tReg = s.tReg := rfl
@[simp] theorem State.latchWord_tWdata (w : CmdWord) : (s.latchWord w).tWdata = s.tWdata := rfl
@[simp] theorem State.latchWord_tDir (w : CmdWord) : (s.latchWord w).tDir = s.tDir := rfl
@[simp] theorem State.latchWord_rbyte (w : CmdWord) : (s.latchWord w).rbyte = s.rbyte := rfl
@[simp] theorem State.latchWord_tResult (w : CmdWord) : (s.latchWord w).tResult = s.tResult := rfl
@[simp] theorem State.latchWord_tStatus (w : CmdWord) : (s.latchWord w).tStatus = s.tStatus := rfl
@[simp] theorem State.latchWord_tmp (w : CmdWord) : (s.latchWord w).tmp = s.tmp := rfl
@[simp] theorem State.latchWord_firstFail (w : CmdWord) : (s.latchWord w).firstFail = s.firstFail := rfl
@[simp] theorem State.latchWord_cnt (w : CmdWord) : (s.latchWord w).cnt = s.cnt := rfl
@[simp] theorem State.latchWord_rspData (w : CmdWord) : (s.latchWord w).rspData = s.rspData := rfl
@[simp] theorem State.latchWord_rspStatus (w : CmdWord) : (s.latchWord w).rspStatus = s.rspStatus := rfl
@[simp] theorem State.latchWord_lReq (w : CmdWord) : (s.latchWord w).lReq = s.lReq := rfl
@[simp] theorem State.latchWord_lTxByte (w : CmdWord) : (s.latchWord w).lTxByte = s.lTxByte := rfl
@[simp] theorem State.latchWord_rst (w : CmdWord) : (s.latchWord w).rst = s.rst := rfl
@[simp] theorem State.latchWord_commands (w : CmdWord) : (s.latchWord w).commands = s.commands := rfl
@[simp] theorem State.latchWord_pollLimit (w : CmdWord) : (s.latchWord w).pollLimit = s.pollLimit := rfl
@[simp] theorem State.latchWord_line (w : CmdWord) : (s.latchWord w).line = s.line := rfl
@[simp] theorem State.latchWord_mem (w : CmdWord) : (s.latchWord w).mem = s.mem := rfl
@[simp] theorem State.latchWord_slavePtr (w : CmdWord) : (s.latchWord w).slavePtr = s.slavePtr := rfl
@[simp] theorem State.latchWord_doneScript (w : CmdWord) : (s.latchWord w).doneScript = s.doneScript := rfl
@[simp] theorem State.latchWord_ackScript (w : CmdWord) : (s.latchWord w).ackScript = s.ackScript := rfl
@[simp] theorem State.latchWord_rxScript (w : CmdWord) : (s.latchWord w).rxScript = s.rxScript := rfl
@[simp] theorem State.latchWord_chipScript (w : CmdWord) : (s.latchWord w).chipScript = s.chipScript := rfl
@[simp] theorem State.latchWord_doneSeen (w : CmdWord) : (s.latchWord w).doneSeen = s.doneSeen := rfl
@[simp] theorem State.latchWord_ackSeen (w : CmdWord) : (s.latchWord w).ackSeen = s.ackSeen := rfl
@[simp] theorem State.latchWord_rxSeen (w : CmdWord) : (s.latchWord w).rxSeen = s.rxSeen := rfl
@[simp] theorem State.latchWord_chipSeen (w : CmdWord) : (s.latchWord w).chipSeen = s.chipSeen := rfl
@[simp] theorem State.latchWord_trace (w : CmdWord) : (s.latchWord w).trace = s.trace := rfl
@[simp] theorem State.latchWord_doneAnswer (w : CmdWord) (n : Nat) : (s.latchWord w).doneAnswer n = s.doneAnswer n := rfl
@[simp] theorem State.latchWord_ackAnswer (w : CmdWord) (n : Nat) : (s.latchWord w).ackAnswer n = s.ackAnswer n := rfl
@[simp] theorem State.latchWord_rxAnswer (w : CmdWord) (n : Nat) : (s.latchWord w).rxAnswer n = s.rxAnswer n := rfl
@[simp] theorem State.latchWord_chipAnswer (w : CmdWord) (n : Nat) : (s.latchWord w).chipAnswer n = s.chipAnswer n := rfl

/-! ### loadWrite -/

@[simp] theorem State.loadWrite_est (d : DevAddr) (r v : Byte) : (s.loadWrite d r v).est = s.est := rfl
@[simp] theorem State.loadWrite_cst (d : DevAddr) (r v : Byte) : (s.loadWrite d r v).cst = s.cst := rfl
@[simp] theorem State.loadWrite_op (d : DevAddr) (r v : Byte) : (s.loadWrite d r v).op = s.op := rfl
@[simp] theorem State.loadWrite_dev (d : DevAddr) (r v : Byte) : (s.loadWrite d r v).dev = s.dev := rfl
@[simp] theorem State.loadWrite_reg (d : DevAddr) (r v : Byte) : (s.loadWrite d r v).reg = s.reg := rfl
@[simp] theorem State.loadWrite_wdata (d : DevAddr) (r v : Byte) : (s.loadWrite d r v).wdata = s.wdata := rfl
@[simp] theorem State.loadWrite_tDev (d : DevAddr) (r v : Byte) : (s.loadWrite d r v).tDev = d := rfl
@[simp] theorem State.loadWrite_tReg (d : DevAddr) (r v : Byte) : (s.loadWrite d r v).tReg = r := rfl
@[simp] theorem State.loadWrite_tWdata (d : DevAddr) (r v : Byte) : (s.loadWrite d r v).tWdata = v := rfl
@[simp] theorem State.loadWrite_tDir (d : DevAddr) (r v : Byte) : (s.loadWrite d r v).tDir = .write := rfl
@[simp] theorem State.loadWrite_rbyte (d : DevAddr) (r v : Byte) : (s.loadWrite d r v).rbyte = s.rbyte := rfl
@[simp] theorem State.loadWrite_tResult (d : DevAddr) (r v : Byte) : (s.loadWrite d r v).tResult = 0 := rfl
@[simp] theorem State.loadWrite_tStatus (d : DevAddr) (r v : Byte) : (s.loadWrite d r v).tStatus = .ok := rfl
@[simp] theorem State.loadWrite_tmp (d : DevAddr) (r v : Byte) : (s.loadWrite d r v).tmp = s.tmp := rfl
@[simp] theorem State.loadWrite_firstFail (d : DevAddr) (r v : Byte) : (s.loadWrite d r v).firstFail = s.firstFail := rfl
@[simp] theorem State.loadWrite_cnt (d : DevAddr) (r v : Byte) : (s.loadWrite d r v).cnt = s.cnt := rfl
@[simp] theorem State.loadWrite_rspData (d : DevAddr) (r v : Byte) : (s.loadWrite d r v).rspData = s.rspData := rfl
@[simp] theorem State.loadWrite_rspStatus (d : DevAddr) (r v : Byte) : (s.loadWrite d r v).rspStatus = s.rspStatus := rfl
@[simp] theorem State.loadWrite_lReq (d : DevAddr) (r v : Byte) : (s.loadWrite d r v).lReq = s.lReq := rfl
@[simp] theorem State.loadWrite_lTxByte (d : DevAddr) (r v : Byte) : (s.loadWrite d r v).lTxByte = s.lTxByte := rfl
@[simp] theorem State.loadWrite_rst (d : DevAddr) (r v : Byte) : (s.loadWrite d r v).rst = s.rst := rfl
@[simp] theorem State.loadWrite_commands (d : DevAddr) (r v : Byte) : (s.loadWrite d r v).commands = s.commands := rfl
@[simp] theorem State.loadWrite_pollLimit (d : DevAddr) (r v : Byte) : (s.loadWrite d r v).pollLimit = s.pollLimit := rfl
@[simp] theorem State.loadWrite_line (d : DevAddr) (r v : Byte) : (s.loadWrite d r v).line = s.line := rfl
@[simp] theorem State.loadWrite_mem (d : DevAddr) (r v : Byte) : (s.loadWrite d r v).mem = s.nextMem := rfl
@[simp] theorem State.loadWrite_slavePtr (d : DevAddr) (r v : Byte) : (s.loadWrite d r v).slavePtr = s.slavePtr := rfl
@[simp] theorem State.loadWrite_doneScript (d : DevAddr) (r v : Byte) : (s.loadWrite d r v).doneScript = s.doneScript := rfl
@[simp] theorem State.loadWrite_ackScript (d : DevAddr) (r v : Byte) : (s.loadWrite d r v).ackScript = s.ackScript := rfl
@[simp] theorem State.loadWrite_rxScript (d : DevAddr) (r v : Byte) : (s.loadWrite d r v).rxScript = s.rxScript := rfl
@[simp] theorem State.loadWrite_chipScript (d : DevAddr) (r v : Byte) : (s.loadWrite d r v).chipScript = s.chipScript := rfl
@[simp] theorem State.loadWrite_doneSeen (d : DevAddr) (r v : Byte) : (s.loadWrite d r v).doneSeen = s.doneSeen := rfl
@[simp] theorem State.loadWrite_ackSeen (d : DevAddr) (r v : Byte) : (s.loadWrite d r v).ackSeen = s.ackSeen := rfl
@[simp] theorem State.loadWrite_rxSeen (d : DevAddr) (r v : Byte) : (s.loadWrite d r v).rxSeen = s.rxSeen := rfl
@[simp] theorem State.loadWrite_chipSeen (d : DevAddr) (r v : Byte) : (s.loadWrite d r v).chipSeen = s.chipSeen + 1 := rfl
@[simp] theorem State.loadWrite_trace (d : DevAddr) (r v : Byte) : (s.loadWrite d r v).trace = s.trace := rfl
@[simp] theorem State.loadWrite_doneAnswer (d : DevAddr) (r v : Byte) (n : Nat) : (s.loadWrite d r v).doneAnswer n = s.doneAnswer n := rfl
@[simp] theorem State.loadWrite_ackAnswer (d : DevAddr) (r v : Byte) (n : Nat) : (s.loadWrite d r v).ackAnswer n = s.ackAnswer n := rfl
@[simp] theorem State.loadWrite_rxAnswer (d : DevAddr) (r v : Byte) (n : Nat) : (s.loadWrite d r v).rxAnswer n = s.rxAnswer n := rfl
@[simp] theorem State.loadWrite_chipAnswer (d : DevAddr) (r v : Byte) (n : Nat) : (s.loadWrite d r v).chipAnswer n = s.chipAnswer n := rfl

/-! ### loadRead -/

@[simp] theorem State.loadRead_est (d : DevAddr) (r : Byte) : (s.loadRead d r).est = s.est := rfl
@[simp] theorem State.loadRead_cst (d : DevAddr) (r : Byte) : (s.loadRead d r).cst = s.cst := rfl
@[simp] theorem State.loadRead_op (d : DevAddr) (r : Byte) : (s.loadRead d r).op = s.op := rfl
@[simp] theorem State.loadRead_dev (d : DevAddr) (r : Byte) : (s.loadRead d r).dev = s.dev := rfl
@[simp] theorem State.loadRead_reg (d : DevAddr) (r : Byte) : (s.loadRead d r).reg = s.reg := rfl
@[simp] theorem State.loadRead_wdata (d : DevAddr) (r : Byte) : (s.loadRead d r).wdata = s.wdata := rfl
@[simp] theorem State.loadRead_tDev (d : DevAddr) (r : Byte) : (s.loadRead d r).tDev = d := rfl
@[simp] theorem State.loadRead_tReg (d : DevAddr) (r : Byte) : (s.loadRead d r).tReg = r := rfl
@[simp] theorem State.loadRead_tWdata (d : DevAddr) (r : Byte) : (s.loadRead d r).tWdata = s.tWdata := rfl
@[simp] theorem State.loadRead_tDir (d : DevAddr) (r : Byte) : (s.loadRead d r).tDir = .read := rfl
@[simp] theorem State.loadRead_rbyte (d : DevAddr) (r : Byte) : (s.loadRead d r).rbyte = s.rbyte := rfl
@[simp] theorem State.loadRead_tResult (d : DevAddr) (r : Byte) : (s.loadRead d r).tResult = 0 := rfl
@[simp] theorem State.loadRead_tStatus (d : DevAddr) (r : Byte) : (s.loadRead d r).tStatus = .ok := rfl
@[simp] theorem State.loadRead_tmp (d : DevAddr) (r : Byte) : (s.loadRead d r).tmp = s.tmp := rfl
@[simp] theorem State.loadRead_firstFail (d : DevAddr) (r : Byte) : (s.loadRead d r).firstFail = s.firstFail := rfl
@[simp] theorem State.loadRead_cnt (d : DevAddr) (r : Byte) : (s.loadRead d r).cnt = s.cnt := rfl
@[simp] theorem State.loadRead_rspData (d : DevAddr) (r : Byte) : (s.loadRead d r).rspData = s.rspData := rfl
@[simp] theorem State.loadRead_rspStatus (d : DevAddr) (r : Byte) : (s.loadRead d r).rspStatus = s.rspStatus := rfl
@[simp] theorem State.loadRead_lReq (d : DevAddr) (r : Byte) : (s.loadRead d r).lReq = s.lReq := rfl
@[simp] theorem State.loadRead_lTxByte (d : DevAddr) (r : Byte) : (s.loadRead d r).lTxByte = s.lTxByte := rfl
@[simp] theorem State.loadRead_rst (d : DevAddr) (r : Byte) : (s.loadRead d r).rst = s.rst := rfl
@[simp] theorem State.loadRead_commands (d : DevAddr) (r : Byte) : (s.loadRead d r).commands = s.commands := rfl
@[simp] theorem State.loadRead_pollLimit (d : DevAddr) (r : Byte) : (s.loadRead d r).pollLimit = s.pollLimit := rfl
@[simp] theorem State.loadRead_line (d : DevAddr) (r : Byte) : (s.loadRead d r).line = s.line := rfl
@[simp] theorem State.loadRead_mem (d : DevAddr) (r : Byte) : (s.loadRead d r).mem = s.nextMem := rfl
@[simp] theorem State.loadRead_slavePtr (d : DevAddr) (r : Byte) : (s.loadRead d r).slavePtr = s.slavePtr := rfl
@[simp] theorem State.loadRead_doneScript (d : DevAddr) (r : Byte) : (s.loadRead d r).doneScript = s.doneScript := rfl
@[simp] theorem State.loadRead_ackScript (d : DevAddr) (r : Byte) : (s.loadRead d r).ackScript = s.ackScript := rfl
@[simp] theorem State.loadRead_rxScript (d : DevAddr) (r : Byte) : (s.loadRead d r).rxScript = s.rxScript := rfl
@[simp] theorem State.loadRead_chipScript (d : DevAddr) (r : Byte) : (s.loadRead d r).chipScript = s.chipScript := rfl
@[simp] theorem State.loadRead_doneSeen (d : DevAddr) (r : Byte) : (s.loadRead d r).doneSeen = s.doneSeen := rfl
@[simp] theorem State.loadRead_ackSeen (d : DevAddr) (r : Byte) : (s.loadRead d r).ackSeen = s.ackSeen := rfl
@[simp] theorem State.loadRead_rxSeen (d : DevAddr) (r : Byte) : (s.loadRead d r).rxSeen = s.rxSeen := rfl
@[simp] theorem State.loadRead_chipSeen (d : DevAddr) (r : Byte) : (s.loadRead d r).chipSeen = s.chipSeen + 1 := rfl
@[simp] theorem State.loadRead_trace (d : DevAddr) (r : Byte) : (s.loadRead d r).trace = s.trace := rfl
@[simp] theorem State.loadRead_doneAnswer (d : DevAddr) (r : Byte) (n : Nat) : (s.loadRead d r).doneAnswer n = s.doneAnswer n := rfl
@[simp] theorem State.loadRead_ackAnswer (d : DevAddr) (r : Byte) (n : Nat) : (s.loadRead d r).ackAnswer n = s.ackAnswer n := rfl
@[simp] theorem State.loadRead_rxAnswer (d : DevAddr) (r : Byte) (n : Nat) : (s.loadRead d r).rxAnswer n = s.rxAnswer n := rfl
@[simp] theorem State.loadRead_chipAnswer (d : DevAddr) (r : Byte) (n : Nat) : (s.loadRead d r).chipAnswer n = s.chipAnswer n := rfl

/-! ### requestStart -/

@[simp] theorem State.requestStart_est : (s.requestStart).est = .start := rfl
@[simp] theorem State.requestStart_cst : (s.requestStart).cst = s.cst := rfl
@[simp] theorem State.requestStart_op : (s.requestStart).op = s.op := rfl
@[simp] theorem State.requestStart_dev : (s.requestStart).dev = s.dev := rfl
@[simp] theorem State.requestStart_reg : (s.requestStart).reg = s.reg := rfl
@[simp] theorem State.requestStart_wdata : (s.requestStart).wdata = s.wdata := rfl
@[simp] theorem State.requestStart_tDev : (s.requestStart).tDev = s.tDev := rfl
@[simp] theorem State.requestStart_tReg : (s.requestStart).tReg = s.tReg := rfl
@[simp] theorem State.requestStart_tWdata : (s.requestStart).tWdata = s.tWdata := rfl
@[simp] theorem State.requestStart_tDir : (s.requestStart).tDir = s.tDir := rfl
@[simp] theorem State.requestStart_rbyte : (s.requestStart).rbyte = s.rbyte := rfl
@[simp] theorem State.requestStart_tResult : (s.requestStart).tResult = s.tResult := rfl
@[simp] theorem State.requestStart_tStatus : (s.requestStart).tStatus = s.tStatus := rfl
@[simp] theorem State.requestStart_tmp : (s.requestStart).tmp = s.tmp := rfl
@[simp] theorem State.requestStart_firstFail : (s.requestStart).firstFail = s.firstFail := rfl
@[simp] theorem State.requestStart_cnt : (s.requestStart).cnt = s.cnt := rfl
@[simp] theorem State.requestStart_rspData : (s.requestStart).rspData = s.rspData := rfl
@[simp] theorem State.requestStart_rspStatus : (s.requestStart).rspStatus = s.rspStatus := rfl
@[simp] theorem State.requestStart_lReq : (s.requestStart).lReq = .start := rfl
@[simp] theorem State.requestStart_lTxByte : (s.requestStart).lTxByte = s.lTxByte := rfl
@[simp] theorem State.requestStart_rst : (s.requestStart).rst = s.rst := rfl
@[simp] theorem State.requestStart_commands : (s.requestStart).commands = s.commands := rfl
@[simp] theorem State.requestStart_pollLimit : (s.requestStart).pollLimit = s.pollLimit := rfl
@[simp] theorem State.requestStart_line : (s.requestStart).line = .prim (Completion.delayed (s.doneAnswer s.doneSeen)) := rfl
@[simp] theorem State.requestStart_mem : (s.requestStart).mem = s.mem := rfl
@[simp] theorem State.requestStart_slavePtr : (s.requestStart).slavePtr = s.slavePtr := rfl
@[simp] theorem State.requestStart_doneScript : (s.requestStart).doneScript = s.doneScript := rfl
@[simp] theorem State.requestStart_ackScript : (s.requestStart).ackScript = s.ackScript := rfl
@[simp] theorem State.requestStart_rxScript : (s.requestStart).rxScript = s.rxScript := rfl
@[simp] theorem State.requestStart_chipScript : (s.requestStart).chipScript = s.chipScript := rfl
@[simp] theorem State.requestStart_doneSeen : (s.requestStart).doneSeen = s.doneSeen + 1 := rfl
@[simp] theorem State.requestStart_ackSeen : (s.requestStart).ackSeen = s.ackSeen := rfl
@[simp] theorem State.requestStart_rxSeen : (s.requestStart).rxSeen = s.rxSeen := rfl
@[simp] theorem State.requestStart_chipSeen : (s.requestStart).chipSeen = s.chipSeen := rfl
@[simp] theorem State.requestStart_trace : (s.requestStart).trace = s.trace ++ [.start] := rfl
@[simp] theorem State.requestStart_doneAnswer (n : Nat) : (s.requestStart).doneAnswer n = s.doneAnswer n := rfl
@[simp] theorem State.requestStart_ackAnswer (n : Nat) : (s.requestStart).ackAnswer n = s.ackAnswer n := rfl
@[simp] theorem State.requestStart_rxAnswer (n : Nat) : (s.requestStart).rxAnswer n = s.rxAnswer n := rfl
@[simp] theorem State.requestStart_chipAnswer (n : Nat) : (s.requestStart).chipAnswer n = s.chipAnswer n := rfl

/-! ### requestRestart -/

@[simp] theorem State.requestRestart_est : (s.requestRestart).est = .restart := rfl
@[simp] theorem State.requestRestart_cst : (s.requestRestart).cst = s.cst := rfl
@[simp] theorem State.requestRestart_op : (s.requestRestart).op = s.op := rfl
@[simp] theorem State.requestRestart_dev : (s.requestRestart).dev = s.dev := rfl
@[simp] theorem State.requestRestart_reg : (s.requestRestart).reg = s.reg := rfl
@[simp] theorem State.requestRestart_wdata : (s.requestRestart).wdata = s.wdata := rfl
@[simp] theorem State.requestRestart_tDev : (s.requestRestart).tDev = s.tDev := rfl
@[simp] theorem State.requestRestart_tReg : (s.requestRestart).tReg = s.tReg := rfl
@[simp] theorem State.requestRestart_tWdata : (s.requestRestart).tWdata = s.tWdata := rfl
@[simp] theorem State.requestRestart_tDir : (s.requestRestart).tDir = s.tDir := rfl
@[simp] theorem State.requestRestart_rbyte : (s.requestRestart).rbyte = s.rbyte := rfl
@[simp] theorem State.requestRestart_tResult : (s.requestRestart).tResult = s.tResult := rfl
@[simp] theorem State.requestRestart_tStatus : (s.requestRestart).tStatus = s.tStatus := rfl
@[simp] theorem State.requestRestart_tmp : (s.requestRestart).tmp = s.tmp := rfl
@[simp] theorem State.requestRestart_firstFail : (s.requestRestart).firstFail = s.firstFail := rfl
@[simp] theorem State.requestRestart_cnt : (s.requestRestart).cnt = s.cnt := rfl
@[simp] theorem State.requestRestart_rspData : (s.requestRestart).rspData = s.rspData := rfl
@[simp] theorem State.requestRestart_rspStatus : (s.requestRestart).rspStatus = s.rspStatus := rfl
@[simp] theorem State.requestRestart_lReq : (s.requestRestart).lReq = .restart := rfl
@[simp] theorem State.requestRestart_lTxByte : (s.requestRestart).lTxByte = s.lTxByte := rfl
@[simp] theorem State.requestRestart_rst : (s.requestRestart).rst = s.rst := rfl
@[simp] theorem State.requestRestart_commands : (s.requestRestart).commands = s.commands := rfl
@[simp] theorem State.requestRestart_pollLimit : (s.requestRestart).pollLimit = s.pollLimit := rfl
@[simp] theorem State.requestRestart_line : (s.requestRestart).line = .prim (Completion.delayed (s.doneAnswer s.doneSeen)) := rfl
@[simp] theorem State.requestRestart_mem : (s.requestRestart).mem = s.mem := rfl
@[simp] theorem State.requestRestart_slavePtr : (s.requestRestart).slavePtr = s.slavePtr := rfl
@[simp] theorem State.requestRestart_doneScript : (s.requestRestart).doneScript = s.doneScript := rfl
@[simp] theorem State.requestRestart_ackScript : (s.requestRestart).ackScript = s.ackScript := rfl
@[simp] theorem State.requestRestart_rxScript : (s.requestRestart).rxScript = s.rxScript := rfl
@[simp] theorem State.requestRestart_chipScript : (s.requestRestart).chipScript = s.chipScript := rfl
@[simp] theorem State.requestRestart_doneSeen : (s.requestRestart).doneSeen = s.doneSeen + 1 := rfl
@[simp] theorem State.requestRestart_ackSeen : (s.requestRestart).ackSeen = s.ackSeen := rfl
@[simp] theorem State.requestRestart_rxSeen : (s.requestRestart).rxSeen = s.rxSeen := rfl
@[simp] theorem State.requestRestart_chipSeen : (s.requestRestart).chipSeen = s.chipSeen := rfl
@[simp] theorem State.requestRestart_trace : (s.requestRestart).trace = s.trace ++ [.restart] := rfl
@[simp] theorem State.requestRestart_doneAnswer (n : Nat) : (s.requestRestart).doneAnswer n = s.doneAnswer n := rfl
@[simp] theorem State.requestRestart_ackAnswer (n : Nat) : (s.requestRestart).ackAnswer n = s.ackAnswer n := rfl
@[simp] theorem State.requestRestart_rxAnswer (n : Nat) : (s.requestRestart).rxAnswer n = s.rxAnswer n := rfl
@[simp] theorem State.requestRestart_chipAnswer (n : Nat) : (s.requestRestart).chipAnswer n = s.chipAnswer n := rfl

/-! ### requestStop -/

@[simp] theorem State.requestStop_est : (s.requestStop).est = .stop := rfl
@[simp] theorem State.requestStop_cst : (s.requestStop).cst = s.cst := rfl
@[simp] theorem State.requestStop_op : (s.requestStop).op = s.op := rfl
@[simp] theorem State.requestStop_dev : (s.requestStop).dev = s.dev := rfl
@[simp] theorem State.requestStop_reg : (s.requestStop).reg = s.reg := rfl
@[simp] theorem State.requestStop_wdata : (s.requestStop).wdata = s.wdata := rfl
@[simp] theorem State.requestStop_tDev : (s.requestStop).tDev = s.tDev := rfl
@[simp] theorem State.requestStop_tReg : (s.requestStop).tReg = s.tReg := rfl
@[simp] theorem State.requestStop_tWdata : (s.requestStop).tWdata = s.tWdata := rfl
@[simp] theorem State.requestStop_tDir : (s.requestStop).tDir = s.tDir := rfl
@[simp] theorem State.requestStop_rbyte : (s.requestStop).rbyte = s.rbyte := rfl
@[simp] theorem State.requestStop_tResult : (s.requestStop).tResult = s.tResult := rfl
@[simp] theorem State.requestStop_tStatus : (s.requestStop).tStatus = s.tStatus := rfl
@[simp] theorem State.requestStop_tmp : (s.requestStop).tmp = s.tmp := rfl
@[simp] theorem State.requestStop_firstFail : (s.requestStop).firstFail = s.firstFail := rfl
@[simp] theorem State.requestStop_cnt : (s.requestStop).cnt = s.cnt := rfl
@[simp] theorem State.requestStop_rspData : (s.requestStop).rspData = s.rspData := rfl
@[simp] theorem State.requestStop_rspStatus : (s.requestStop).rspStatus = s.rspStatus := rfl
@[simp] theorem State.requestStop_lReq : (s.requestStop).lReq = .stop := rfl
@[simp] theorem State.requestStop_lTxByte : (s.requestStop).lTxByte = s.lTxByte := rfl
@[simp] theorem State.requestStop_rst : (s.requestStop).rst = s.rst := rfl
@[simp] theorem State.requestStop_commands : (s.requestStop).commands = s.commands := rfl
@[simp] theorem State.requestStop_pollLimit : (s.requestStop).pollLimit = s.pollLimit := rfl
@[simp] theorem State.requestStop_line : (s.requestStop).line = .prim (Completion.delayed (s.doneAnswer s.doneSeen)) := rfl
@[simp] theorem State.requestStop_mem : (s.requestStop).mem = s.mem := rfl
@[simp] theorem State.requestStop_slavePtr : (s.requestStop).slavePtr = s.slavePtr := rfl
@[simp] theorem State.requestStop_doneScript : (s.requestStop).doneScript = s.doneScript := rfl
@[simp] theorem State.requestStop_ackScript : (s.requestStop).ackScript = s.ackScript := rfl
@[simp] theorem State.requestStop_rxScript : (s.requestStop).rxScript = s.rxScript := rfl
@[simp] theorem State.requestStop_chipScript : (s.requestStop).chipScript = s.chipScript := rfl
@[simp] theorem State.requestStop_doneSeen : (s.requestStop).doneSeen = s.doneSeen + 1 := rfl
@[simp] theorem State.requestStop_ackSeen : (s.requestStop).ackSeen = s.ackSeen := rfl
@[simp] theorem State.requestStop_rxSeen : (s.requestStop).rxSeen = s.rxSeen := rfl
@[simp] theorem State.requestStop_chipSeen : (s.requestStop).chipSeen = s.chipSeen := rfl
@[simp] theorem State.requestStop_trace : (s.requestStop).trace = s.trace ++ [.stop] := rfl
@[simp] theorem State.requestStop_doneAnswer (n : Nat) : (s.requestStop).doneAnswer n = s.doneAnswer n := rfl
@[simp] theorem State.requestStop_ackAnswer (n : Nat) : (s.requestStop).ackAnswer n = s.ackAnswer n := rfl
@[simp] theorem State.requestStop_rxAnswer (n : Nat) : (s.requestStop).rxAnswer n = s.rxAnswer n := rfl
@[simp] theorem State.requestStop_chipAnswer (n : Nat) : (s.requestStop).chipAnswer n = s.chipAnswer n := rfl

/-! ### requestMnack -/

@[simp] theorem State.requestMnack_est : (s.requestMnack).est = .mnack := rfl
@[simp] theorem State.requestMnack_cst : (s.requestMnack).cst = s.cst := rfl
@[simp] theorem State.requestMnack_op : (s.requestMnack).op = s.op := rfl
@[simp] theorem State.requestMnack_dev : (s.requestMnack).dev = s.dev := rfl
@[simp] theorem State.requestMnack_reg : (s.requestMnack).reg = s.reg := rfl
@[simp] theorem State.requestMnack_wdata : (s.requestMnack).wdata = s.wdata := rfl
@[simp] theorem State.requestMnack_tDev : (s.requestMnack).tDev = s.tDev := rfl
@[simp] theorem State.requestMnack_tReg : (s.requestMnack).tReg = s.tReg := rfl
@[simp] theorem State.requestMnack_tWdata : (s.requestMnack).tWdata = s.tWdata := rfl
@[simp] theorem State.requestMnack_tDir : (s.requestMnack).tDir = s.tDir := rfl
@[simp] theorem State.requestMnack_rbyte : (s.requestMnack).rbyte = s.rbyte := rfl
@[simp] theorem State.requestMnack_tResult : (s.requestMnack).tResult = s.tResult := rfl
@[simp] theorem State.requestMnack_tStatus : (s.requestMnack).tStatus = s.tStatus := rfl
@[simp] theorem State.requestMnack_tmp : (s.requestMnack).tmp = s.tmp := rfl
@[simp] theorem State.requestMnack_firstFail : (s.requestMnack).firstFail = s.firstFail := rfl
@[simp] theorem State.requestMnack_cnt : (s.requestMnack).cnt = s.cnt := rfl
@[simp] theorem State.requestMnack_rspData : (s.requestMnack).rspData = s.rspData := rfl
@[simp] theorem State.requestMnack_rspStatus : (s.requestMnack).rspStatus = s.rspStatus := rfl
@[simp] theorem State.requestMnack_lReq : (s.requestMnack).lReq = .mack := rfl
@[simp] theorem State.requestMnack_lTxByte : (s.requestMnack).lTxByte = s.lTxByte := rfl
@[simp] theorem State.requestMnack_rst : (s.requestMnack).rst = s.rst := rfl
@[simp] theorem State.requestMnack_commands : (s.requestMnack).commands = s.commands := rfl
@[simp] theorem State.requestMnack_pollLimit : (s.requestMnack).pollLimit = s.pollLimit := rfl
@[simp] theorem State.requestMnack_line : (s.requestMnack).line = .prim (Completion.delayed (s.doneAnswer s.doneSeen)) := rfl
@[simp] theorem State.requestMnack_mem : (s.requestMnack).mem = s.mem := rfl
@[simp] theorem State.requestMnack_slavePtr : (s.requestMnack).slavePtr = s.slavePtr := rfl
@[simp] theorem State.requestMnack_doneScript : (s.requestMnack).doneScript = s.doneScript := rfl
@[simp] theorem State.requestMnack_ackScript : (s.requestMnack).ackScript = s.ackScript := rfl
@[simp] theorem State.requestMnack_rxScript : (s.requestMnack).rxScript = s.rxScript := rfl
@[simp] theorem State.requestMnack_chipScript : (s.requestMnack).chipScript = s.chipScript := rfl
@[simp] theorem State.requestMnack_doneSeen : (s.requestMnack).doneSeen = s.doneSeen + 1 := rfl
@[simp] theorem State.requestMnack_ackSeen : (s.requestMnack).ackSeen = s.ackSeen := rfl
@[simp] theorem State.requestMnack_rxSeen : (s.requestMnack).rxSeen = s.rxSeen := rfl
@[simp] theorem State.requestMnack_chipSeen : (s.requestMnack).chipSeen = s.chipSeen := rfl
@[simp] theorem State.requestMnack_trace : (s.requestMnack).trace = s.trace ++ [.mnack] := rfl
@[simp] theorem State.requestMnack_doneAnswer (n : Nat) : (s.requestMnack).doneAnswer n = s.doneAnswer n := rfl
@[simp] theorem State.requestMnack_ackAnswer (n : Nat) : (s.requestMnack).ackAnswer n = s.ackAnswer n := rfl
@[simp] theorem State.requestMnack_rxAnswer (n : Nat) : (s.requestMnack).rxAnswer n = s.rxAnswer n := rfl
@[simp] theorem State.requestMnack_chipAnswer (n : Nat) : (s.requestMnack).chipAnswer n = s.chipAnswer n := rfl

/-! ### requestTx -/

@[simp] theorem State.requestTx_est (p : EngineState) (b : Byte) : (s.requestTx p b).est = p := rfl
@[simp] theorem State.requestTx_cst (p : EngineState) (b : Byte) : (s.requestTx p b).cst = s.cst := rfl
@[simp] theorem State.requestTx_op (p : EngineState) (b : Byte) : (s.requestTx p b).op = s.op := rfl
@[simp] theorem State.requestTx_dev (p : EngineState) (b : Byte) : (s.requestTx p b).dev = s.dev := rfl
@[simp] theorem State.requestTx_reg (p : EngineState) (b : Byte) : (s.requestTx p b).reg = s.reg := rfl
@[simp] theorem State.requestTx_wdata (p : EngineState) (b : Byte) : (s.requestTx p b).wdata = s.wdata := rfl
@[simp] theorem State.requestTx_tDev (p : EngineState) (b : Byte) : (s.requestTx p b).tDev = s.tDev := rfl
@[simp] theorem State.requestTx_tReg (p : EngineState) (b : Byte) : (s.requestTx p b).tReg = s.tReg := rfl
@[simp] theorem State.requestTx_tWdata (p : EngineState) (b : Byte) : (s.requestTx p b).tWdata = s.tWdata := rfl
@[simp] theorem State.requestTx_tDir (p : EngineState) (b : Byte) : (s.requestTx p b).tDir = s.tDir := rfl
@[simp] theorem State.requestTx_rbyte (p : EngineState) (b : Byte) : (s.requestTx p b).rbyte = s.rbyte := rfl
@[simp] theorem State.requestTx_tResult (p : EngineState) (b : Byte) : (s.requestTx p b).tResult = s.tResult := rfl
@[simp] theorem State.requestTx_tStatus (p : EngineState) (b : Byte) : (s.requestTx p b).tStatus = s.tStatus := rfl
@[simp] theorem State.requestTx_tmp (p : EngineState) (b : Byte) : (s.requestTx p b).tmp = s.tmp := rfl
@[simp] theorem State.requestTx_firstFail (p : EngineState) (b : Byte) : (s.requestTx p b).firstFail = s.firstFail := rfl
@[simp] theorem State.requestTx_cnt (p : EngineState) (b : Byte) : (s.requestTx p b).cnt = s.cnt := rfl
@[simp] theorem State.requestTx_rspData (p : EngineState) (b : Byte) : (s.requestTx p b).rspData = s.rspData := rfl
@[simp] theorem State.requestTx_rspStatus (p : EngineState) (b : Byte) : (s.requestTx p b).rspStatus = s.rspStatus := rfl
@[simp] theorem State.requestTx_lReq (p : EngineState) (b : Byte) : (s.requestTx p b).lReq = .tx := rfl
@[simp] theorem State.requestTx_lTxByte (p : EngineState) (b : Byte) : (s.requestTx p b).lTxByte = b := rfl
@[simp] theorem State.requestTx_rst (p : EngineState) (b : Byte) : (s.requestTx p b).rst = s.rst := rfl
@[simp] theorem State.requestTx_commands (p : EngineState) (b : Byte) : (s.requestTx p b).commands = s.commands := rfl
@[simp] theorem State.requestTx_pollLimit (p : EngineState) (b : Byte) : (s.requestTx p b).pollLimit = s.pollLimit := rfl
@[simp] theorem State.requestTx_line (p : EngineState) (b : Byte) : (s.requestTx p b).line = .tx (Completion.delayed (s.doneAnswer s.doneSeen)) (s.ackAnswer s.ackSeen) := rfl
@[simp] theorem State.requestTx_mem (p : EngineState) (b : Byte) : (s.requestTx p b).mem = s.mem := rfl
@[simp] theorem State.requestTx_slavePtr (p : EngineState) (b : Byte) : (s.requestTx p b).slavePtr = s.slavePtr := rfl
@[simp] theorem State.requestTx_doneScript (p : EngineState) (b : Byte) : (s.requestTx p b).doneScript = s.doneScript := rfl
@[simp] theorem State.requestTx_ackScript (p : EngineState) (b : Byte) : (s.requestTx p b).ackScript = s.ackScript := rfl
@[simp] theorem State.requestTx_rxScript (p : EngineState) (b : Byte) : (s.requestTx p b).rxScript = s.rxScript := rfl
@[simp] theorem State.requestTx_chipScript (p : EngineState) (b : Byte) : (s.requestTx p b).chipScript = s.chipScript := rfl
@[simp] theorem State.requestTx_doneSeen (p : EngineState) (b : Byte) : (s.requestTx p b).doneSeen = s.doneSeen + 1 := rfl
@[simp] theorem State.requestTx_ackSeen (p : EngineState) (b : Byte) : (s.requestTx p b).ackSeen = s.ackSeen + 1 := rfl
@[simp] theorem State.requestTx_rxSeen (p : EngineState) (b : Byte) : (s.requestTx p b).rxSeen = s.rxSeen := rfl
@[simp] theorem State.requestTx_chipSeen (p : EngineState) (b : Byte) : (s.requestTx p b).chipSeen = s.chipSeen := rfl
@[simp] theorem State.requestTx_trace (p : EngineState) (b : Byte) : (s.requestTx p b).trace = s.trace := rfl
@[simp] theorem State.requestTx_doneAnswer (p : EngineState) (b : Byte) (n : Nat) : (s.requestTx p b).doneAnswer n = s.doneAnswer n := rfl
@[simp] theorem State.requestTx_ackAnswer (p : EngineState) (b : Byte) (n : Nat) : (s.requestTx p b).ackAnswer n = s.ackAnswer n := rfl
@[simp] theorem State.requestTx_rxAnswer (p : EngineState) (b : Byte) (n : Nat) : (s.requestTx p b).rxAnswer n = s.rxAnswer n := rfl
@[simp] theorem State.requestTx_chipAnswer (p : EngineState) (b : Byte) (n : Nat) : (s.requestTx p b).chipAnswer n = s.chipAnswer n := rfl

/-! ### requestRx -/

@[simp] theorem State.requestRx_est : (s.requestRx).est = .rxPoll := rfl
@[simp] theorem State.requestRx_cst : (s.requestRx).cst = s.cst := rfl
@[simp] theorem State.requestRx_op : (s.requestRx).op = s.op := rfl
@[simp] theorem State.requestRx_dev : (s.requestRx).dev = s.dev := rfl
@[simp] theorem State.requestRx_reg : (s.requestRx).reg = s.reg := rfl
@[simp] theorem State.requestRx_wdata : (s.requestRx).wdata = s.wdata := rfl
@[simp] theorem State.requestRx_tDev : (s.requestRx).tDev = s.tDev := rfl
@[simp] theorem State.requestRx_tReg : (s.requestRx).tReg = s.tReg := rfl
@[simp] theorem State.requestRx_tWdata : (s.requestRx).tWdata = s.tWdata := rfl
@[simp] theorem State.requestRx_tDir : (s.requestRx).tDir = s.tDir := rfl
@[simp] theorem State.requestRx_rbyte : (s.requestRx).rbyte = s.rbyte := rfl
@[simp] theorem State.requestRx_tResult : (s.requestRx).tResult = s.tResult := rfl
@[simp] theorem State.requestRx_tStatus : (s.requestRx).tStatus = s.tStatus := rfl
@[simp] theorem State.requestRx_tmp : (s.requestRx).tmp = s.tmp := rfl
@[simp] theorem State.requestRx_firstFail : (s.requestRx).firstFail = s.firstFail := rfl
@[simp] theorem State.requestRx_cnt : (s.requestRx).cnt = s.pollLimit := rfl
@[simp] theorem State.requestRx_rspData : (s.requestRx).rspData = s.rspData := rfl
@[simp] theorem State.requestRx_rspStatus : (s.requestRx).rspStatus = s.rspStatus := rfl
@[simp] theorem State.requestRx_lReq : (s.requestRx).lReq = .rxen := rfl
@[simp] theorem State.requestRx_lTxByte : (s.requestRx).lTxByte = s.lTxByte := rfl
@[simp] theorem State.requestRx_rst : (s.requestRx).rst = s.rst := rfl
@[simp] theorem State.requestRx_commands : (s.requestRx).commands = s.commands := rfl
@[simp] theorem State.requestRx_pollLimit : (s.requestRx).pollLimit = s.pollLimit := rfl
@[simp] theorem State.requestRx_line : (s.requestRx).line = s.receiving (s.rxAnswer s.rxSeen) := rfl
@[simp] theorem State.requestRx_mem : (s.requestRx).mem = s.mem := rfl
@[simp] theorem State.requestRx_slavePtr : (s.requestRx).slavePtr = s.slavePtr := rfl
@[simp] theorem State.requestRx_doneScript : (s.requestRx).doneScript = s.doneScript := rfl
@[simp] theorem State.requestRx_ackScript : (s.requestRx).ackScript = s.ackScript := rfl
@[simp] theorem State.requestRx_rxScript : (s.requestRx).rxScript = s.rxScript := rfl
@[simp] theorem State.requestRx_chipScript : (s.requestRx).chipScript = s.chipScript := rfl
@[simp] theorem State.requestRx_doneSeen : (s.requestRx).doneSeen = s.doneSeen := rfl
@[simp] theorem State.requestRx_ackSeen : (s.requestRx).ackSeen = s.ackSeen := rfl
@[simp] theorem State.requestRx_rxSeen : (s.requestRx).rxSeen = s.rxSeen + 1 := rfl
@[simp] theorem State.requestRx_chipSeen : (s.requestRx).chipSeen = s.chipSeen := rfl
@[simp] theorem State.requestRx_trace : (s.requestRx).trace = s.trace ++ [.rxen] := rfl
@[simp] theorem State.requestRx_doneAnswer (n : Nat) : (s.requestRx).doneAnswer n = s.doneAnswer n := rfl
@[simp] theorem State.requestRx_ackAnswer (n : Nat) : (s.requestRx).ackAnswer n = s.ackAnswer n := rfl
@[simp] theorem State.requestRx_rxAnswer (n : Nat) : (s.requestRx).rxAnswer n = s.rxAnswer n := rfl
@[simp] theorem State.requestRx_chipAnswer (n : Nat) : (s.requestRx).chipAnswer n = s.chipAnswer n := rfl

/-! ### pollLost -/

@[simp] theorem State.pollLost_est : (s.pollLost).est = .rxPoll := rfl
@[simp] theorem State.pollLost_cst : (s.pollLost).cst = s.cst := rfl
@[simp] theorem State.pollLost_op : (s.pollLost).op = s.op := rfl
@[simp] theorem State.pollLost_dev : (s.pollLost).dev = s.dev := rfl
@[simp] theorem State.pollLost_reg : (s.pollLost).reg = s.reg := rfl
@[simp] theorem State.pollLost_wdata : (s.pollLost).wdata = s.wdata := rfl
@[simp] theorem State.pollLost_tDev : (s.pollLost).tDev = s.tDev := rfl
@[simp] theorem State.pollLost_tReg : (s.pollLost).tReg = s.tReg := rfl
@[simp] theorem State.pollLost_tWdata : (s.pollLost).tWdata = s.tWdata := rfl
@[simp] theorem State.pollLost_tDir : (s.pollLost).tDir = s.tDir := rfl
@[simp] theorem State.pollLost_rbyte : (s.pollLost).rbyte = s.rbyte := rfl
@[simp] theorem State.pollLost_tResult : (s.pollLost).tResult = s.tResult := rfl
@[simp] theorem State.pollLost_tStatus : (s.pollLost).tStatus = s.tStatus := rfl
@[simp] theorem State.pollLost_tmp : (s.pollLost).tmp = s.tmp := rfl
@[simp] theorem State.pollLost_firstFail : (s.pollLost).firstFail = s.firstFail := rfl
@[simp] theorem State.pollLost_cnt : (s.pollLost).cnt = 0 := rfl
@[simp] theorem State.pollLost_rspData : (s.pollLost).rspData = s.rspData := rfl
@[simp] theorem State.pollLost_rspStatus : (s.pollLost).rspStatus = s.rspStatus := rfl
@[simp] theorem State.pollLost_lReq : (s.pollLost).lReq = .none := rfl
@[simp] theorem State.pollLost_lTxByte : (s.pollLost).lTxByte = s.lTxByte := rfl
@[simp] theorem State.pollLost_rst : (s.pollLost).rst = s.rst := rfl
@[simp] theorem State.pollLost_commands : (s.pollLost).commands = s.commands := rfl
@[simp] theorem State.pollLost_pollLimit : (s.pollLost).pollLimit = s.pollLimit := rfl
@[simp] theorem State.pollLost_line : (s.pollLost).line = .idle := rfl
@[simp] theorem State.pollLost_mem : (s.pollLost).mem = s.mem := rfl
@[simp] theorem State.pollLost_slavePtr : (s.pollLost).slavePtr = s.slavePtr := rfl
@[simp] theorem State.pollLost_doneScript : (s.pollLost).doneScript = s.doneScript := rfl
@[simp] theorem State.pollLost_ackScript : (s.pollLost).ackScript = s.ackScript := rfl
@[simp] theorem State.pollLost_rxScript : (s.pollLost).rxScript = s.rxScript := rfl
@[simp] theorem State.pollLost_chipScript : (s.pollLost).chipScript = s.chipScript := rfl
@[simp] theorem State.pollLost_doneSeen : (s.pollLost).doneSeen = s.doneSeen := rfl
@[simp] theorem State.pollLost_ackSeen : (s.pollLost).ackSeen = s.ackSeen := rfl
@[simp] theorem State.pollLost_rxSeen : (s.pollLost).rxSeen = s.rxSeen + 1 := rfl
@[simp] theorem State.pollLost_chipSeen : (s.pollLost).chipSeen = s.chipSeen := rfl
@[simp] theorem State.pollLost_trace : (s.pollLost).trace = s.trace ++ [.rxen] ++ [.rxTimeout] := rfl
@[simp] theorem State.pollLost_doneAnswer (n : Nat) : (s.pollLost).doneAnswer n = s.doneAnswer n := rfl
@[simp] theorem State.pollLost_ackAnswer (n : Nat) : (s.pollLost).ackAnswer n = s.ackAnswer n := rfl
@[simp] theorem State.pollLost_rxAnswer (n : Nat) : (s.pollLost).rxAnswer n = s.rxAnswer n := rfl
@[simp] theorem State.pollLost_chipAnswer (n : Nat) : (s.pollLost).chipAnswer n = s.chipAnswer n := rfl

/-! ### pollFound -/

@[simp] theorem State.pollFound_est (c : Nat) (b : Byte) : (s.pollFound c b).est = .rxPoll := rfl
@[simp] theorem State.pollFound_cst (c : Nat) (b : Byte) : (s.pollFound c b).cst = s.cst := rfl
@[simp] theorem State.pollFound_op (c : Nat) (b : Byte) : (s.pollFound c b).op = s.op := rfl
@[simp] theorem State.pollFound_dev (c : Nat) (b : Byte) : (s.pollFound c b).dev = s.dev := rfl
@[simp] theorem State.pollFound_reg (c : Nat) (b : Byte) : (s.pollFound c b).reg = s.reg := rfl
@[simp] theorem State.pollFound_wdata (c : Nat) (b : Byte) : (s.pollFound c b).wdata = s.wdata := rfl
@[simp] theorem State.pollFound_tDev (c : Nat) (b : Byte) : (s.pollFound c b).tDev = s.tDev := rfl
@[simp] theorem State.pollFound_tReg (c : Nat) (b : Byte) : (s.pollFound c b).tReg = s.tReg := rfl
@[simp] theorem State.pollFound_tWdata (c : Nat) (b : Byte) : (s.pollFound c b).tWdata = s.tWdata := rfl
@[simp] theorem State.pollFound_tDir (c : Nat) (b : Byte) : (s.pollFound c b).tDir = s.tDir := rfl
@[simp] theorem State.pollFound_rbyte (c : Nat) (b : Byte) : (s.pollFound c b).rbyte = b := rfl
@[simp] theorem State.pollFound_tResult (c : Nat) (b : Byte) : (s.pollFound c b).tResult = s.tResult := rfl
@[simp] theorem State.pollFound_tStatus (c : Nat) (b : Byte) : (s.pollFound c b).tStatus = s.tStatus := rfl
@[simp] theorem State.pollFound_tmp (c : Nat) (b : Byte) : (s.pollFound c b).tmp = s.tmp := rfl
@[simp] theorem State.pollFound_firstFail (c : Nat) (b : Byte) : (s.pollFound c b).firstFail = s.firstFail := rfl
@[simp] theorem State.pollFound_cnt (c : Nat) (b : Byte) : (s.pollFound c b).cnt = s.pollLimit - BitVec.ofNat 16 c := rfl
@[simp] theorem State.pollFound_rspData (c : Nat) (b : Byte) : (s.pollFound c b).rspData = s.rspData := rfl
@[simp] theorem State.pollFound_rspStatus (c : Nat) (b : Byte) : (s.pollFound c b).rspStatus = s.rspStatus := rfl
@[simp] theorem State.pollFound_lReq (c : Nat) (b : Byte) : (s.pollFound c b).lReq = .none := rfl
@[simp] theorem State.pollFound_lTxByte (c : Nat) (b : Byte) : (s.pollFound c b).lTxByte = s.lTxByte := rfl
@[simp] theorem State.pollFound_rst (c : Nat) (b : Byte) : (s.pollFound c b).rst = s.rst := rfl
@[simp] theorem State.pollFound_commands (c : Nat) (b : Byte) : (s.pollFound c b).commands = s.commands := rfl
@[simp] theorem State.pollFound_pollLimit (c : Nat) (b : Byte) : (s.pollFound c b).pollLimit = s.pollLimit := rfl
@[simp] theorem State.pollFound_line (c : Nat) (b : Byte) : (s.pollFound c b).line = .idle := rfl
@[simp] theorem State.pollFound_mem (c : Nat) (b : Byte) : (s.pollFound c b).mem = s.mem := rfl
@[simp] theorem State.pollFound_slavePtr (c : Nat) (b : Byte) : (s.pollFound c b).slavePtr = s.slavePtr := rfl
@[simp] theorem State.pollFound_doneScript (c : Nat) (b : Byte) : (s.pollFound c b).doneScript = s.doneScript := rfl
@[simp] theorem State.pollFound_ackScript (c : Nat) (b : Byte) : (s.pollFound c b).ackScript = s.ackScript := rfl
@[simp] theorem State.pollFound_rxScript (c : Nat) (b : Byte) : (s.pollFound c b).rxScript = s.rxScript := rfl
@[simp] theorem State.pollFound_chipScript (c : Nat) (b : Byte) : (s.pollFound c b).chipScript = s.chipScript := rfl
@[simp] theorem State.pollFound_doneSeen (c : Nat) (b : Byte) : (s.pollFound c b).doneSeen = s.doneSeen := rfl
@[simp] theorem State.pollFound_ackSeen (c : Nat) (b : Byte) : (s.pollFound c b).ackSeen = s.ackSeen := rfl
@[simp] theorem State.pollFound_rxSeen (c : Nat) (b : Byte) : (s.pollFound c b).rxSeen = s.rxSeen + 1 := rfl
@[simp] theorem State.pollFound_chipSeen (c : Nat) (b : Byte) : (s.pollFound c b).chipSeen = s.chipSeen := rfl
@[simp] theorem State.pollFound_trace (c : Nat) (b : Byte) : (s.pollFound c b).trace = s.trace ++ [.rxen] ++ [.rx b (c + 1)] := rfl
@[simp] theorem State.pollFound_doneAnswer (c : Nat) (b : Byte) (n : Nat) : (s.pollFound c b).doneAnswer n = s.doneAnswer n := rfl
@[simp] theorem State.pollFound_ackAnswer (c : Nat) (b : Byte) (n : Nat) : (s.pollFound c b).ackAnswer n = s.ackAnswer n := rfl
@[simp] theorem State.pollFound_rxAnswer (c : Nat) (b : Byte) (n : Nat) : (s.pollFound c b).rxAnswer n = s.rxAnswer n := rfl
@[simp] theorem State.pollFound_chipAnswer (c : Nat) (b : Byte) (n : Nat) : (s.pollFound c b).chipAnswer n = s.chipAnswer n := rfl

/-! ### engineIdle -/

@[simp] theorem State.engineIdle_est : (s.engineIdle).est = .idle := rfl
@[simp] theorem State.engineIdle_cst : (s.engineIdle).cst = s.cst := rfl
@[simp] theorem State.engineIdle_op : (s.engineIdle).op = s.op := rfl
@[simp] theorem State.engineIdle_dev : (s.engineIdle).dev = s.dev := rfl
@[simp] theorem State.engineIdle_reg : (s.engineIdle).reg = s.reg := rfl
@[simp] theorem State.engineIdle_wdata : (s.engineIdle).wdata = s.wdata := rfl
@[simp] theorem State.engineIdle_tDev : (s.engineIdle).tDev = s.tDev := rfl
@[simp] theorem State.engineIdle_tReg : (s.engineIdle).tReg = s.tReg := rfl
@[simp] theorem State.engineIdle_tWdata : (s.engineIdle).tWdata = s.tWdata := rfl
@[simp] theorem State.engineIdle_tDir : (s.engineIdle).tDir = s.tDir := rfl
@[simp] theorem State.engineIdle_rbyte : (s.engineIdle).rbyte = s.rbyte := rfl
@[simp] theorem State.engineIdle_tResult : (s.engineIdle).tResult = s.tResult := rfl
@[simp] theorem State.engineIdle_tStatus : (s.engineIdle).tStatus = s.tStatus := rfl
@[simp] theorem State.engineIdle_tmp : (s.engineIdle).tmp = s.tmp := rfl
@[simp] theorem State.engineIdle_firstFail : (s.engineIdle).firstFail = s.firstFail := rfl
@[simp] theorem State.engineIdle_cnt : (s.engineIdle).cnt = s.cnt := rfl
@[simp] theorem State.engineIdle_rspData : (s.engineIdle).rspData = s.rspData := rfl
@[simp] theorem State.engineIdle_rspStatus : (s.engineIdle).rspStatus = s.rspStatus := rfl
@[simp] theorem State.engineIdle_lReq : (s.engineIdle).lReq = s.lReq := rfl
@[simp] theorem State.engineIdle_lTxByte : (s.engineIdle).lTxByte = s.lTxByte := rfl
@[simp] theorem State.engineIdle_rst : (s.engineIdle).rst = s.rst := rfl
@[simp] theorem State.engineIdle_commands : (s.engineIdle).commands = s.commands := rfl
@[simp] theorem State.engineIdle_pollLimit : (s.engineIdle).pollLimit = s.pollLimit := rfl
@[simp] theorem State.engineIdle_line : (s.engineIdle).line = s.line := rfl
@[simp] theorem State.engineIdle_mem : (s.engineIdle).mem = s.mem := rfl
@[simp] theorem State.engineIdle_slavePtr : (s.engineIdle).slavePtr = s.slavePtr := rfl
@[simp] theorem State.engineIdle_doneScript : (s.engineIdle).doneScript = s.doneScript := rfl
@[simp] theorem State.engineIdle_ackScript : (s.engineIdle).ackScript = s.ackScript := rfl
@[simp] theorem State.engineIdle_rxScript : (s.engineIdle).rxScript = s.rxScript := rfl
@[simp] theorem State.engineIdle_chipScript : (s.engineIdle).chipScript = s.chipScript := rfl
@[simp] theorem State.engineIdle_doneSeen : (s.engineIdle).doneSeen = s.doneSeen := rfl
@[simp] theorem State.engineIdle_ackSeen : (s.engineIdle).ackSeen = s.ackSeen := rfl
@[simp] theorem State.engineIdle_rxSeen : (s.engineIdle).rxSeen = s.rxSeen := rfl
@[simp] theorem State.engineIdle_chipSeen : (s.engineIdle).chipSeen = s.chipSeen := rfl
@[simp] theorem State.engineIdle_trace : (s.engineIdle).trace = s.trace := rfl
@[simp] theorem State.engineIdle_doneAnswer (n : Nat) : (s.engineIdle).doneAnswer n = s.doneAnswer n := rfl
@[simp] theorem State.engineIdle_ackAnswer (n : Nat) : (s.engineIdle).ackAnswer n = s.ackAnswer n := rfl
@[simp] theorem State.engineIdle_rxAnswer (n : Nat) : (s.engineIdle).rxAnswer n = s.rxAnswer n := rfl
@[simp] theorem State.engineIdle_chipAnswer (n : Nat) : (s.engineIdle).chipAnswer n = s.chipAnswer n := rfl

/-! ### takeResult -/

@[simp] theorem State.takeResult_est : (s.takeResult).est = s.est := rfl
@[simp] theorem State.takeResult_cst : (s.takeResult).cst = s.cst := rfl
@[simp] theorem State.takeResult_op : (s.takeResult).op = s.op := rfl
@[simp] theorem State.takeResult_dev : (s.takeResult).dev = s.dev := rfl
@[simp] theorem State.takeResult_reg : (s.takeResult).reg = s.reg := rfl
@[simp] theorem State.takeResult_wdata : (s.takeResult).wdata = s.wdata := rfl
@[simp] theorem State.takeResult_tDev : (s.takeResult).tDev = s.tDev := rfl
@[simp] theorem State.takeResult_tReg : (s.takeResult).tReg = s.tReg := rfl
@[simp] theorem State.takeResult_tWdata : (s.takeResult).tWdata = s.tWdata := rfl
@[simp] theorem State.takeResult_tDir : (s.takeResult).tDir = s.tDir := rfl
@[simp] theorem State.takeResult_rbyte : (s.takeResult).rbyte = s.rbyte := rfl
@[simp] theorem State.takeResult_tResult : (s.takeResult).tResult = s.rbyte := rfl
@[simp] theorem State.takeResult_tStatus : (s.takeResult).tStatus = s.tStatus := rfl
@[simp] theorem State.takeResult_tmp : (s.takeResult).tmp = s.tmp := rfl
@[simp] theorem State.takeResult_firstFail : (s.takeResult).firstFail = s.firstFail := rfl
@[simp] theorem State.takeResult_cnt : (s.takeResult).cnt = s.cnt := rfl
@[simp] theorem State.takeResult_rspData : (s.takeResult).rspData = s.rspData := rfl
@[simp] theorem State.takeResult_rspStatus : (s.takeResult).rspStatus = s.rspStatus := rfl
@[simp] theorem State.takeResult_lReq : (s.takeResult).lReq = s.lReq := rfl
@[simp] theorem State.takeResult_lTxByte : (s.takeResult).lTxByte = s.lTxByte := rfl
@[simp] theorem State.takeResult_rst : (s.takeResult).rst = s.rst := rfl
@[simp] theorem State.takeResult_commands : (s.takeResult).commands = s.commands := rfl
@[simp] theorem State.takeResult_pollLimit : (s.takeResult).pollLimit = s.pollLimit := rfl
@[simp] theorem State.takeResult_line : (s.takeResult).line = s.line := rfl
@[simp] theorem State.takeResult_mem : (s.takeResult).mem = s.mem := rfl
@[simp] theorem State.takeResult_slavePtr : (s.takeResult).slavePtr = s.slavePtr := rfl
@[simp] theorem State.takeResult_doneScript : (s.takeResult).doneScript = s.doneScript := rfl
@[simp] theorem State.takeResult_ackScript : (s.takeResult).ackScript = s.ackScript := rfl
@[simp] theorem State.takeResult_rxScript : (s.takeResult).rxScript = s.rxScript := rfl
@[simp] theorem State.takeResult_chipScript : (s.takeResult).chipScript = s.chipScript := rfl
@[simp] theorem State.takeResult_doneSeen : (s.takeResult).doneSeen = s.doneSeen := rfl
@[simp] theorem State.takeResult_ackSeen : (s.takeResult).ackSeen = s.ackSeen := rfl
@[simp] theorem State.takeResult_rxSeen : (s.takeResult).rxSeen = s.rxSeen := rfl
@[simp] theorem State.takeResult_chipSeen : (s.takeResult).chipSeen = s.chipSeen := rfl
@[simp] theorem State.takeResult_trace : (s.takeResult).trace = s.trace := rfl
@[simp] theorem State.takeResult_doneAnswer (n : Nat) : (s.takeResult).doneAnswer n = s.doneAnswer n := rfl
@[simp] theorem State.takeResult_ackAnswer (n : Nat) : (s.takeResult).ackAnswer n = s.ackAnswer n := rfl
@[simp] theorem State.takeResult_rxAnswer (n : Nat) : (s.takeResult).rxAnswer n = s.rxAnswer n := rfl
@[simp] theorem State.takeResult_chipAnswer (n : Nat) : (s.takeResult).chipAnswer n = s.chipAnswer n := rfl

/-! ### enter -/

@[simp] theorem State.enter_est (c : CodecState) : (s.enter c).est = s.est := rfl
@[simp] theorem State.enter_cst (c : CodecState) : (s.enter c).cst = c := rfl
@[simp] theorem State.enter_op (c : CodecState) : (s.enter c).op = s.op := rfl
@[simp] theorem State.enter_dev (c : CodecState) : (s.enter c).dev = s.dev := rfl
@[simp] theorem State.enter_reg (c : CodecState) : (s.enter c).reg = s.reg := rfl
@[simp] theorem State.enter_wdata (c : CodecState) : (s.enter c).wdata = s.wdata := rfl
@[simp] theorem State.enter_tDev (c : CodecState) : (s.enter c).tDev = s.tDev := rfl
@[simp] theorem State.enter_tReg (c : CodecState) : (s.enter c).tReg = s.tReg := rfl
@[simp] theorem State.enter_tWdata (c : CodecState) : (s.enter c).tWdata = s.tWdata := rfl
@[simp] theorem State.enter_tDir (c : CodecState) : (s.enter c).tDir = s.tDir := rfl
@[simp] theorem State.enter_rbyte (c : CodecState) : (s.enter c).rbyte = s.rbyte := rfl
@[simp] theorem State.enter_tResult (c : CodecState) : (s.enter c).tResult = s.tResult := rfl
@[simp] theorem State.enter_tStatus (c : CodecState) : (s.enter c).tStatus = s.tStatus := rfl
@[simp] theorem State.enter_tmp (c : CodecState) : (s.enter c).tmp = s.tmp := rfl
@[simp] theorem State.enter_firstFail (c : CodecState) : (s.enter c).firstFail = s.firstFail := rfl
@[simp] theorem State.enter_cnt (c : CodecState) : (s.enter c).cnt = s.cnt := rfl
@[simp] theorem State.enter_rspData (c : CodecState) : (s.enter c).rspData = s.rspData := rfl
@[simp] theorem State.enter_rspStatus (c : CodecState) : (s.enter c).rspStatus = s.rspStatus := rfl
@[simp] theorem State.enter_lReq (c : CodecState) : (s.enter c).lReq = s.lReq := rfl
@[simp] theorem State.enter_lTxByte (c : CodecState) : (s.enter c).lTxByte = s.lTxByte := rfl
@[simp] theorem State.enter_rst (c : CodecState) : (s.enter c).rst = s.rst := rfl
@[simp] theorem State.enter_commands (c : CodecState) : (s.enter c).commands = s.commands := rfl
@[simp] theorem State.enter_pollLimit (c : CodecState) : (s.enter c).pollLimit = s.pollLimit := rfl
@[simp] theorem State.enter_line (c : CodecState) : (s.enter c).line = s.line := rfl
@[simp] theorem State.enter_mem (c : CodecState) : (s.enter c).mem = s.mem := rfl
@[simp] theorem State.enter_slavePtr (c : CodecState) : (s.enter c).slavePtr = s.slavePtr := rfl
@[simp] theorem State.enter_doneScript (c : CodecState) : (s.enter c).doneScript = s.doneScript := rfl
@[simp] theorem State.enter_ackScript (c : CodecState) : (s.enter c).ackScript = s.ackScript := rfl
@[simp] theorem State.enter_rxScript (c : CodecState) : (s.enter c).rxScript = s.rxScript := rfl
@[simp] theorem State.enter_chipScript (c : CodecState) : (s.enter c).chipScript = s.chipScript := rfl
@[simp] theorem State.enter_doneSeen (c : CodecState) : (s.enter c).doneSeen = s.doneSeen := rfl
@[simp] theorem State.enter_ackSeen (c : CodecState) : (s.enter c).ackSeen = s.ackSeen := rfl
@[simp] theorem State.enter_rxSeen (c : CodecState) : (s.enter c).rxSeen = s.rxSeen := rfl
@[simp] theorem State.enter_chipSeen (c : CodecState) : (s.enter c).chipSeen = s.chipSeen := rfl
@[simp] theorem State.enter_trace (c : CodecState) : (s.enter c).trace = s.trace := rfl
@[simp] theorem State.enter_doneAnswer (c : CodecState) (n : Nat) : (s.enter c).doneAnswer n = s.doneAnswer n := rfl
@[simp] theorem State.enter_ackAnswer (c : CodecState) (n : Nat) : (s.enter c).ackAnswer n = s.ackAnswer n := rfl
@[simp] theorem State.enter_rxAnswer (c : CodecState) (n : Nat) : (s.enter c).rxAnswer n = s.rxAnswer n := rfl
@[simp] theorem State.enter_chipAnswer (c : CodecState) (n : Nat) : (s.enter c).chipAnswer n = s.chipAnswer n := rfl

/-! ### keepTmp -/

@[simp] theorem State.keepTmp_est (b : Byte) : (s.keepTmp b).est = s.est := rfl
@[simp] theorem State.keepTmp_cst (b : Byte) : (s.keepTmp b).cst = s.cst := rfl
@[simp] theorem State.keepTmp_op (b : Byte) : (s.keepTmp b).op = s.op := rfl
@[simp] theorem State.keepTmp_dev (b : Byte) : (s.keepTmp b).dev = s.dev := rfl
@[simp] theorem State.keepTmp_reg (b : Byte) : (s.keepTmp b).reg = s.reg := rfl
@[simp] theorem State.keepTmp_wdata (b : Byte) : (s.keepTmp b).wdata = s.wdata := rfl
@[simp] theorem State.keepTmp_tDev (b : Byte) : (s.keepTmp b).tDev = s.tDev := rfl
@[simp] theorem State.keepTmp_tReg (b : Byte) : (s.keepTmp b).tReg = s.tReg := rfl
@[simp] theorem State.keepTmp_tWdata (b : Byte) : (s.keepTmp b).tWdata = s.tWdata := rfl
@[simp] theorem State.keepTmp_tDir (b : Byte) : (s.keepTmp b).tDir = s.tDir := rfl
@[simp] theorem State.keepTmp_rbyte (b : Byte) : (s.keepTmp b).rbyte = s.rbyte := rfl
@[simp] theorem State.keepTmp_tResult (b : Byte) : (s.keepTmp b).tResult = s.tResult := rfl
@[simp] theorem State.keepTmp_tStatus (b : Byte) : (s.keepTmp b).tStatus = s.tStatus := rfl
@[simp] theorem State.keepTmp_tmp (b : Byte) : (s.keepTmp b).tmp = b := rfl
@[simp] theorem State.keepTmp_firstFail (b : Byte) : (s.keepTmp b).firstFail = s.firstFail := rfl
@[simp] theorem State.keepTmp_cnt (b : Byte) : (s.keepTmp b).cnt = s.cnt := rfl
@[simp] theorem State.keepTmp_rspData (b : Byte) : (s.keepTmp b).rspData = s.rspData := rfl
@[simp] theorem State.keepTmp_rspStatus (b : Byte) : (s.keepTmp b).rspStatus = s.rspStatus := rfl
@[simp] theorem State.keepTmp_lReq (b : Byte) : (s.keepTmp b).lReq = s.lReq := rfl
@[simp] theorem State.keepTmp_lTxByte (b : Byte) : (s.keepTmp b).lTxByte = s.lTxByte := rfl
@[simp] theorem State.keepTmp_rst (b : Byte) : (s.keepTmp b).rst = s.rst := rfl
@[simp] theorem State.keepTmp_commands (b : Byte) : (s.keepTmp b).commands = s.commands := rfl
@[simp] theorem State.keepTmp_pollLimit (b : Byte) : (s.keepTmp b).pollLimit = s.pollLimit := rfl
@[simp] theorem State.keepTmp_line (b : Byte) : (s.keepTmp b).line = s.line := rfl
@[simp] theorem State.keepTmp_mem (b : Byte) : (s.keepTmp b).mem = s.mem := rfl
@[simp] theorem State.keepTmp_slavePtr (b : Byte) : (s.keepTmp b).slavePtr = s.slavePtr := rfl
@[simp] theorem State.keepTmp_doneScript (b : Byte) : (s.keepTmp b).doneScript = s.doneScript := rfl
@[simp] theorem State.keepTmp_ackScript (b : Byte) : (s.keepTmp b).ackScript = s.ackScript := rfl
@[simp] theorem State.keepTmp_rxScript (b : Byte) : (s.keepTmp b).rxScript = s.rxScript := rfl
@[simp] theorem State.keepTmp_chipScript (b : Byte) : (s.keepTmp b).chipScript = s.chipScript := rfl
@[simp] theorem State.keepTmp_doneSeen (b : Byte) : (s.keepTmp b).doneSeen = s.doneSeen := rfl
@[simp] theorem State.keepTmp_ackSeen (b : Byte) : (s.keepTmp b).ackSeen = s.ackSeen := rfl
@[simp] theorem State.keepTmp_rxSeen (b : Byte) : (s.keepTmp b).rxSeen = s.rxSeen := rfl
@[simp] theorem State.keepTmp_chipSeen (b : Byte) : (s.keepTmp b).chipSeen = s.chipSeen := rfl
@[simp] theorem State.keepTmp_trace (b : Byte) : (s.keepTmp b).trace = s.trace := rfl
@[simp] theorem State.keepTmp_doneAnswer (b : Byte) (n : Nat) : (s.keepTmp b).doneAnswer n = s.doneAnswer n := rfl
@[simp] theorem State.keepTmp_ackAnswer (b : Byte) (n : Nat) : (s.keepTmp b).ackAnswer n = s.ackAnswer n := rfl
@[simp] theorem State.keepTmp_rxAnswer (b : Byte) (n : Nat) : (s.keepTmp b).rxAnswer n = s.rxAnswer n := rfl
@[simp] theorem State.keepTmp_chipAnswer (b : Byte) (n : Nat) : (s.keepTmp b).chipAnswer n = s.chipAnswer n := rfl

/-! ### stuck -/

@[simp] theorem State.stuck_est : (s.stuck).est = s.est := rfl
@[simp] theorem State.stuck_cst : (s.stuck).cst = s.cst := rfl
@[simp] theorem State.stuck_op : (s.stuck).op = s.op := rfl
@[simp] theorem State.stuck_dev : (s.stuck).dev = s.dev := rfl
@[simp] theorem State.stuck_reg : (s.stuck).reg = s.reg := rfl
@[simp] theorem State.stuck_wdata : (s.stuck).wdata = s.wdata := rfl
@[simp] theorem State.stuck_tDev : (s.stuck).tDev = s.tDev := rfl
@[simp] theorem State.stuck_tReg : (s.stuck).tReg = s.tReg := rfl
@[simp] theorem State.stuck_tWdata : (s.stuck).tWdata = s.tWdata := rfl
@[simp] theorem State.stuck_tDir : (s.stuck).tDir = s.tDir := rfl
@[simp] theorem State.stuck_rbyte : (s.stuck).rbyte = s.rbyte := rfl
@[simp] theorem State.stuck_tResult : (s.stuck).tResult = s.tResult := rfl
@[simp] theorem State.stuck_tStatus : (s.stuck).tStatus = s.tStatus := rfl
@[simp] theorem State.stuck_tmp : (s.stuck).tmp = s.tmp := rfl
@[simp] theorem State.stuck_firstFail : (s.stuck).firstFail = s.firstFail := rfl
@[simp] theorem State.stuck_cnt : (s.stuck).cnt = s.cnt := rfl
@[simp] theorem State.stuck_rspData : (s.stuck).rspData = s.rspData := rfl
@[simp] theorem State.stuck_rspStatus : (s.stuck).rspStatus = s.rspStatus := rfl
@[simp] theorem State.stuck_lReq : (s.stuck).lReq = .none := rfl
@[simp] theorem State.stuck_lTxByte : (s.stuck).lTxByte = s.lTxByte := rfl
@[simp] theorem State.stuck_rst : (s.stuck).rst = s.rst := rfl
@[simp] theorem State.stuck_commands : (s.stuck).commands = s.commands := rfl
@[simp] theorem State.stuck_pollLimit : (s.stuck).pollLimit = s.pollLimit := rfl
@[simp] theorem State.stuck_line : (s.stuck).line = s.line := rfl
@[simp] theorem State.stuck_mem : (s.stuck).mem = s.mem := rfl
@[simp] theorem State.stuck_slavePtr : (s.stuck).slavePtr = s.slavePtr := rfl
@[simp] theorem State.stuck_doneScript : (s.stuck).doneScript = s.doneScript := rfl
@[simp] theorem State.stuck_ackScript : (s.stuck).ackScript = s.ackScript := rfl
@[simp] theorem State.stuck_rxScript : (s.stuck).rxScript = s.rxScript := rfl
@[simp] theorem State.stuck_chipScript : (s.stuck).chipScript = s.chipScript := rfl
@[simp] theorem State.stuck_doneSeen : (s.stuck).doneSeen = s.doneSeen := rfl
@[simp] theorem State.stuck_ackSeen : (s.stuck).ackSeen = s.ackSeen := rfl
@[simp] theorem State.stuck_rxSeen : (s.stuck).rxSeen = s.rxSeen := rfl
@[simp] theorem State.stuck_chipSeen : (s.stuck).chipSeen = s.chipSeen := rfl
@[simp] theorem State.stuck_trace : (s.stuck).trace = s.trace := rfl
@[simp] theorem State.stuck_doneAnswer (n : Nat) : (s.stuck).doneAnswer n = s.doneAnswer n := rfl
@[simp] theorem State.stuck_ackAnswer (n : Nat) : (s.stuck).ackAnswer n = s.ackAnswer n := rfl
@[simp] theorem State.stuck_rxAnswer (n : Nat) : (s.stuck).rxAnswer n = s.rxAnswer n := rfl
@[simp] theorem State.stuck_chipAnswer (n : Nat) : (s.stuck).chipAnswer n = s.chipAnswer n := rfl

/-! ### wait -/

@[simp] theorem State.wait_est : (s.wait).est = s.est := rfl
@[simp] theorem State.wait_cst : (s.wait).cst = s.cst := rfl
@[simp] theorem State.wait_op : (s.wait).op = s.op := rfl
@[simp] theorem State.wait_dev : (s.wait).dev = s.dev := rfl
@[simp] theorem State.wait_reg : (s.wait).reg = s.reg := rfl
@[simp] theorem State.wait_wdata : (s.wait).wdata = s.wdata := rfl
@[simp] theorem State.wait_tDev : (s.wait).tDev = s.tDev := rfl
@[simp] theorem State.wait_tReg : (s.wait).tReg = s.tReg := rfl
@[simp] theorem State.wait_tWdata : (s.wait).tWdata = s.tWdata := rfl
@[simp] theorem State.wait_tDir : (s.wait).tDir = s.tDir := rfl
@[simp] theorem State.wait_rbyte : (s.wait).rbyte = s.rbyte := rfl
@[simp] theorem State.wait_tResult : (s.wait).tResult = s.tResult := rfl
@[simp] theorem State.wait_tStatus : (s.wait).tStatus = s.tStatus := rfl
@[simp] theorem State.wait_tmp : (s.wait).tmp = s.tmp := rfl
@[simp] theorem State.wait_firstFail : (s.wait).firstFail = s.firstFail := rfl
@[simp] theorem State.wait_cnt : (s.wait).cnt = s.cnt := rfl
@[simp] theorem State.wait_rspData : (s.wait).rspData = s.rspData := rfl
@[simp] theorem State.wait_rspStatus : (s.wait).rspStatus = s.rspStatus := rfl
@[simp] theorem State.wait_lReq : (s.wait).lReq = .none := rfl
@[simp] theorem State.wait_lTxByte : (s.wait).lTxByte = s.lTxByte := rfl
@[simp] theorem State.wait_rst : (s.wait).rst = s.rst := rfl
@[simp] theorem State.wait_commands : (s.wait).commands = s.commands := rfl
@[simp] theorem State.wait_pollLimit : (s.wait).pollLimit = s.pollLimit := rfl
@[simp] theorem State.wait_line : (s.wait).line = s.line.tick := rfl
@[simp] theorem State.wait_mem : (s.wait).mem = s.mem := rfl
@[simp] theorem State.wait_slavePtr : (s.wait).slavePtr = s.slavePtr := rfl
@[simp] theorem State.wait_doneScript : (s.wait).doneScript = s.doneScript := rfl
@[simp] theorem State.wait_ackScript : (s.wait).ackScript = s.ackScript := rfl
@[simp] theorem State.wait_rxScript : (s.wait).rxScript = s.rxScript := rfl
@[simp] theorem State.wait_chipScript : (s.wait).chipScript = s.chipScript := rfl
@[simp] theorem State.wait_doneSeen : (s.wait).doneSeen = s.doneSeen := rfl
@[simp] theorem State.wait_ackSeen : (s.wait).ackSeen = s.ackSeen := rfl
@[simp] theorem State.wait_rxSeen : (s.wait).rxSeen = s.rxSeen := rfl
@[simp] theorem State.wait_chipSeen : (s.wait).chipSeen = s.chipSeen := rfl
@[simp] theorem State.wait_trace : (s.wait).trace = s.trace := rfl
@[simp] theorem State.wait_doneAnswer (n : Nat) : (s.wait).doneAnswer n = s.doneAnswer n := rfl
@[simp] theorem State.wait_ackAnswer (n : Nat) : (s.wait).ackAnswer n = s.ackAnswer n := rfl
@[simp] theorem State.wait_rxAnswer (n : Nat) : (s.wait).rxAnswer n = s.rxAnswer n := rfl
@[simp] theorem State.wait_chipAnswer (n : Nat) : (s.wait).chipAnswer n = s.chipAnswer n := rfl

/-! ### latchEW -/

@[simp] theorem latchEW_est (op : BitVec 6) (d : DevAddr) (r v : Byte) : (latchEW op d r v s).est = s.est := rfl
@[simp] theorem latchEW_cst (op : BitVec 6) (d : DevAddr) (r v : Byte) : (latchEW op d r v s).cst = s.cst := rfl
@[simp] theorem latchEW_op (op : BitVec 6) (d : DevAddr) (r v : Byte) : (latchEW op d r v s).op = op := rfl
@[simp] theorem latchEW_dev (op : BitVec 6) (d : DevAddr) (r v : Byte) : (latchEW op d r v s).dev = d := rfl
@[simp] theorem latchEW_reg (op : BitVec 6) (d : DevAddr) (r v : Byte) : (latchEW op d r v s).reg = r := rfl
@[simp] theorem latchEW_wdata (op : BitVec 6) (d : DevAddr) (r v : Byte) : (latchEW op d r v s).wdata = v := rfl
@[simp] theorem latchEW_tDev (op : BitVec 6) (d : DevAddr) (r v : Byte) : (latchEW op d r v s).tDev = s.tDev := rfl
@[simp] theorem latchEW_tReg (op : BitVec 6) (d : DevAddr) (r v : Byte) : (latchEW op d r v s).tReg = s.tReg := rfl
@[simp] theorem latchEW_tWdata (op : BitVec 6) (d : DevAddr) (r v : Byte) : (latchEW op d r v s).tWdata = s.tWdata := rfl
@[simp] theorem latchEW_tDir (op : BitVec 6) (d : DevAddr) (r v : Byte) : (latchEW op d r v s).tDir = s.tDir := rfl
@[simp] theorem latchEW_rbyte (op : BitVec 6) (d : DevAddr) (r v : Byte) : (latchEW op d r v s).rbyte = s.rbyte := rfl
@[simp] theorem latchEW_tResult (op : BitVec 6) (d : DevAddr) (r v : Byte) : (latchEW op d r v s).tResult = s.tResult := rfl
@[simp] theorem latchEW_tStatus (op : BitVec 6) (d : DevAddr) (r v : Byte) : (latchEW op d r v s).tStatus = s.tStatus := rfl
@[simp] theorem latchEW_tmp (op : BitVec 6) (d : DevAddr) (r v : Byte) : (latchEW op d r v s).tmp = s.tmp := rfl
@[simp] theorem latchEW_firstFail (op : BitVec 6) (d : DevAddr) (r v : Byte) : (latchEW op d r v s).firstFail = s.firstFail := rfl
@[simp] theorem latchEW_cnt (op : BitVec 6) (d : DevAddr) (r v : Byte) : (latchEW op d r v s).cnt = s.cnt := rfl
@[simp] theorem latchEW_rspData (op : BitVec 6) (d : DevAddr) (r v : Byte) : (latchEW op d r v s).rspData = s.rspData := rfl
@[simp] theorem latchEW_rspStatus (op : BitVec 6) (d : DevAddr) (r v : Byte) : (latchEW op d r v s).rspStatus = s.rspStatus := rfl
@[simp] theorem latchEW_lReq (op : BitVec 6) (d : DevAddr) (r v : Byte) : (latchEW op d r v s).lReq = s.lReq := rfl
@[simp] theorem latchEW_lTxByte (op : BitVec 6) (d : DevAddr) (r v : Byte) : (latchEW op d r v s).lTxByte = s.lTxByte := rfl
@[simp] theorem latchEW_rst (op : BitVec 6) (d : DevAddr) (r v : Byte) : (latchEW op d r v s).rst = s.rst := rfl
@[simp] theorem latchEW_commands (op : BitVec 6) (d : DevAddr) (r v : Byte) : (latchEW op d r v s).commands = s.commands := rfl
@[simp] theorem latchEW_pollLimit (op : BitVec 6) (d : DevAddr) (r v : Byte) : (latchEW op d r v s).pollLimit = s.pollLimit := rfl
@[simp] theorem latchEW_line (op : BitVec 6) (d : DevAddr) (r v : Byte) : (latchEW op d r v s).line = s.line := rfl
@[simp] theorem latchEW_mem (op : BitVec 6) (d : DevAddr) (r v : Byte) : (latchEW op d r v s).mem = s.mem := rfl
@[simp] theorem latchEW_slavePtr (op : BitVec 6) (d : DevAddr) (r v : Byte) : (latchEW op d r v s).slavePtr = s.slavePtr := rfl
@[simp] theorem latchEW_doneScript (op : BitVec 6) (d : DevAddr) (r v : Byte) : (latchEW op d r v s).doneScript = s.doneScript := rfl
@[simp] theorem latchEW_ackScript (op : BitVec 6) (d : DevAddr) (r v : Byte) : (latchEW op d r v s).ackScript = s.ackScript := rfl
@[simp] theorem latchEW_rxScript (op : BitVec 6) (d : DevAddr) (r v : Byte) : (latchEW op d r v s).rxScript = s.rxScript := rfl
@[simp] theorem latchEW_chipScript (op : BitVec 6) (d : DevAddr) (r v : Byte) : (latchEW op d r v s).chipScript = s.chipScript := rfl
@[simp] theorem latchEW_doneSeen (op : BitVec 6) (d : DevAddr) (r v : Byte) : (latchEW op d r v s).doneSeen = s.doneSeen := rfl
@[simp] theorem latchEW_ackSeen (op : BitVec 6) (d : DevAddr) (r v : Byte) : (latchEW op d r v s).ackSeen = s.ackSeen := rfl
@[simp] theorem latchEW_rxSeen (op : BitVec 6) (d : DevAddr) (r v : Byte) : (latchEW op d r v s).rxSeen = s.rxSeen := rfl
@[simp] theorem latchEW_chipSeen (op : BitVec 6) (d : DevAddr) (r v : Byte) : (latchEW op d r v s).chipSeen = s.chipSeen := rfl
@[simp] theorem latchEW_trace (op : BitVec 6) (d : DevAddr) (r v : Byte) : (latchEW op d r v s).trace = s.trace := rfl
@[simp] theorem latchEW_doneAnswer (op : BitVec 6) (d : DevAddr) (r v : Byte) (n : Nat) : (latchEW op d r v s).doneAnswer n = s.doneAnswer n := rfl
@[simp] theorem latchEW_ackAnswer (op : BitVec 6) (d : DevAddr) (r v : Byte) (n : Nat) : (latchEW op d r v s).ackAnswer n = s.ackAnswer n := rfl
@[simp] theorem latchEW_rxAnswer (op : BitVec 6) (d : DevAddr) (r v : Byte) (n : Nat) : (latchEW op d r v s).rxAnswer n = s.rxAnswer n := rfl
@[simp] theorem latchEW_chipAnswer (op : BitVec 6) (d : DevAddr) (r v : Byte) (n : Nat) : (latchEW op d r v s).chipAnswer n = s.chipAnswer n := rfl

/-! ### latchER -/

@[simp] theorem latchER_est (op : BitVec 6) (d : DevAddr) (r : Byte) : (latchER op d r s).est = s.est := rfl
@[simp] theorem latchER_cst (op : BitVec 6) (d : DevAddr) (r : Byte) : (latchER op d r s).cst = s.cst := rfl
@[simp] theorem latchER_op (op : BitVec 6) (d : DevAddr) (r : Byte) : (latchER op d r s).op = op := rfl
@[simp] theorem latchER_dev (op : BitVec 6) (d : DevAddr) (r : Byte) : (latchER op d r s).dev = d := rfl
@[simp] theorem latchER_reg (op : BitVec 6) (d : DevAddr) (r : Byte) : (latchER op d r s).reg = r := rfl
@[simp] theorem latchER_wdata (op : BitVec 6) (d : DevAddr) (r : Byte) : (latchER op d r s).wdata = s.wdata := rfl
@[simp] theorem latchER_tDev (op : BitVec 6) (d : DevAddr) (r : Byte) : (latchER op d r s).tDev = s.tDev := rfl
@[simp] theorem latchER_tReg (op : BitVec 6) (d : DevAddr) (r : Byte) : (latchER op d r s).tReg = s.tReg := rfl
@[simp] theorem latchER_tWdata (op : BitVec 6) (d : DevAddr) (r : Byte) : (latchER op d r s).tWdata = s.tWdata := rfl
@[simp] theorem latchER_tDir (op : BitVec 6) (d : DevAddr) (r : Byte) : (latchER op d r s).tDir = s.tDir := rfl
@[simp] theorem latchER_rbyte (op : BitVec 6) (d : DevAddr) (r : Byte) : (latchER op d r s).rbyte = s.rbyte := rfl
@[simp] theorem latchER_tResult (op : BitVec 6) (d : DevAddr) (r : Byte) : (latchER op d r s).tResult = s.tResult := rfl
@[simp] theorem latchER_tStatus (op : BitVec 6) (d : DevAddr) (r : Byte) : (latchER op d r s).tStatus = s.tStatus := rfl
@[simp] theorem latchER_tmp (op : BitVec 6) (d : DevAddr) (r : Byte) : (latchER op d r s).tmp = s.tmp := rfl
@[simp] theorem latchER_firstFail (op : BitVec 6) (d : DevAddr) (r : Byte) : (latchER op d r s).firstFail = s.firstFail := rfl
@[simp] theorem latchER_cnt (op : BitVec 6) (d : DevAddr) (r : Byte) : (latchER op d r s).cnt = s.cnt := rfl
@[simp] theorem latchER_rspData (op : BitVec 6) (d : DevAddr) (r : Byte) : (latchER op d r s).rspData = s.rspData := rfl
@[simp] theorem latchER_rspStatus (op : BitVec 6) (d : DevAddr) (r : Byte) : (latchER op d r s).rspStatus = s.rspStatus := rfl
@[simp] theorem latchER_lReq (op : BitVec 6) (d : DevAddr) (r : Byte) : (latchER op d r s).lReq = s.lReq := rfl
@[simp] theorem latchER_lTxByte (op : BitVec 6) (d : DevAddr) (r : Byte) : (latchER op d r s).lTxByte = s.lTxByte := rfl
@[simp] theorem latchER_rst (op : BitVec 6) (d : DevAddr) (r : Byte) : (latchER op d r s).rst = s.rst := rfl
@[simp] theorem latchER_commands (op : BitVec 6) (d : DevAddr) (r : Byte) : (latchER op d r s).commands = s.commands := rfl
@[simp] theorem latchER_pollLimit (op : BitVec 6) (d : DevAddr) (r : Byte) : (latchER op d r s).pollLimit = s.pollLimit := rfl
@[simp] theorem latchER_line (op : BitVec 6) (d : DevAddr) (r : Byte) : (latchER op d r s).line = s.line := rfl
@[simp] theorem latchER_mem (op : BitVec 6) (d : DevAddr) (r : Byte) : (latchER op d r s).mem = s.mem := rfl
@[simp] theorem latchER_slavePtr (op : BitVec 6) (d : DevAddr) (r : Byte) : (latchER op d r s).slavePtr = s.slavePtr := rfl
@[simp] theorem latchER_doneScript (op : BitVec 6) (d : DevAddr) (r : Byte) : (latchER op d r s).doneScript = s.doneScript := rfl
@[simp] theorem latchER_ackScript (op : BitVec 6) (d : DevAddr) (r : Byte) : (latchER op d r s).ackScript = s.ackScript := rfl
@[simp] theorem latchER_rxScript (op : BitVec 6) (d : DevAddr) (r : Byte) : (latchER op d r s).rxScript = s.rxScript := rfl
@[simp] theorem latchER_chipScript (op : BitVec 6) (d : DevAddr) (r : Byte) : (latchER op d r s).chipScript = s.chipScript := rfl
@[simp] theorem latchER_doneSeen (op : BitVec 6) (d : DevAddr) (r : Byte) : (latchER op d r s).doneSeen = s.doneSeen := rfl
@[simp] theorem latchER_ackSeen (op : BitVec 6) (d : DevAddr) (r : Byte) : (latchER op d r s).ackSeen = s.ackSeen := rfl
@[simp] theorem latchER_rxSeen (op : BitVec 6) (d : DevAddr) (r : Byte) : (latchER op d r s).rxSeen = s.rxSeen := rfl
@[simp] theorem latchER_chipSeen (op : BitVec 6) (d : DevAddr) (r : Byte) : (latchER op d r s).chipSeen = s.chipSeen := rfl
@[simp] theorem latchER_trace (op : BitVec 6) (d : DevAddr) (r : Byte) : (latchER op d r s).trace = s.trace := rfl
@[simp] theorem latchER_doneAnswer (op : BitVec 6) (d : DevAddr) (r : Byte) (n : Nat) : (latchER op d r s).doneAnswer n = s.doneAnswer n := rfl
@[simp] theorem latchER_ackAnswer (op : BitVec 6) (d : DevAddr) (r : Byte) (n : Nat) : (latchER op d r s).ackAnswer n = s.ackAnswer n := rfl
@[simp] theorem latchER_rxAnswer (op : BitVec 6) (d : DevAddr) (r : Byte) (n : Nat) : (latchER op d r s).rxAnswer n = s.rxAnswer n := rfl
@[simp] theorem latchER_chipAnswer (op : BitVec 6) (d : DevAddr) (r : Byte) (n : Nat) : (latchER op d r s).chipAnswer n = s.chipAnswer n := rfl

/-! ### latchN -/

@[simp] theorem latchN_est (op : BitVec 6) : (latchN op s).est = s.est := rfl
@[simp] theorem latchN_cst (op : BitVec 6) : (latchN op s).cst = s.cst := rfl
@[simp] theorem latchN_op (op : BitVec 6) : (latchN op s).op = op := rfl
@[simp] theorem latchN_dev (op : BitVec 6) : (latchN op s).dev = s.dev := rfl
@[simp] theorem latchN_reg (op : BitVec 6) : (latchN op s).reg = s.reg := rfl
@[simp] theorem latchN_wdata (op : BitVec 6) : (latchN op s).wdata = s.wdata := rfl
@[simp] theorem latchN_tDev (op : BitVec 6) : (latchN op s).tDev = s.tDev := rfl
@[simp] theorem latchN_tReg (op : BitVec 6) : (latchN op s).tReg = s.tReg := rfl
@[simp] theorem latchN_tWdata (op : BitVec 6) : (latchN op s).tWdata = s.tWdata := rfl
@[simp] theorem latchN_tDir (op : BitVec 6) : (latchN op s).tDir = s.tDir := rfl
@[simp] theorem latchN_rbyte (op : BitVec 6) : (latchN op s).rbyte = s.rbyte := rfl
@[simp] theorem latchN_tResult (op : BitVec 6) : (latchN op s).tResult = s.tResult := rfl
@[simp] theorem latchN_tStatus (op : BitVec 6) : (latchN op s).tStatus = s.tStatus := rfl
@[simp] theorem latchN_tmp (op : BitVec 6) : (latchN op s).tmp = s.tmp := rfl
@[simp] theorem latchN_firstFail (op : BitVec 6) : (latchN op s).firstFail = s.firstFail := rfl
@[simp] theorem latchN_cnt (op : BitVec 6) : (latchN op s).cnt = s.cnt := rfl
@[simp] theorem latchN_rspData (op : BitVec 6) : (latchN op s).rspData = s.rspData := rfl
@[simp] theorem latchN_rspStatus (op : BitVec 6) : (latchN op s).rspStatus = s.rspStatus := rfl
@[simp] theorem latchN_lReq (op : BitVec 6) : (latchN op s).lReq = s.lReq := rfl
@[simp] theorem latchN_lTxByte (op : BitVec 6) : (latchN op s).lTxByte = s.lTxByte := rfl
@[simp] theorem latchN_rst (op : BitVec 6) : (latchN op s).rst = s.rst := rfl
@[simp] theorem latchN_commands (op : BitVec 6) : (latchN op s).commands = s.commands := rfl
@[simp] theorem latchN_pollLimit (op : BitVec 6) : (latchN op s).pollLimit = s.pollLimit := rfl
@[simp] theorem latchN_line (op : BitVec 6) : (latchN op s).line = s.line := rfl
@[simp] theorem latchN_mem (op : BitVec 6) : (latchN op s).mem = s.mem := rfl
@[simp] theorem latchN_slavePtr (op : BitVec 6) : (latchN op s).slavePtr = s.slavePtr := rfl
@[simp] theorem latchN_doneScript (op : BitVec 6) : (latchN op s).doneScript = s.doneScript := rfl
@[simp] theorem latchN_ackScript (op : BitVec 6) : (latchN op s).ackScript = s.ackScript := rfl
@[simp] theorem latchN_rxScript (op : BitVec 6) : (latchN op s).rxScript = s.rxScript := rfl
@[simp] theorem latchN_chipScript (op : BitVec 6) : (latchN op s).chipScript = s.chipScript := rfl
@[simp] theorem latchN_doneSeen (op : BitVec 6) : (latchN op s).doneSeen = s.doneSeen := rfl
@[simp] theorem latchN_ackSeen (op : BitVec 6) : (latchN op s).ackSeen = s.ackSeen := rfl
@[simp] theorem latchN_rxSeen (op : BitVec 6) : (latchN op s).rxSeen = s.rxSeen := rfl
@[simp] theorem latchN_chipSeen (op : BitVec 6) : (latchN op s).chipSeen = s.chipSeen := rfl
@[simp] theorem latchN_trace (op : BitVec 6) : (latchN op s).trace = s.trace := rfl
@[simp] theorem latchN_doneAnswer (op : BitVec 6) (n : Nat) : (latchN op s).doneAnswer n = s.doneAnswer n := rfl
@[simp] theorem latchN_ackAnswer (op : BitVec 6) (n : Nat) : (latchN op s).ackAnswer n = s.ackAnswer n := rfl
@[simp] theorem latchN_rxAnswer (op : BitVec 6) (n : Nat) : (latchN op s).rxAnswer n = s.rxAnswer n := rfl
@[simp] theorem latchN_chipAnswer (op : BitVec 6) (n : Nat) : (latchN op s).chipAnswer n = s.chipAnswer n := rfl

/-! ### latchV -/

@[simp] theorem latchV_est (op : BitVec 6) (v : Byte) : (latchV op v s).est = s.est := rfl
@[simp] theorem latchV_cst (op : BitVec 6) (v : Byte) : (latchV op v s).cst = s.cst := rfl
@[simp] theorem latchV_op (op : BitVec 6) (v : Byte) : (latchV op v s).op = op := rfl
@[simp] theorem latchV_dev (op : BitVec 6) (v : Byte) : (latchV op v s).dev = s.dev := rfl
@[simp] theorem latchV_reg (op : BitVec 6) (v : Byte) : (latchV op v s).reg = s.reg := rfl
@[simp] theorem latchV_wdata (op : BitVec 6) (v : Byte) : (latchV op v s).wdata = v := rfl
@[simp] theorem latchV_tDev (op : BitVec 6) (v : Byte) : (latchV op v s).tDev = s.tDev := rfl
@[simp] theorem latchV_tReg (op : BitVec 6) (v : Byte) : (latchV op v s).tReg = s.tReg := rfl
@[simp] theorem latchV_tWdata (op : BitVec 6) (v : Byte) : (latchV op v s).tWdata = s.tWdata := rfl
@[simp] theorem latchV_tDir (op : BitVec 6) (v : Byte) : (latchV op v s).tDir = s.tDir := rfl
@[simp] theorem latchV_rbyte (op : BitVec 6) (v : Byte) : (latchV op v s).rbyte = s.rbyte := rfl
@[simp] theorem latchV_tResult (op : BitVec 6) (v : Byte) : (latchV op v s).tResult = s.tResult := rfl
@[simp] theorem latchV_tStatus (op : BitVec 6) (v : Byte) : (latchV op v s).tStatus = s.tStatus := rfl
@[simp] theorem latchV_tmp (op : BitVec 6) (v : Byte) : (latchV op v s).tmp = s.tmp := rfl
@[simp] theorem latchV_firstFail (op : BitVec 6) (v : Byte) : (latchV op v s).firstFail = s.firstFail := rfl
@[simp] theorem latchV_cnt (op : BitVec 6) (v : Byte) : (latchV op v s).cnt = s.cnt := rfl
@[simp] theorem latchV_rspData (op : BitVec 6) (v : Byte) : (latchV op v s).rspData = s.rspData := rfl
@[simp] theorem latchV_rspStatus (op : BitVec 6) (v : Byte) : (latchV op v s).rspStatus = s.rspStatus := rfl
@[simp] theorem latchV_lReq (op : BitVec 6) (v : Byte) : (latchV op v s).lReq = s.lReq := rfl
@[simp] theorem latchV_lTxByte (op : BitVec 6) (v : Byte) : (latchV op v s).lTxByte = s.lTxByte := rfl
@[simp] theorem latchV_rst (op : BitVec 6) (v : Byte) : (latchV op v s).rst = s.rst := rfl
@[simp] theorem latchV_commands (op : BitVec 6) (v : Byte) : (latchV op v s).commands = s.commands := rfl
@[simp] theorem latchV_pollLimit (op : BitVec 6) (v : Byte) : (latchV op v s).pollLimit = s.pollLimit := rfl
@[simp] theorem latchV_line (op : BitVec 6) (v : Byte) : (latchV op v s).line = s.line := rfl
@[simp] theorem latchV_mem (op : BitVec 6) (v : Byte) : (latchV op v s).mem = s.mem := rfl
@[simp] theorem latchV_slavePtr (op : BitVec 6) (v : Byte) : (latchV op v s).slavePtr = s.slavePtr := rfl
@[simp] theorem latchV_doneScript (op : BitVec 6) (v : Byte) : (latchV op v s).doneScript = s.doneScript := rfl
@[simp] theorem latchV_ackScript (op : BitVec 6) (v : Byte) : (latchV op v s).ackScript = s.ackScript := rfl
@[simp] theorem latchV_rxScript (op : BitVec 6) (v : Byte) : (latchV op v s).rxScript = s.rxScript := rfl
@[simp] theorem latchV_chipScript (op : BitVec 6) (v : Byte) : (latchV op v s).chipScript = s.chipScript := rfl
@[simp] theorem latchV_doneSeen (op : BitVec 6) (v : Byte) : (latchV op v s).doneSeen = s.doneSeen := rfl
@[simp] theorem latchV_ackSeen (op : BitVec 6) (v : Byte) : (latchV op v s).ackSeen = s.ackSeen := rfl
@[simp] theorem latchV_rxSeen (op : BitVec 6) (v : Byte) : (latchV op v s).rxSeen = s.rxSeen := rfl
@[simp] theorem latchV_chipSeen (op : BitVec 6) (v : Byte) : (latchV op v s).chipSeen = s.chipSeen := rfl
@[simp] theorem latchV_trace (op : BitVec 6) (v : Byte) : (latchV op v s).trace = s.trace := rfl
@[simp] theorem latchV_doneAnswer (op : BitVec 6) (v : Byte) (n : Nat) : (latchV op v s).doneAnswer n = s.doneAnswer n := rfl
@[simp] theorem latchV_ackAnswer (op : BitVec 6) (v : Byte) (n : Nat) : (latchV op v s).ackAnswer n = s.ackAnswer n := rfl
@[simp] theorem latchV_rxAnswer (op : BitVec 6) (v : Byte) (n : Nat) : (latchV op v s).rxAnswer n = s.rxAnswer n := rfl
@[simp] theorem latchV_chipAnswer (op : BitVec 6) (v : Byte) (n : Nat) : (latchV op v s).chipAnswer n = s.chipAnswer n := rfl

/-! ### afterRead -/

@[simp] theorem State.afterRead_est (d : DevAddr) (r : Byte) : (s.afterRead d r).est = s.est := rfl
@[simp] theorem State.afterRead_cst (d : DevAddr) (r : Byte) : (s.afterRead d r).cst = s.cst := rfl
@[simp] theorem State.afterRead_op (d : DevAddr) (r : Byte) : (s.afterRead d r).op = s.op := rfl
@[simp] theorem State.afterRead_dev (d : DevAddr) (r : Byte) : (s.afterRead d r).dev = s.dev := rfl
@[simp] theorem State.afterRead_reg (d : DevAddr) (r : Byte) : (s.afterRead d r).reg = s.reg := rfl
@[simp] theorem State.afterRead_wdata (d : DevAddr) (r : Byte) : (s.afterRead d r).wdata = s.wdata := rfl
@[simp] theorem State.afterRead_tDev (d : DevAddr) (r : Byte) : (s.afterRead d r).tDev = s.tDev := rfl
@[simp] theorem State.afterRead_tReg (d : DevAddr) (r : Byte) : (s.afterRead d r).tReg = s.tReg := rfl
@[simp] theorem State.afterRead_tWdata (d : DevAddr) (r : Byte) : (s.afterRead d r).tWdata = s.tWdata := rfl
@[simp] theorem State.afterRead_tDir (d : DevAddr) (r : Byte) : (s.afterRead d r).tDir = s.tDir := rfl
@[simp] theorem State.afterRead_rbyte (d : DevAddr) (r : Byte) : (s.afterRead d r).rbyte = s.rbyte := rfl
@[simp] theorem State.afterRead_tResult (d : DevAddr) (r : Byte) : (s.afterRead d r).tResult = s.tResult := rfl
@[simp] theorem State.afterRead_tStatus (d : DevAddr) (r : Byte) : (s.afterRead d r).tStatus = s.tStatus := rfl
@[simp] theorem State.afterRead_tmp (d : DevAddr) (r : Byte) : (s.afterRead d r).tmp = s.tmp := rfl
@[simp] theorem State.afterRead_firstFail (d : DevAddr) (r : Byte) : (s.afterRead d r).firstFail = s.firstFail := rfl
@[simp] theorem State.afterRead_cnt (d : DevAddr) (r : Byte) : (s.afterRead d r).cnt = s.cnt := rfl
@[simp] theorem State.afterRead_rspData (d : DevAddr) (r : Byte) : (s.afterRead d r).rspData = s.rspData := rfl
@[simp] theorem State.afterRead_rspStatus (d : DevAddr) (r : Byte) : (s.afterRead d r).rspStatus = s.rspStatus := rfl
@[simp] theorem State.afterRead_lReq (d : DevAddr) (r : Byte) : (s.afterRead d r).lReq = s.lReq := rfl
@[simp] theorem State.afterRead_lTxByte (d : DevAddr) (r : Byte) : (s.afterRead d r).lTxByte = s.lTxByte := rfl
@[simp] theorem State.afterRead_rst (d : DevAddr) (r : Byte) : (s.afterRead d r).rst = s.rst := rfl
@[simp] theorem State.afterRead_commands (d : DevAddr) (r : Byte) : (s.afterRead d r).commands = s.commands := rfl
@[simp] theorem State.afterRead_pollLimit (d : DevAddr) (r : Byte) : (s.afterRead d r).pollLimit = s.pollLimit := rfl
@[simp] theorem State.afterRead_line (d : DevAddr) (r : Byte) : (s.afterRead d r).line = s.line := rfl
@[simp] theorem State.afterRead_mem (d : DevAddr) (r : Byte) : (s.afterRead d r).mem = s.nextMem := rfl
@[simp] theorem State.afterRead_slavePtr (d : DevAddr) (r : Byte) : (s.afterRead d r).slavePtr = s.slavePtr := rfl
@[simp] theorem State.afterRead_doneScript (d : DevAddr) (r : Byte) : (s.afterRead d r).doneScript = s.doneScript := rfl
@[simp] theorem State.afterRead_ackScript (d : DevAddr) (r : Byte) : (s.afterRead d r).ackScript = s.ackScript := rfl
@[simp] theorem State.afterRead_rxScript (d : DevAddr) (r : Byte) : (s.afterRead d r).rxScript = s.rxScript := rfl
@[simp] theorem State.afterRead_chipScript (d : DevAddr) (r : Byte) : (s.afterRead d r).chipScript = s.chipScript := rfl
@[simp] theorem State.afterRead_doneSeen (d : DevAddr) (r : Byte) : (s.afterRead d r).doneSeen = s.doneSeen := rfl
@[simp] theorem State.afterRead_ackSeen (d : DevAddr) (r : Byte) : (s.afterRead d r).ackSeen = s.ackSeen + (s.readHere d r).sent := rfl
@[simp] theorem State.afterRead_rxSeen (d : DevAddr) (r : Byte) : (s.afterRead d r).rxSeen = s.rxSeen + (s.readHere d r).events.count .rxen := rfl
@[simp] theorem State.afterRead_chipSeen (d : DevAddr) (r : Byte) : (s.afterRead d r).chipSeen = s.chipSeen + 1 := rfl
@[simp] theorem State.afterRead_trace (d : DevAddr) (r : Byte) : (s.afterRead d r).trace = s.trace := rfl
@[simp] theorem State.afterRead_doneAnswer (d : DevAddr) (r : Byte) (n : Nat) : (s.afterRead d r).doneAnswer n = s.doneAnswer n := rfl
@[simp] theorem State.afterRead_ackAnswer (d : DevAddr) (r : Byte) (n : Nat) : (s.afterRead d r).ackAnswer n = s.ackAnswer n := rfl
@[simp] theorem State.afterRead_rxAnswer (d : DevAddr) (r : Byte) (n : Nat) : (s.afterRead d r).rxAnswer n = s.rxAnswer n := rfl
@[simp] theorem State.afterRead_chipAnswer (d : DevAddr) (r : Byte) (n : Nat) : (s.afterRead d r).chipAnswer n = s.chipAnswer n := rfl

/-! ### afterWrite -/

@[simp] theorem State.afterWrite_est (d : DevAddr) (r v : Byte) : (s.afterWrite d r v).est = s.est := rfl
@[simp] theorem State.afterWrite_cst (d : DevAddr) (r v : Byte) : (s.afterWrite d r v).cst = s.cst := rfl
@[simp] theorem State.afterWrite_op (d : DevAddr) (r v : Byte) : (s.afterWrite d r v).op = s.op := rfl
@[simp] theorem State.afterWrite_dev (d : DevAddr) (r v : Byte) : (s.afterWrite d r v).dev = s.dev := rfl
@[simp] theorem State.afterWrite_reg (d : DevAddr) (r v : Byte) : (s.afterWrite d r v).reg = s.reg := rfl
@[simp] theorem State.afterWrite_wdata (d : DevAddr) (r v : Byte) : (s.afterWrite d r v).wdata = s.wdata := rfl
@[simp] theorem State.afterWrite_tDev (d : DevAddr) (r v : Byte) : (s.afterWrite d r v).tDev = s.tDev := rfl
@[simp] theorem State.afterWrite_tReg (d : DevAddr) (r v : Byte) : (s.afterWrite d r v).tReg = s.tReg := rfl
@[simp] theorem State.afterWrite_tWdata (d : DevAddr) (r v : Byte) : (s.afterWrite d r v).tWdata = s.tWdata := rfl
@[simp] theorem State.afterWrite_tDir (d : DevAddr) (r v : Byte) : (s.afterWrite d r v).tDir = s.tDir := rfl
@[simp] theorem State.afterWrite_rbyte (d : DevAddr) (r v : Byte) : (s.afterWrite d r v).rbyte = s.rbyte := rfl
@[simp] theorem State.afterWrite_tResult (d : DevAddr) (r v : Byte) : (s.afterWrite d r v).tResult = s.tResult := rfl
@[simp] theorem State.afterWrite_tStatus (d : DevAddr) (r v : Byte) : (s.afterWrite d r v).tStatus = s.tStatus := rfl
@[simp] theorem State.afterWrite_tmp (d : DevAddr) (r v : Byte) : (s.afterWrite d r v).tmp = s.tmp := rfl
@[simp] theorem State.afterWrite_firstFail (d : DevAddr) (r v : Byte) : (s.afterWrite d r v).firstFail = s.firstFail := rfl
@[simp] theorem State.afterWrite_cnt (d : DevAddr) (r v : Byte) : (s.afterWrite d r v).cnt = s.cnt := rfl
@[simp] theorem State.afterWrite_rspData (d : DevAddr) (r v : Byte) : (s.afterWrite d r v).rspData = s.rspData := rfl
@[simp] theorem State.afterWrite_rspStatus (d : DevAddr) (r v : Byte) : (s.afterWrite d r v).rspStatus = s.rspStatus := rfl
@[simp] theorem State.afterWrite_lReq (d : DevAddr) (r v : Byte) : (s.afterWrite d r v).lReq = s.lReq := rfl
@[simp] theorem State.afterWrite_lTxByte (d : DevAddr) (r v : Byte) : (s.afterWrite d r v).lTxByte = s.lTxByte := rfl
@[simp] theorem State.afterWrite_rst (d : DevAddr) (r v : Byte) : (s.afterWrite d r v).rst = s.rst := rfl
@[simp] theorem State.afterWrite_commands (d : DevAddr) (r v : Byte) : (s.afterWrite d r v).commands = s.commands := rfl
@[simp] theorem State.afterWrite_pollLimit (d : DevAddr) (r v : Byte) : (s.afterWrite d r v).pollLimit = s.pollLimit := rfl
@[simp] theorem State.afterWrite_line (d : DevAddr) (r v : Byte) : (s.afterWrite d r v).line = s.line := rfl
@[simp] theorem State.afterWrite_mem (d : DevAddr) (r v : Byte) : (s.afterWrite d r v).mem = (if (s.writeAfter 0 d r v).stored then s.nextMem.write (location d r) v else s.nextMem) := rfl
@[simp] theorem State.afterWrite_slavePtr (d : DevAddr) (r v : Byte) : (s.afterWrite d r v).slavePtr = s.slavePtr := rfl
@[simp] theorem State.afterWrite_doneScript (d : DevAddr) (r v : Byte) : (s.afterWrite d r v).doneScript = s.doneScript := rfl
@[simp] theorem State.afterWrite_ackScript (d : DevAddr) (r v : Byte) : (s.afterWrite d r v).ackScript = s.ackScript := rfl
@[simp] theorem State.afterWrite_rxScript (d : DevAddr) (r v : Byte) : (s.afterWrite d r v).rxScript = s.rxScript := rfl
@[simp] theorem State.afterWrite_chipScript (d : DevAddr) (r v : Byte) : (s.afterWrite d r v).chipScript = s.chipScript := rfl
@[simp] theorem State.afterWrite_doneSeen (d : DevAddr) (r v : Byte) : (s.afterWrite d r v).doneSeen = s.doneSeen := rfl
@[simp] theorem State.afterWrite_ackSeen (d : DevAddr) (r v : Byte) : (s.afterWrite d r v).ackSeen = s.ackSeen + (s.writeAfter 0 d r v).sent := rfl
@[simp] theorem State.afterWrite_rxSeen (d : DevAddr) (r v : Byte) : (s.afterWrite d r v).rxSeen = s.rxSeen := rfl
@[simp] theorem State.afterWrite_chipSeen (d : DevAddr) (r v : Byte) : (s.afterWrite d r v).chipSeen = s.chipSeen + 1 := rfl
@[simp] theorem State.afterWrite_trace (d : DevAddr) (r v : Byte) : (s.afterWrite d r v).trace = s.trace := rfl
@[simp] theorem State.afterWrite_doneAnswer (d : DevAddr) (r v : Byte) (n : Nat) : (s.afterWrite d r v).doneAnswer n = s.doneAnswer n := rfl
@[simp] theorem State.afterWrite_ackAnswer (d : DevAddr) (r v : Byte) (n : Nat) : (s.afterWrite d r v).ackAnswer n = s.ackAnswer n := rfl
@[simp] theorem State.afterWrite_rxAnswer (d : DevAddr) (r v : Byte) (n : Nat) : (s.afterWrite d r v).rxAnswer n = s.rxAnswer n := rfl
@[simp] theorem State.afterWrite_chipAnswer (d : DevAddr) (r v : Byte) (n : Nat) : (s.afterWrite d r v).chipAnswer n = s.chipAnswer n := rfl

end Sys2Proof.Machine
end

