-- ==== Sys2Proof/Laws/Memory.lean ====
section
/-! SUPPORT. Laws of the external register space: read after write, a write leaves every other location alone, and every
memory operation keeps the canonical form. -/

namespace Sys2Proof.Machine

/-! ### Reading what was written -/

theorem Memory.read_insert (m : Memory) (a c : Nat) (b : Byte) :
    (Memory.insert m a b).read c = if a = c then some b else m.read c := by
  induction m with
  | nil => simp [Memory.insert, Memory.read]
  | cons kv m ih =>
    obtain ⟨k, v⟩ := kv
    rcases Nat.lt_trichotomy a k with h | h | h
    · simp [Memory.insert, Memory.read, h]
    · subst h
      by_cases hc : a = c <;> simp [Memory.insert, Memory.read, hc]
    · have h1 : ¬ a < k := by omega
      have h2 : a ≠ k := by omega
      simp only [Memory.insert, h1, h2, if_false, Memory.read, ih]
      by_cases hc : k = c
      · simp [hc, show a ≠ c by omega]
      · simp [hc]

theorem Memory.read_write (m : Memory) (a c : Nat) (b : Byte) :
    (m.write a b).read c = if a = c ∧ a < locations then some b else m.read c := by
  by_cases h : a < locations <;> simp [Memory.write, h, Memory.read_insert]

/-- A write leaves every other location alone. -/
theorem Memory.read_write_other (m : Memory) {a c : Nat} (b : Byte) (h : a ≠ c) :
    (m.write a b).read c = m.read c := by
  simp [Memory.read_write, h]

theorem location_lt (d : DevAddr) (r : Byte) : location d r < locations := by
  have := d.isLt
  have := r.isLt
  simp only [location, locations]
  omega

/-- A register reads as the byte just written to it. -/
theorem Memory.read_write_location (m : Memory) (d : DevAddr) (r v : Byte) :
    (m.write (location d r) v).read (location d r) = some v := by
  simp [Memory.read_write, location_lt]

/-- Two registers are one location only if they are the same register of the same device. -/
theorem location_injective {d e : DevAddr} {r q : Byte} (h : location d r = location e q) : d = e ∧ r = q := by
  have := r.isLt
  have := q.isLt
  simp only [location] at h
  exact ⟨BitVec.eq_of_toNat_eq (by omega), BitVec.eq_of_toNat_eq (by omega)⟩

theorem Memory.read_writeAll_other (cs : List Host.Cell) (m : Memory) {a : Nat} (h : a ∉ cs.map Prod.fst) :
    (m.writeAll cs).read a = m.read a := by
  induction cs generalizing m with
  | nil => rfl
  | cons c cs ih =>
    simp only [List.map_cons, List.mem_cons, not_or] at h
    rw [Memory.writeAll, ih _ h.2, Memory.read_write_other _ _ (Ne.symm h.1)]

/-! ### The canonical form -/

theorem Memory.risesFrom_mono {lo lo' : Nat} (h : lo' ≤ lo) {m : Memory} (hm : m.risesFrom lo = true) :
    m.risesFrom lo' = true := by
  cases m with
  | nil => rfl
  | cons kv m =>
    simp only [Memory.risesFrom, Bool.and_eq_true, decide_eq_true_eq] at hm ⊢
    exact ⟨⟨by omega, hm.1.2⟩, hm.2⟩

theorem Memory.risesFrom_insert {m : Memory} {lo a : Nat} (b : Byte) (hm : m.risesFrom lo = true) (hlo : lo ≤ a)
    (ha : a < locations) : (Memory.insert m a b).risesFrom lo = true := by
  induction m generalizing lo with
  | nil => simp [Memory.insert, Memory.risesFrom, hlo, ha]
  | cons kv m ih =>
    obtain ⟨k, v⟩ := kv
    simp only [Memory.risesFrom, Bool.and_eq_true, decide_eq_true_eq] at hm
    rcases Nat.lt_trichotomy a k with h | h | h
    · simp [Memory.insert, Memory.risesFrom, h, hlo, ha, hm.1.2, hm.2, Nat.succ_le_of_lt h]
    · subst h
      simp [Memory.insert, Memory.risesFrom, hm.1.1, hm.1.2, hm.2]
    · have h1 : ¬ a < k := by omega
      have h2 : a ≠ k := by omega
      simp only [Memory.insert, h1, h2, if_false, Memory.risesFrom, Bool.and_eq_true, decide_eq_true_eq]
      exact ⟨hm.1, ih hm.2 (by omega)⟩

/-- Writing one byte keeps the canonical form. -/
theorem Memory.wf_write {m : Memory} (hm : m.wf = true) (a : Nat) (b : Byte) : (m.write a b).wf = true := by
  unfold Memory.write
  split
  · exact Memory.risesFrom_insert b hm (Nat.zero_le a) ‹_›
  · exact hm

/-- Writing several bytes keeps the canonical form. -/
theorem Memory.wf_writeAll (cs : List Host.Cell) {m : Memory} (hm : m.wf = true) : (m.writeAll cs).wf = true := by
  induction cs generalizing m with
  | nil => exact hm
  | cons c cs ih => exact ih (Memory.wf_write hm c.1 c.2)

/-- The chip's own changes keep the canonical form. -/
theorem State.wf_nextMem {s : State} (h : s.mem.wf = true) : s.nextMem.wf = true :=
  Memory.wf_writeAll _ h

end Sys2Proof.Machine
end

