-- ==== Sys2Proof/Laws/Engine.lean ====
section
/-! SUPPORT. What each bus primitive does, said once (it answers, or it hangs), and what each transaction does in an
environment that completes its requests. -/

namespace Sys2Proof.Machine

/-! ### Runs -/

/-- A run that is over satisfies `P`, one that hangs satisfies `Q`. -/
def Run.Ends {α : Type} (P : α → State → Prop) (Q : State → Prop) : Run α → Prop
  | .ended a s => P a s
  | .hung s => Q s

@[simp] theorem Run.next_ended {α β : Type} (a : α) (s : State) (f : α → State → Run β) :
    (Run.ended a s).next f = f a s := rfl

@[simp] theorem Run.next_hung {α β : Type} (s : State) (f : α → State → Run β) :
    (Run.hung s : Run α).next f = .hung s := rfl

@[simp] theorem Run.close_ended {α : Type} (a : α) (s : State) (f : α → State → State) :
    (Run.ended a s).close f = f a s := rfl

@[simp] theorem Run.close_hung {α : Type} (s : State) (f : α → State → State) :
    (Run.hung s : Run α).close f = s := rfl

theorem Run.Ends.mono {α : Type} {P P' : α → State → Prop} {Q Q' : State → Prop} {r : Run α} (h : r.Ends P Q)
    (hP : ∀ a s, P a s → P' a s) (hQ : ∀ s, Q s → Q' s) : r.Ends P' Q' := by
  cases r with
  | ended a s => exact hP a s h
  | hung s => exact hQ s h

/-- Pieces compose: what the first piece ends with is what the second starts from. -/
theorem Run.Ends.next {α β : Type} {P : α → State → Prop} {Q : State → Prop} {P' : β → State → Prop} {r : Run α}
    {f : α → State → Run β} (h : r.Ends P Q) (hf : ∀ a s, P a s → (f a s).Ends P' Q) : (r.next f).Ends P' Q := by
  cases r with
  | ended a s => exact hf a s h
  | hung s => exact h

/-- A command leaves the state its last piece responds in, or the wait it hangs in. -/
theorem Run.Ends.close {α : Type} {P : α → State → Prop} {Q R : State → Prop} {r : Run α} {f : α → State → State}
    (h : r.Ends P Q) (hf : ∀ a s, P a s → R (f a s)) (hQ : ∀ s, Q s → R s) : R (r.close f) := by
  cases r with
  | ended a s => exact hf a s h
  | hung s => exact hQ s h

/-! ### The bus primitives -/

theorem await_prim {s : State} {c : Completion} (h : s.line = .prim (Completion.delayed c)) :
    s.await = match (generalizing := false) c with | .after _ => .ended .ack s.quiet | .never => .hung s.stuck := by
  unfold State.await
  cases c <;> simp [h, Completion.delayed]

theorem await_tx {s : State} {c : Completion} {a : Ack} (h : s.line = .tx (Completion.delayed c) a) :
    s.await = match (generalizing := false) c with | .after _ => .ended a s.quiet | .never => .hung s.stuck := by
  unfold State.await
  cases c <;> simp [h, Completion.delayed]

theorem busStart_eq (s : State) : busStart s = match s.doneAnswer s.doneSeen with
    | .after _ => .ended .ack s.requestStart.quiet
    | .never => .hung s.requestStart.stuck := await_prim rfl

theorem busRestart_eq (s : State) : busRestart s = match s.doneAnswer s.doneSeen with
    | .after _ => .ended .ack s.requestRestart.quiet
    | .never => .hung s.requestRestart.stuck := await_prim rfl

theorem busMasterNack_eq (s : State) : busMasterNack s = match s.doneAnswer s.doneSeen with
    | .after _ => .ended .ack s.requestMnack.quiet
    | .never => .hung s.requestMnack.stuck := await_prim rfl

theorem busStop_eq (s : State) : busStop s = match s.doneAnswer s.doneSeen with
    | .after _ => .ended () s.requestStop.quiet.engineIdle
    | .never => .hung s.requestStop.stuck := by
  unfold busStop
  rw [await_prim (c := s.doneAnswer s.doneSeen) rfl]
  cases s.doneAnswer s.doneSeen <;> rfl

theorem busTx_eq (p : EngineState) (b : Byte) (s : State) : busTx p b s = match s.doneAnswer s.doneSeen with
    | .after _ =>
      .ended (s.ackAnswer s.ackSeen) ((s.requestTx p b).quiet.emit (.tx b (s.ackAnswer s.ackSeen)))
    | .never => .hung (s.requestTx p b).stuck := by
  unfold busTx
  rw [await_tx (c := s.doneAnswer s.doneSeen) (a := s.ackAnswer s.ackSeen) rfl]
  cases s.doneAnswer s.doneSeen <;> rfl

theorem busRxPoll_eq (s : State) : busRxPoll s = match s.rxAnswer s.rxSeen with
    | .never => (none, s.pollLost)
    | .arrives clear source =>
      if clear < s.pollLimit.toNat then
        (some (s.delivered s.tDev s.slavePtr source), s.pollFound clear (s.delivered s.tDev s.slavePtr source))
      else (none, s.pollLost) := by
  unfold busRxPoll
  rw [State.requestRx_line]
  cases s.rxAnswer s.rxSeen <;> rfl

/-! ### A primitive and what follows it: two cases each, it completes or it hangs -/

theorem busStart_next {β : Type} {P : β → State → Prop} {Q : State → Prop} {f : Ack → State → Run β} {s : State}
    (hf : (f .ack s.requestStart.quiet).Ends P Q) (hQ : Q s.requestStart.stuck) : ((busStart s).next f).Ends P Q := by
  rw [busStart_eq]
  split
  · exact hf
  · exact hQ

theorem busRestart_next {β : Type} {P : β → State → Prop} {Q : State → Prop} {f : Ack → State → Run β} {s : State}
    (hf : (f .ack s.requestRestart.quiet).Ends P Q) (hQ : Q s.requestRestart.stuck) :
    ((busRestart s).next f).Ends P Q := by
  rw [busRestart_eq]
  split
  · exact hf
  · exact hQ

theorem busMasterNack_next {β : Type} {P : β → State → Prop} {Q : State → Prop} {f : Ack → State → Run β} {s : State}
    (hf : (f .ack s.requestMnack.quiet).Ends P Q) (hQ : Q s.requestMnack.stuck) :
    ((busMasterNack s).next f).Ends P Q := by
  rw [busMasterNack_eq]
  split
  · exact hf
  · exact hQ

theorem busTx_next {β : Type} {P : β → State → Prop} {Q : State → Prop} {f : Ack → State → Run β} {p : EngineState}
    {b : Byte} {s : State} (hf : ∀ a, (f a ((s.requestTx p b).quiet.emit (.tx b a))).Ends P Q)
    (hQ : Q (s.requestTx p b).stuck) : ((busTx p b s).next f).Ends P Q := by
  rw [busTx_eq]
  split
  · exact hf _
  · exact hQ

theorem busStop_ends {P : Unit → State → Prop} {Q : State → Prop} {s : State}
    (hP : P () s.requestStop.quiet.engineIdle) (hQ : Q s.requestStop.stuck) : (busStop s).Ends P Q := by
  rw [busStop_eq]
  split
  · exact hP
  · exact hQ

/-- The bounded poll has two outcomes, and it never hangs. -/
theorem busRxPoll_cases (s : State) :
    busRxPoll s = (none, s.pollLost) ∨
    ∃ clear b, clear < s.pollLimit.toNat ∧ busRxPoll s = (some b, s.pollFound clear b) := by
  rw [busRxPoll_eq]
  split
  · exact .inl rfl
  · split
    · exact .inr ⟨_, _, ‹_›, rfl⟩
    · exact .inl rfl

/-- How a read goes on from its poll: the forced stop, or the handshake and the stop. -/
theorem busRxPoll_ends {P : Unit → State → Prop} {Q : State → Prop} {s : State}
    (hlost : (stopAndBail .timeout s.pollLost).Ends P Q)
    (hfound : ∀ clear b, clear < s.pollLimit.toNat →
      ((busMasterNack (s.pollFound clear b)).next fun _ s => busStop s.takeResult).Ends P Q) :
    (match busRxPoll s with
      | (none, s) => stopAndBail .timeout s
      | (some _, s) => (busMasterNack s).next fun _ s => busStop s.takeResult).Ends P Q := by
  rcases busRxPoll_cases s with h | ⟨clear, b, hc, h⟩
  · rw [h]
    exact hlost
  · rw [h]
    exact hfound clear b hc

end Sys2Proof.Machine
end

