-- ==== Sys2Proof/Laws/Clock.lean ====
section
/-! SUPPORT. The transactions as clock cycles: from the cycle that requests the start condition the engine's state machine
reaches the state the pseudocode ends in, or the state it hangs in. -/

namespace Sys2Proof.Machine

/-- Some number of clock cycles takes `s` to `t`. -/
def Reaches (s t : State) : Prop := ∃ n, cycles n s = t
theorem Reaches.refl (s) : Reaches s s := ⟨0, rfl⟩
theorem cycles_add (m n : Nat) (s : State) : cycles (m + n) s = cycles n (cycles m s) := by
  induction m generalizing s with
  | zero => simp [cycles]
  | succ m ih => rw [Nat.succ_add]; exact ih _
theorem Reaches.trans {s t u} (h : Reaches s t) (k : Reaches t u) : Reaches s u := by
  obtain ⟨m, rfl⟩ := h; obtain ⟨n, rfl⟩ := k; exact ⟨m + n, cycles_add ..⟩
theorem Reaches.one (s) : Reaches s (cycle s) := ⟨1, rfl⟩

/-- The codec is running a command. -/
def Busy (s : State) : Prop := s.cst ≠ .idle ∧ s.cst ≠ .resp
theorem cycle_engine {s : State} (h : Busy s) (h3 : s.est ≠ .idle) : cycle s = engineCycle s := by
  unfold cycle
  split
  · have := h.1; contradiction
  · have := h.2; contradiction
  · rw [if_neg h3]

/-- The request lines fallen, the line unit at `l`. -/
def lineAt (s : State) (l : Line) : State := { s with lReq := .none, line := l }

/-- What the engine does in the cycle the awaited flag is seen, by its state. -/
def doneStep (s : State) : State :=
  match s.est with
  | .start => afterStart s | .addrW => afterAddrW s | .reg => afterReg s | .data => afterData s
  | .restart => afterRestart s | .addrR => afterAddrR s | .mnack => afterMnack s | .stop => afterStop s
  | .idle => s | .rxPoll => s

theorem engineCycle_wait {s : State} (h3 : s.est ≠ .idle) (h4 : s.est ≠ .rxPoll) (hd : s.lDone = false) : engineCycle s = s.wait := by
  unfold engineCycle
  split <;> first | contradiction | simp [hd]
theorem engineCycle_done {s : State} (h3 : s.est ≠ .idle) (h4 : s.est ≠ .rxPoll) (hd : s.lDone = true) : engineCycle s = doneStep s := by
  unfold engineCycle doneStep
  cases h : s.est <;> first | contradiction | simp [hd]

theorem waits_prim (n : Nat) : ∀ (s : State), Busy s → s.est ≠ .idle → s.est ≠ .rxPoll → s.line = .prim (.after (n + 1)) → Reaches s (lineAt s (.prim (.after 0))) := by
  induction n with
  | zero =>
    intro s hb h3 h4 hl
    refine ⟨1, ?_⟩
    rw [cycles, cycles, cycle_engine hb h3, engineCycle_wait h3 h4 (by simp [State.lDone, hl])]
    simp [State.wait, hl, Line.tick, lineAt]
  | succ n ih =>
    intro s hb h3 h4 hl
    have := ih (lineAt s (.prim (.after (n + 1)))) hb h3 h4 rfl
    refine Reaches.trans ⟨1, ?_⟩ this
    rw [cycles, cycles, cycle_engine hb h3, engineCycle_wait h3 h4 (by simp [State.lDone, hl])]
    simp [State.wait, hl, Line.tick, lineAt]
theorem waits_tx (n : Nat) (a : Ack) : ∀ (s : State), Busy s → s.est ≠ .idle → s.est ≠ .rxPoll → s.line = .tx (.after (n + 1)) a → Reaches s (lineAt s (.tx (.after 0) a)) := by
  induction n with
  | zero =>
    intro s hb h3 h4 hl
    refine ⟨1, ?_⟩
    rw [cycles, cycles, cycle_engine hb h3, engineCycle_wait h3 h4 (by simp [State.lDone, hl])]
    simp [State.wait, hl, Line.tick, lineAt]
  | succ n ih =>
    intro s hb h3 h4 hl
    have := ih (lineAt s (.tx (.after (n + 1)) a)) hb h3 h4 rfl
    refine Reaches.trans ⟨1, ?_⟩ this
    rw [cycles, cycles, cycle_engine hb h3, engineCycle_wait h3 h4 (by simp [State.lDone, hl])]
    simp [State.wait, hl, Line.tick, lineAt]

/-- A requested primitive: once complete the engine goes on; never complete, it is stuck. -/
theorem prim_reaches {s : State} (c : Completion) (hb : Busy s) (h3 : s.est ≠ .idle) (h4 : s.est ≠ .rxPoll) (hl : s.line = .prim (Completion.delayed c)) :
    (∀ n, c = .after n → Reaches s (doneStep (lineAt s (.prim (.after 0))))) ∧ (c = .never → Reaches s s.stuck) := by
  constructor
  · rintro n rfl
    refine (waits_prim n s hb h3 h4 hl).trans ⟨1, ?_⟩
    rw [cycles, cycles, cycle_engine (s := lineAt s _) hb h3, engineCycle_done (s := lineAt s _) h3 h4 (by simp [State.lDone, lineAt])]
  · rintro rfl
    refine ⟨1, ?_⟩
    rw [cycles, cycles, cycle_engine hb h3, engineCycle_wait h3 h4 (by simp [State.lDone, hl, Completion.delayed])]
    simp [State.wait, State.stuck, hl, Line.tick, Completion.delayed]
theorem tx_reaches {s : State} (c : Completion) (a : Ack) (hb : Busy s) (h3 : s.est ≠ .idle) (h4 : s.est ≠ .rxPoll) (hl : s.line = .tx (Completion.delayed c) a) :
    (∀ n, c = .after n → Reaches s (doneStep (lineAt s (.tx (.after 0) a)))) ∧ (c = .never → Reaches s s.stuck) := by
  constructor
  · rintro n rfl
    refine (waits_tx n a s hb h3 h4 hl).trans ⟨1, ?_⟩
    rw [cycles, cycles, cycle_engine (s := lineAt s _) hb h3, engineCycle_done (s := lineAt s _) h3 h4 (by simp [State.lDone, lineAt])]
  · rintro rfl
    refine ⟨1, ?_⟩
    rw [cycles, cycles, cycle_engine hb h3, engineCycle_wait h3 h4 (by simp [State.lDone, hl, Completion.delayed])]
    simp [State.wait, State.stuck, hl, Line.tick, Completion.delayed]

section
variable {β : Type} {P : β → State → Prop} {Q : State → Prop}
theorem busStart_reaches {f : Ack → State → Run β} {s : State} (hb : Busy s)
    (hf : Reaches s.requestStart (s.requestStart.quiet.requestTx .addrW (addrByte s.tDev .write)) → (f .ack s.requestStart.quiet).Ends P Q)
    (hQ : Reaches s.requestStart s.requestStart.stuck → Q s.requestStart.stuck) : ((busStart s).next f).Ends P Q := by
  have g := prim_reaches (s := s.requestStart) (s.doneAnswer s.doneSeen) hb (by simp) (by simp) rfl
  rw [busStart_eq]
  split
  · rename_i n h; exact hf (g.1 _ h)
  · rename_i h; exact hQ (g.2 h)
theorem busRestart_reaches {f : Ack → State → Run β} {s : State} (hb : Busy s)
    (hf : Reaches s.requestRestart (s.requestRestart.quiet.requestTx .addrR (addrByte s.tDev .read)) → (f .ack s.requestRestart.quiet).Ends P Q)
    (hQ : Reaches s.requestRestart s.requestRestart.stuck → Q s.requestRestart.stuck) : ((busRestart s).next f).Ends P Q := by
  have g := prim_reaches (s := s.requestRestart) (s.doneAnswer s.doneSeen) hb (by simp) (by simp) rfl
  rw [busRestart_eq]
  split
  · rename_i n h; exact hf (g.1 _ h)
  · rename_i h; exact hQ (g.2 h)
theorem busMasterNack_reaches {f : Ack → State → Run β} {s : State} (hb : Busy s)
    (hf : Reaches s.requestMnack (s.requestMnack.quiet.takeResult.requestStop) → (f .ack s.requestMnack.quiet).Ends P Q)
    (hQ : Reaches s.requestMnack s.requestMnack.stuck → Q s.requestMnack.stuck) : ((busMasterNack s).next f).Ends P Q := by
  have g := prim_reaches (s := s.requestMnack) (s.doneAnswer s.doneSeen) hb (by simp) (by simp) rfl
  rw [busMasterNack_eq]
  split
  · rename_i n h; exact hf (g.1 _ h)
  · rename_i h; exact hQ (g.2 h)
theorem busStop_reaches {P : Unit → State → Prop} {s : State} (hb : Busy s)
    (hf : Reaches s.requestStop (s.requestStop.quiet.engineIdle) → P () s.requestStop.quiet.engineIdle)
    (hQ : Reaches s.requestStop s.requestStop.stuck → Q s.requestStop.stuck) : (busStop s).Ends P Q := by
  have g := prim_reaches (s := s.requestStop) (s.doneAnswer s.doneSeen) hb (by simp) (by simp) rfl
  rw [busStop_eq]
  split
  · rename_i n h; exact hf (g.1 _ h)
  · rename_i h; exact hQ (g.2 h)
theorem busTx_reaches {f : Ack → State → Run β} {p b} {s : State} (hb : Busy s) (h3 : p ≠ .idle) (h4 : p ≠ .rxPoll)
    (hf : ∀ a, Reaches (s.requestTx p b) (doneStep (lineAt (s.requestTx p b) (.tx (.after 0) a))) → (f a ((s.requestTx p b).quiet.emit (.tx b a))).Ends P Q)
    (hQ : Reaches (s.requestTx p b) (s.requestTx p b).stuck → Q (s.requestTx p b).stuck) : ((busTx p b s).next f).Ends P Q := by
  have g := tx_reaches (s := s.requestTx p b) (s.doneAnswer s.doneSeen) (s.ackAnswer s.ackSeen) hb h3 h4 rfl
  rw [busTx_eq]
  split
  · rename_i n h; exact hf _ (g.1 _ h)
  · rename_i h; exact hQ (g.2 h)
end

/-- The write transaction of the pseudocode (spec/40_bus_engine.md R140) is cycles of the engine (R128 to R139). -/
theorem writeTransaction_reaches (d : DevAddr) (r v : Byte) (s : State) (hb : Busy s) :
    (writeTransaction d r v s).Ends (fun _ t => Reaches (s.loadWrite d r v).requestStart t ∧ t.est = .idle ∧ t.tResult = 0)
      (fun t => Reaches (s.loadWrite d r v).requestStart t) := by
  refine busStart_reaches hb (fun h1 => busTx_reaches hb (by decide) (by decide) (fun a h2 => ?_) (fun h => h1.trans h)) id
  have h12 := h1.trans h2
  cases a
  · refine busTx_reaches hb (by decide) (by decide) (fun a h3 => ?_) (fun h => h12.trans h)
    have h13 := h12.trans h3
    cases a
    · refine busTx_reaches hb (by decide) (by decide) (fun a h4 => ?_) (fun h => h13.trans h)
      have h14 := h13.trans h4
      cases a
      · exact busStop_reaches hb (fun h => ⟨h14.trans h, rfl, rfl⟩) (fun h => h14.trans h)
      · exact busStop_reaches hb (fun h => ⟨h14.trans h, rfl, rfl⟩) (fun h => h14.trans h)
    · exact busStop_reaches hb (fun h => ⟨h13.trans h, rfl, rfl⟩) (fun h => h13.trans h)
  · exact busStop_reaches hb (fun h => ⟨h12.trans h, rfl, rfl⟩) (fun h => h12.trans h)


theorem toNat_sub_one (c : Count) (h : c ≠ 0) : (c - 1).toNat = c.toNat - 1 := by
  have : c.toNat ≠ 0 := fun h' => h (BitVec.eq_of_toNat_eq h')
  simp [BitVec.toNat_sub]; omega
theorem sub_one_eq_zero (c : Count) : c - 1 = 0 ↔ c = 1 := by
  constructor
  · intro h; have := congrArg (· + 1) h; simpa using this
  · rintro rfl; decide

theorem cycle_sample {s : State} (hb : Busy s) (he : s.est = .rxPoll) : cycle s = sample s := by
  rw [cycle_engine hb (by rw [he]; decide)]; unfold engineCycle; rw [he]

/-- A poll that finds nothing (R137). -/
theorem poll_lost_reaches (k : Nat) : ∀ (s : State), Busy s → s.est = .rxPoll → s.cnt.toNat = k + 1 →
    ∀ o b, s.line = .rx o b → (∀ c, o = some c → k + 1 ≤ c) →
    Reaches s ((((({ s.quiet with cnt := 0 } : State).emit .rxTimeout).failWith .timeout)).requestStop) := by
  induction k with
  | zero =>
    intro s hb he hk o b hl ho
    have hf : s.lRxfull = false := by
      unfold State.lRxfull; rw [hl]; rcases o with _ | _ | c <;> simp; exact absurd (ho 0 rfl) (by omega)
    have hc : s.cnt = 1 := BitVec.eq_of_toNat_eq hk
    refine ⟨1, ?_⟩
    rw [cycles, cycles, cycle_sample hb he, sample, if_neg (by simp [hf]), if_pos ((sub_one_eq_zero _).2 hc)]
  | succ k ih =>
    intro s hb he hk o b hl ho
    have hf : s.lRxfull = false := by
      unfold State.lRxfull; rw [hl]; rcases o with _ | _ | c <;> simp; exact absurd (ho 0 rfl) (by omega)
    have hn1 : s.cnt ≠ 1 := by rintro h; rw [h] at hk; simp at hk
    have hn0 : s.cnt ≠ 0 := by rintro h; rw [h] at hk; simp at hk
    have e : cycle s = { s.wait with cnt := s.cnt - 1 } := by
      rw [cycle_sample hb he, sample, if_neg (by simp [hf]), if_neg (fun h => hn1 ((sub_one_eq_zero _).1 h))]
    have hq : ∃ o', ({ s.wait with cnt := s.cnt - 1 } : State).line = .rx o' b ∧ ∀ c, o' = some c → k + 1 ≤ c := by
      show ∃ o', s.line.tick = _ ∧ _
      rw [hl]
      rcases o with _ | _ | c
      · exact ⟨none, rfl, by simp⟩
      · exact absurd (ho 0 rfl) (by omega)
      · exact ⟨some c, rfl, fun c' h => by injection h with h; have := ho (c+1) rfl; omega⟩
    obtain ⟨o', hl', ho'⟩ := hq
    have hb' : Busy { s.wait with cnt := s.cnt - 1 } := hb
    have := ih { s.wait with cnt := s.cnt - 1 } hb' he (by show (s.cnt - 1).toNat = _; rw [toNat_sub_one _ hn0]; omega) o' b hl' ho'
    refine Reaches.trans ⟨1, ?_⟩ this
    rw [cycles, cycles, e]

/-- A poll that finds the byte (R136). -/
theorem poll_found_reaches (c : Nat) : ∀ (s : State), Busy s → s.est = .rxPoll → c < s.cnt.toNat →
    ∀ b, s.line = .rx (some c) b →
    Reaches s (({ s.quiet with cnt := s.cnt - BitVec.ofNat 16 c, rbyte := b } : State).emit (.rx b (s.pollLimit.toNat - (s.cnt.toNat - c) + 1))).requestMnack := by
  induction c with
  | zero =>
    intro s hb he hk b hl
    have hf : s.lRxfull = true := by simp [State.lRxfull, hl]
    refine ⟨1, ?_⟩
    rw [cycles, cycles, cycle_sample hb he, sample, if_pos hf]
    simp only [BitVec.sub_zero, State.lRxbyte, hl]
    rfl
  | succ c ih =>
    intro s hb he hk b hl
    have hf : s.lRxfull = false := by simp [State.lRxfull, hl]
    have hn1 : s.cnt ≠ 1 := by rintro h; rw [h] at hk; simp at hk
    have hn0 : s.cnt ≠ 0 := by rintro h; rw [h] at hk; simp at hk
    have e : cycle s = { s.wait with cnt := s.cnt - 1 } := by
      rw [cycle_sample hb he, sample, if_neg (by simp [hf]), if_neg (fun h => hn1 ((sub_one_eq_zero _).1 h))]
    have hb' : Busy { s.wait with cnt := s.cnt - 1 } := hb
    have hl' : ({ s.wait with cnt := s.cnt - 1 } : State).line = .rx (some c) b := by show s.line.tick = _; rw [hl]; rfl
    have := ih { s.wait with cnt := s.cnt - 1 } hb' he (by show _ < (s.cnt - 1).toNat; rw [toNat_sub_one _ hn0]; omega) b hl'
    refine Reaches.trans ⟨1, by rw [cycles, cycles, e]⟩ ?_
    have e1 : s.cnt - 1 - BitVec.ofNat 16 c = s.cnt - BitVec.ofNat 16 (c + 1) := by
      rw [BitVec.ofNat_add]; rw [BitVec.sub_sub]; congr 1; rw [BitVec.add_comm]; rfl
    have e2 : s.pollLimit.toNat - ((s.cnt - 1).toNat - c) + 1 = s.pollLimit.toNat - (s.cnt.toNat - (c + 1)) + 1 := by
      rw [toNat_sub_one _ hn0]; omega
    rw [← e1, ← e2]; exact this

/-- The poll of the pseudocode is cycles of the engine, and what follows it starts where they end. -/
theorem busRxPoll_reaches {P : Unit → State → Prop} {Q : State → Prop} {s : State} (hb : Busy s) (hpl : s.pollLimit ≠ 0)
    (hlost : Reaches s.requestRx ((s.pollLost.failWith .timeout).requestStop) → (stopAndBail .timeout s.pollLost).Ends P Q)
    (hfound : ∀ clear b, Reaches s.requestRx (s.pollFound clear b).requestMnack →
      ((busMasterNack (s.pollFound clear b)).next fun _ s => busStop s.takeResult).Ends P Q) :
    (match busRxPoll s with
      | (none, s) => stopAndBail .timeout s
      | (some _, s) => (busMasterNack s).next fun _ s => busStop s.takeResult).Ends P Q := by
  have hp : s.pollLimit.toNat ≠ 0 := fun h' => hpl (BitVec.eq_of_toNat_eq h')
  have lost : ∀ o b, s.requestRx.line = .rx o b → (∀ c, o = some c → s.pollLimit.toNat ≤ c) → (stopAndBail .timeout s.pollLost).Ends P Q := by
    intro o b hl ho
    apply hlost
    exact poll_lost_reaches (s.pollLimit.toNat - 1) s.requestRx hb rfl (by show s.pollLimit.toNat = _; omega) o b hl (fun c hc => by have := ho c hc; omega)
  rw [busRxPoll_eq]
  cases hr : s.rxAnswer s.rxSeen with
  | never => exact lost none 0 (by rw [State.requestRx_line, hr]; rfl) (by simp)
  | arrives clear src =>
    by_cases hc : clear < s.pollLimit.toNat
    · simp only [if_pos hc]
      apply hfound
      have := poll_found_reaches clear s.requestRx hb rfl hc (s.delivered s.tDev s.slavePtr src) (by rw [State.requestRx_line, hr]; rfl)
      have e : s.requestRx.pollLimit.toNat - (s.requestRx.cnt.toNat - clear) + 1 = clear + 1 := by
        show s.pollLimit.toNat - (s.pollLimit.toNat - clear) + 1 = _; omega
      rw [e] at this; exact this
    · simp only [if_neg hc]
      exact lost (some clear) _ (by rw [State.requestRx_line, hr]; rfl) (fun c h => by injection h with h; omega)

/-- The read transaction of the pseudocode (R141) is cycles of the engine. -/
theorem readTransaction_reaches (d : DevAddr) (r : Byte) (s : State) (hb : Busy s) (hpl : s.pollLimit ≠ 0) :
    (readTransaction d r s).Ends (fun _ t => Reaches (s.loadRead d r).requestStart t ∧ t.est = .idle)
      (fun t => Reaches (s.loadRead d r).requestStart t) := by
  refine busStart_reaches hb (fun h1 => busTx_reaches hb (by decide) (by decide) (fun a h2 => ?_) (fun h => h1.trans h)) id
  have h12 := h1.trans h2
  cases a
  · refine busTx_reaches hb (by decide) (by decide) (fun a h3 => ?_) (fun h => h12.trans h)
    have h13 := h12.trans h3
    cases a
    · refine busRestart_reaches hb (fun h4 => busTx_reaches hb (by decide) (by decide) (fun a h5 => ?_) (fun h => h13.trans (h4.trans h))) (fun h => h13.trans h)
      have h15 := h13.trans (h4.trans h5)
      cases a
      · refine busRxPoll_reaches hb hpl (fun h => busStop_reaches hb (fun h' => ⟨h15.trans (h.trans h'), rfl⟩) (fun h' => h15.trans (h.trans h'))) (fun c b h => ?_)
        exact busMasterNack_reaches hb (fun h' => busStop_reaches hb (fun k => ⟨h15.trans (h.trans (h'.trans k)), rfl⟩) (fun k => h15.trans (h.trans (h'.trans k)))) (fun h' => h15.trans (h.trans h'))
      · exact busStop_reaches hb (fun h => ⟨h15.trans h, rfl⟩) (fun h => h15.trans h)
    · exact busStop_reaches hb (fun h => ⟨h13.trans h, rfl⟩) (fun h => h13.trans h)
  · exact busStop_reaches hb (fun h => ⟨h12.trans h, rfl⟩) (fun h => h12.trans h)

end Sys2Proof.Machine
end

