-- ==== Sys2Proof/Laws/Transactions.lean ====
section
/-! SUPPORT. What one transaction does. In an environment that completes its requests it ends as the tables of
spec/40_bus_engine.md R142 and R143 say; in every environment it leaves the rest of the command alone. -/

namespace Sys2Proof.Machine

/-- What no transaction touches, whether it ends or hangs. -/
structure SameCommand (s t : State) : Prop where
  op : t.op = s.op
  dev : t.dev = s.dev
  reg : t.reg = s.reg
  wdata : t.wdata = s.wdata
  tmp : t.tmp = s.tmp
  cst : t.cst = s.cst
  firstFail : t.firstFail = s.firstFail
  rspData : t.rspData = s.rspData
  rspStatus : t.rspStatus = s.rspStatus
  rst : t.rst = s.rst
  commands : t.commands = s.commands
  pollLimit : t.pollLimit = s.pollLimit
  doneScript : t.doneScript = s.doneScript
  ackScript : t.ackScript = s.ackScript
  rxScript : t.rxScript = s.rxScript
  chipScript : t.chipScript = s.chipScript
  chipSeen : t.chipSeen = s.chipSeen + 1
  doneSeen : s.doneSeen ≤ t.doneSeen
  ackSeen : s.ackSeen ≤ t.ackSeen
  rxSeen : s.rxSeen ≤ t.rxSeen

/-- A write transaction leaves the receive side alone. -/
structure SameReceive (s t : State) : Prop where
  rbyte : t.rbyte = s.rbyte
  cnt : t.cnt = s.cnt
  rxSeen : t.rxSeen = s.rxSeen

/-- How a transaction that ends leaves the machine: the outcome `o`, the bus released, nothing outstanding. -/
structure EndsAs (o : Outcome) (s t : State) : Prop where
  trace : t.trace = s.trace ++ o.events
  status : t.tStatus = o.status
  result : t.tResult = o.byte
  est : t.est = .idle
  line : t.line = .idle
  lReq : t.lReq = .none
  acks : t.ackSeen = s.ackSeen + o.sent
  requests : s.doneSeen ≤ t.doneSeen ∧ t.doneSeen ≤ s.doneSeen + 8

theorem not_never {c : Completion} (h : c ≠ .never) : ∃ n, c = .after n := by
  cases c with
  | after n => exact ⟨n, rfl⟩
  | never => exact absurd rfl h

/-- A write transaction whose five requests are completed ends as R142's table says. -/
theorem writeTransaction_live (d : DevAddr) (r v : Byte) (s : State) (h : s.LiveFor 5) :
    ∃ t, writeTransaction d r v s = .ended () t ∧ EndsAs (writeOutcome d r v s.nextAck) s t ∧
      t.mem = (if (writeOutcome d r v s.nextAck).stored then s.nextMem.write (location d r) v else s.nextMem) ∧
      t.doneSeen ≤ s.doneSeen + 5 ∧ SameCommand s t ∧ SameReceive s t := by
  obtain ⟨n0, h0⟩ := not_never (h 0 (by omega))
  obtain ⟨n1, h1⟩ := not_never (h 1 (by omega))
  obtain ⟨n2, h2⟩ := not_never (h 2 (by omega))
  obtain ⟨n3, h3⟩ := not_never (h 3 (by omega))
  obtain ⟨n4, h4⟩ := not_never (h 4 (by omega))
  rcases e0 : s.nextAck 0 <;> rcases e1 : s.nextAck 1 <;> rcases e2 : s.nextAck 2 <;>
    simp only [State.nextAck, Nat.add_zero] at h0 e0 e1 e2 <;>
    simp [writeTransaction, stopAndBail, busStart_eq, busTx_eq, busStop_eq, h0, h1, h2, h3, h4, e0, e1, e2,
      writeOutcome, State.nextAck, Nat.add_assoc] <;>
    exact ⟨by constructor <;> simp [Nat.add_assoc], by constructor <;> simp [Nat.add_assoc], by constructor <;> simp⟩

/-- A read transaction whose eight requests are completed ends as R143's table says; it stores nothing. -/
theorem readTransaction_live (d : DevAddr) (r : Byte) (s : State) (h : s.LiveFor 8) :
    ∃ t, readTransaction d r s = .ended () t ∧ EndsAs (s.readHere d r) s t ∧ t.mem = s.nextMem ∧
      SameCommand s t ∧ t.tWdata = s.tWdata ∧ t.doneSeen ≤ s.doneSeen + 7 ∧
      t.rxSeen = s.rxSeen + (s.readHere d r).events.count .rxen := by
  obtain ⟨n0, h0⟩ := not_never (h 0 (by omega))
  obtain ⟨n1, h1⟩ := not_never (h 1 (by omega))
  obtain ⟨n2, h2⟩ := not_never (h 2 (by omega))
  obtain ⟨n3, h3⟩ := not_never (h 3 (by omega))
  obtain ⟨n4, h4⟩ := not_never (h 4 (by omega))
  obtain ⟨n5, h5⟩ := not_never (h 5 (by omega))
  obtain ⟨n6, h6⟩ := not_never (h 6 (by omega))
  rcases e0 : s.nextAck 0 <;> rcases e1 : s.nextAck 1 <;> rcases e2 : s.nextAck 2 <;>
    simp only [State.nextAck, Nat.add_zero] at h0 e0 e1 e2
  case ack.ack.ack =>
    rcases er : s.rxAnswer s.rxSeen with _ | ⟨clear, _ | b⟩
    · simp [readTransaction, stopAndBail, busStart_eq, busTx_eq, busStop_eq, busRestart_eq, busRxPoll_eq,
        h0, h1, h2, h3, h4, h5, e0, e1, e2, er,
        State.readHere, readOutcome, State.nextAck, State.nextRx, Nat.add_assoc]
      exact ⟨by constructor <;> simp [Nat.add_assoc], by constructor <;> simp [Nat.add_assoc]⟩
    all_goals
      by_cases hc : clear + 1 ≤ s.pollLimit.toNat
      · have hc' : clear < s.pollLimit.toNat := by omega
        simp [readTransaction, stopAndBail, busStart_eq, busTx_eq, busStop_eq, busRestart_eq, busRxPoll_eq,
          busMasterNack_eq, h0, h1, h2, h3, h4, h5, h6, e0, e1, e2, er, hc, hc', State.delivered,
          State.readHere, readOutcome, State.nextAck, State.nextRx, Nat.add_assoc]
        exact ⟨by constructor <;> simp [Nat.add_assoc], by constructor <;> simp [Nat.add_assoc]⟩
      · have hc' : ¬ clear < s.pollLimit.toNat := by omega
        simp [readTransaction, stopAndBail, busStart_eq, busTx_eq, busStop_eq, busRestart_eq, busRxPoll_eq,
          h0, h1, h2, h3, h4, h5, e0, e1, e2, er, hc, hc', State.delivered,
          State.readHere, readOutcome, State.nextAck, State.nextRx, Nat.add_assoc]
        exact ⟨by constructor <;> simp [Nat.add_assoc], by constructor <;> simp [Nat.add_assoc]⟩
  all_goals
    simp [readTransaction, stopAndBail, busStart_eq, busTx_eq, busStop_eq, busRestart_eq,
      h0, h1, h2, h3, h4, h5, e0, e1, e2, State.readHere, readOutcome, State.nextAck, Nat.add_assoc]
    exact ⟨by constructor <;> simp [Nat.add_assoc], by constructor <;> simp [Nat.add_assoc]⟩

/-! ### In every environment -/

/-- The frame of a write transaction, whether it ends or hangs: besides the engine it changes at most the register
addressed, and the trace only grows. -/
structure WriteFrame (d : DevAddr) (r v : Byte) (s t : State) : Prop where
  command : SameCommand s t
  receive : SameReceive s t
  mem : t.mem = s.nextMem ∨ t.mem = s.nextMem.write (location d r) v
  trace : ∃ es, t.trace = s.trace ++ es

/-- The frame of a read transaction: no register changes but by the chip itself. -/
structure ReadFrame (s t : State) : Prop where
  command : SameCommand s t
  tWdata : t.tWdata = s.tWdata
  mem : t.mem = s.nextMem
  trace : ∃ es, t.trace = s.trace ++ es

theorem writeTransaction_frame (d : DevAddr) (r v : Byte) (s : State) :
    (writeTransaction d r v s).Ends (fun _ t => WriteFrame d r v s t) (WriteFrame d r v s) := by
  refine busStart_next (busTx_next (fun a => ?_) ?_) ?_
  · cases a
    · refine busTx_next (fun a => ?_) ?_
      · cases a
        · refine busTx_next (fun a => ?_) ?_
          · cases a <;> refine busStop_ends ?_ ?_ <;>
              exact ⟨by constructor <;> simp [Nat.add_assoc], by constructor <;> simp, by simp, by simp⟩
          · exact ⟨by constructor <;> simp [Nat.add_assoc], by constructor <;> simp, by simp, by simp⟩
        · refine busStop_ends ?_ ?_ <;>
            exact ⟨by constructor <;> simp [Nat.add_assoc], by constructor <;> simp, by simp, by simp⟩
      · exact ⟨by constructor <;> simp [Nat.add_assoc], by constructor <;> simp, by simp, by simp⟩
    · refine busStop_ends ?_ ?_ <;>
        exact ⟨by constructor <;> simp [Nat.add_assoc], by constructor <;> simp, by simp, by simp⟩
  all_goals exact ⟨by constructor <;> simp [Nat.add_assoc], by constructor <;> simp, by simp, by simp⟩

theorem readTransaction_frame (d : DevAddr) (r : Byte) (s : State) :
    (readTransaction d r s).Ends (fun _ t => ReadFrame s t) (ReadFrame s) := by
  refine busStart_next (busTx_next (fun a => ?_) ?_) ?_
  · cases a
    · refine busTx_next (fun a => ?_) ?_
      · cases a
        · refine busRestart_next (busTx_next (fun a => ?_) ?_) ?_
          · cases a
            · refine busRxPoll_ends (busStop_ends ?_ ?_) fun c b _ => busMasterNack_next (busStop_ends ?_ ?_) ?_ <;>
                exact ⟨by constructor <;> simp [Nat.add_assoc], by simp, by simp, by simp⟩
            · refine busStop_ends ?_ ?_ <;> exact ⟨by constructor <;> simp [Nat.add_assoc], by simp, by simp, by simp⟩
          all_goals exact ⟨by constructor <;> simp [Nat.add_assoc], by simp, by simp, by simp⟩
        · refine busStop_ends ?_ ?_ <;> exact ⟨by constructor <;> simp [Nat.add_assoc], by simp, by simp, by simp⟩
      · exact ⟨by constructor <;> simp [Nat.add_assoc], by simp, by simp, by simp⟩
    · refine busStop_ends ?_ ?_ <;> exact ⟨by constructor <;> simp [Nat.add_assoc], by simp, by simp, by simp⟩
  all_goals exact ⟨by constructor <;> simp [Nat.add_assoc], by simp, by simp, by simp⟩

end Sys2Proof.Machine
end

