-- ==== Sys2Proof/Laws/Invariants.lean ====
section
/-! SUPPORT. What holds of the engine between and inside transactions, and that a transaction keeps it, whether it ends
or hangs. -/

namespace Sys2Proof.Machine

/-- The engine's part of the invariants of Safety.lean. -/
structure EngineInv (s : State) : Prop where
  bus : s.BusDisciplined
  line : s.LineAwaited
  poll : s.PollBounded
  result : s.tStatus ≠ .ok → s.tResult = 0
  status : s.est.closed = false → s.tStatus = .ok

theorem busPhase_append (t es : List Event) : busPhase (t ++ es) = es.foldl BusPhase.after (busPhase t) :=
  List.foldl_append ..

theorem EngineInv.free {s : State} (h : EngineInv s) (he : s.est = .idle) : busPhase s.trace = .free := by
  simpa [State.BusDisciplined, he, EngineState.closed] using h.bus

/-- A transaction keeps the engine's invariant; it ends with the engine idle, and hangs with it waiting. -/
theorem writeTransaction_inv (d : DevAddr) (r v : Byte) {s : State} (hs : busPhase s.trace = .free) :
    (writeTransaction d r v s).Ends (fun _ t => EngineInv t ∧ t.est = .idle) (fun t => EngineInv t ∧ t.est ≠ .idle) := by
  refine busStart_next (busTx_next (fun a => ?_) ?_) ?_
  · cases a
    · refine busTx_next (fun a => ?_) ?_
      · cases a
        · refine busTx_next (fun a => ?_) ?_
          · cases a <;> refine busStop_ends ?_ ?_ <;>
              exact ⟨by constructor <;> simp [State.BusDisciplined, State.LineAwaited, State.PollBounded,
                EngineState.closed, busPhase_append, hs, BusPhase.after], by simp⟩
          · exact ⟨by constructor <;> simp [State.BusDisciplined, State.LineAwaited, State.PollBounded,
              EngineState.closed, busPhase_append, hs, BusPhase.after], by simp⟩
        · refine busStop_ends ?_ ?_ <;>
            exact ⟨by constructor <;> simp [State.BusDisciplined, State.LineAwaited, State.PollBounded,
              EngineState.closed, busPhase_append, hs, BusPhase.after], by simp⟩
      · exact ⟨by constructor <;> simp [State.BusDisciplined, State.LineAwaited, State.PollBounded,
          EngineState.closed, busPhase_append, hs, BusPhase.after], by simp⟩
    · refine busStop_ends ?_ ?_ <;>
        exact ⟨by constructor <;> simp [State.BusDisciplined, State.LineAwaited, State.PollBounded,
          EngineState.closed, busPhase_append, hs, BusPhase.after], by simp⟩
  all_goals
    exact ⟨by constructor <;> simp [State.BusDisciplined, State.LineAwaited, State.PollBounded,
      EngineState.closed, busPhase_append, hs, BusPhase.after], by simp⟩

theorem readTransaction_inv (d : DevAddr) (r : Byte) {s : State} (hs : busPhase s.trace = .free) :
    (readTransaction d r s).Ends (fun _ t => EngineInv t ∧ t.est = .idle) (fun t => EngineInv t ∧ t.est ≠ .idle) := by
  refine busStart_next (busTx_next (fun a => ?_) ?_) ?_
  · cases a
    · refine busTx_next (fun a => ?_) ?_
      · cases a
        · refine busRestart_next (busTx_next (fun a => ?_) ?_) ?_
          · cases a
            · refine busRxPoll_ends (busStop_ends ?_ ?_) fun c b _ => busMasterNack_next (busStop_ends ?_ ?_) ?_ <;>
                exact ⟨by constructor <;> simp [State.BusDisciplined, State.LineAwaited, State.PollBounded,
                  EngineState.closed, busPhase_append, hs, BusPhase.after], by simp⟩
            · refine busStop_ends ?_ ?_ <;>
                exact ⟨by constructor <;> simp [State.BusDisciplined, State.LineAwaited, State.PollBounded,
                  EngineState.closed, busPhase_append, hs, BusPhase.after], by simp⟩
          all_goals
            exact ⟨by constructor <;> simp [State.BusDisciplined, State.LineAwaited, State.PollBounded,
              EngineState.closed, busPhase_append, hs, BusPhase.after], by simp⟩
        · refine busStop_ends ?_ ?_ <;>
            exact ⟨by constructor <;> simp [State.BusDisciplined, State.LineAwaited, State.PollBounded,
              EngineState.closed, busPhase_append, hs, BusPhase.after], by simp⟩
      · exact ⟨by constructor <;> simp [State.BusDisciplined, State.LineAwaited, State.PollBounded,
          EngineState.closed, busPhase_append, hs, BusPhase.after], by simp⟩
    · refine busStop_ends ?_ ?_ <;>
        exact ⟨by constructor <;> simp [State.BusDisciplined, State.LineAwaited, State.PollBounded,
          EngineState.closed, busPhase_append, hs, BusPhase.after], by simp⟩
  all_goals
    exact ⟨by constructor <;> simp [State.BusDisciplined, State.LineAwaited, State.PollBounded,
      EngineState.closed, busPhase_append, hs, BusPhase.after], by simp⟩

end Sys2Proof.Machine
end

