-- ==== Sys2Proof/Laws/Commands.lean ====
section
/-! SUPPORT. What a command does: the three cases of `command`, the codec's reads and writes in an environment that
completes them, and the frame of every command in every environment. -/

namespace Sys2Proof.Machine

/-! ### The frame of a command -/

theorem State.Ready.cmdReady {s : State} (h : s.Ready) : s.cmdReady = true := by
  simp [State.cmdReady, h.2.1, h.2.2.1]

/-- A ready block runs the command. -/
theorem command_ready {s : State} (h : s.Ready) (latch body : State → State) :
    command latch body s = .next (body (latch s)) := by
  unfold command
  rw [if_neg h.1, if_pos h.cmdReady, if_pos h.2.2.2]

/-- The two ways a command gives a next state: it was turned away, or it ran. -/
theorem command_next {latch body : State → State} {s t : State} (h : command latch body s = .next t) :
    (s.cmdReady = false ∧ t = s) ∨ (s.Ready ∧ t = body (latch s)) := by
  unfold command at h
  split at h
  · cases h
  · split at h
    · split at h
      · rename_i h0 h1 h2
        simp only [State.cmdReady, Bool.and_eq_true, decide_eq_true_eq, Bool.not_eq_true'] at h1
        exact .inr ⟨⟨h0, h1.1, h1.2, h2⟩, by injection h with h; exact h.symm⟩
      · cases h
    · rename_i h1
      exact .inl ⟨by simpa using h1, by injection h with h; exact h.symm⟩

/-! ### Registers through a command -/

/-- What a piece of a command that runs at most `n` transactions, storing at most to the locations `S`, may change of
its surroundings. -/
structure PieceFrame (n : Nat) (S : List Nat) (s t : State) : Prop where
  op : t.op = s.op
  dev : t.dev = s.dev
  reg : t.reg = s.reg
  wdata : t.wdata = s.wdata
  rspData : t.rspData = s.rspData
  rspStatus : t.rspStatus = s.rspStatus
  rst : t.rst = s.rst
  commands : t.commands = s.commands
  pollLimit : t.pollLimit = s.pollLimit
  doneScript : t.doneScript = s.doneScript
  ackScript : t.ackScript = s.ackScript
  rxScript : t.rxScript = s.rxScript
  chipScript : t.chipScript = s.chipScript
  doneSeen : s.doneSeen ≤ t.doneSeen
  ackSeen : s.ackSeen ≤ t.ackSeen
  rxSeen : s.rxSeen ≤ t.rxSeen
  chipSeen : s.chipSeen ≤ t.chipSeen ∧ t.chipSeen ≤ s.chipSeen + n
  trace : ∃ es, t.trace = s.trace ++ es
  registers : ∀ a, a ∉ S → ¬ s.ChipTouches n a → t.mem.read a = s.mem.read a
  wf : s.mem.wf = true → t.mem.wf = true

theorem State.ChipTouches.mono {s : State} {m n a : Nat} (h : s.ChipTouches m a) (hmn : m ≤ n) : s.ChipTouches n a := by
  obtain ⟨j, hj, ha⟩ := h
  exact ⟨j, by omega, ha⟩

theorem PieceFrame.refl (s : State) : PieceFrame 0 [] s s :=
  ⟨rfl, rfl, rfl, rfl, rfl, rfl, rfl, rfl, rfl, rfl, rfl, rfl, rfl, le_refl _, le_refl _, le_refl _,
    ⟨le_refl _, le_refl _⟩, ⟨[], by simp⟩, fun _ _ _ => rfl, id⟩

theorem PieceFrame.trans {m n : Nat} {S T : List Nat} {s u t : State} (h : PieceFrame m S s u)
    (k : PieceFrame n T u t) : PieceFrame (m + n) (S ++ T) s t where
  op := k.op.trans h.op
  dev := k.dev.trans h.dev
  reg := k.reg.trans h.reg
  wdata := k.wdata.trans h.wdata
  rspData := k.rspData.trans h.rspData
  rspStatus := k.rspStatus.trans h.rspStatus
  rst := k.rst.trans h.rst
  commands := k.commands.trans h.commands
  pollLimit := k.pollLimit.trans h.pollLimit
  doneScript := k.doneScript.trans h.doneScript
  ackScript := k.ackScript.trans h.ackScript
  rxScript := k.rxScript.trans h.rxScript
  chipScript := k.chipScript.trans h.chipScript
  doneSeen := h.doneSeen.trans k.doneSeen
  ackSeen := h.ackSeen.trans k.ackSeen
  rxSeen := h.rxSeen.trans k.rxSeen
  chipSeen := by have := h.chipSeen; have := k.chipSeen; omega
  trace := by
    obtain ⟨es, hes⟩ := h.trace
    obtain ⟨fs, hfs⟩ := k.trace
    exact ⟨es ++ fs, by rw [hfs, hes, List.append_assoc]⟩
  registers := by
    intro a ha hc
    rw [List.mem_append, not_or] at ha
    rw [k.registers a ha.2, h.registers a ha.1 fun hc' => hc (hc'.mono (by omega))]
    rintro ⟨j, hj, hm⟩
    obtain ⟨d, hd⟩ := Nat.exists_eq_add_of_le h.chipSeen.1
    refine hc ⟨d + j, by have := h.chipSeen; omega, ?_⟩
    rw [hd, Nat.add_assoc] at hm
    simpa [State.chipAnswer, h.chipScript] using hm
  wf := fun hw => k.wf (h.wf hw)

theorem PieceFrame.mono {m n : Nat} {S T : List Nat} {s t : State} (h : PieceFrame m S s t) (hmn : m ≤ n)
    (hS : ∀ a ∈ S, a ∈ T) : PieceFrame n T s t :=
  { h with
    chipSeen := ⟨h.chipSeen.1, h.chipSeen.2.trans (by omega)⟩
    registers := fun a ha hc => h.registers a (fun h' => ha (hS a h')) fun hc' => hc (hc'.mono hmn) }

theorem State.read_nextMem {s : State} {a n : Nat} (hn : 0 < n) (h : ¬ s.ChipTouches n a) :
    s.nextMem.read a = s.mem.read a :=
  Memory.read_writeAll_other _ _ fun hm => h ⟨0, hn, hm⟩

theorem WriteFrame.piece {d : DevAddr} {r v : Byte} {s t : State} (h : WriteFrame d r v s t) :
    PieceFrame 1 [location d r] s t :=
  { op := h.command.op, dev := h.command.dev, reg := h.command.reg, wdata := h.command.wdata
    rspData := h.command.rspData, rspStatus := h.command.rspStatus, rst := h.command.rst
    commands := h.command.commands, pollLimit := h.command.pollLimit, doneScript := h.command.doneScript
    ackScript := h.command.ackScript, rxScript := h.command.rxScript, chipScript := h.command.chipScript
    doneSeen := h.command.doneSeen, ackSeen := h.command.ackSeen, rxSeen := h.command.rxSeen
    chipSeen := by have := h.command.chipSeen; omega
    trace := h.trace
    registers := by
      intro a ha hc
      rcases h.mem with hm | hm <;> rw [hm]
      · exact State.read_nextMem (by omega) hc
      · rw [Memory.read_write_other _ _ fun h => ha (by simp [h]), State.read_nextMem (by omega) hc]
    wf := by
      intro hw
      rcases h.mem with hm | hm <;> rw [hm]
      · exact State.wf_nextMem hw
      · exact Memory.wf_write (State.wf_nextMem hw) _ _ }

theorem ReadFrame.piece {s t : State} (h : ReadFrame s t) : PieceFrame 1 [] s t :=
  { op := h.command.op, dev := h.command.dev, reg := h.command.reg, wdata := h.command.wdata
    rspData := h.command.rspData, rspStatus := h.command.rspStatus, rst := h.command.rst
    commands := h.command.commands, pollLimit := h.command.pollLimit, doneScript := h.command.doneScript
    ackScript := h.command.ackScript, rxScript := h.command.rxScript, chipScript := h.command.chipScript
    doneSeen := h.command.doneSeen, ackSeen := h.command.ackSeen, rxSeen := h.command.rxSeen
    chipSeen := by have := h.command.chipSeen; omega
    trace := h.trace
    registers := fun a _ hc => by rw [h.mem]; exact State.read_nextMem (by omega) hc
    wf := fun hw => by rw [h.mem]; exact State.wf_nextMem hw }

/-! ### The codec's reads and writes -/

theorem PieceFrame.enter (c : CodecState) (s : State) : PieceFrame 0 [] s (s.enter c) := { PieceFrame.refl s with }
theorem PieceFrame.note (s : State) : PieceFrame 0 [] s s.noteStatus := { PieceFrame.refl s with }
theorem PieceFrame.clear (s : State) : PieceFrame 0 [] s s.clearStatus := { PieceFrame.refl s with }
theorem PieceFrame.keepTmp (b : Byte) (s : State) : PieceFrame 0 [] s (s.keepTmp b) := { PieceFrame.refl s with }

/-- The frame of a write by the codec. -/
theorem regWrite_frame (phase : CodecState) (d : DevAddr) (r v : Byte) (s : State) :
    (regWrite phase d r v s).Ends (fun _ t => PieceFrame 1 [location d r] s t ∧ SameReceive s t ∧ t.tmp = s.tmp ∧ t.cst = phase)
      (fun t => PieceFrame 1 [location d r] s t ∧ SameReceive s t ∧ t.tmp = s.tmp ∧ t.cst = phase) := by
  refine Run.Ends.next ((writeTransaction_frame d r v (s.enter phase)).mono (fun _ t h => h) fun t h => ?_) fun _ t h => ?_
  · exact ⟨(PieceFrame.enter phase s).trans h.piece, ⟨h.receive.rbyte, h.receive.cnt, h.receive.rxSeen⟩,
      h.command.tmp, h.command.cst⟩
  · exact ⟨((PieceFrame.enter phase s).trans h.piece).trans (PieceFrame.note t),
      ⟨h.receive.rbyte, h.receive.cnt, h.receive.rxSeen⟩, h.command.tmp, h.command.cst⟩

/-- The frame of a read by the codec. -/
theorem regRead_frame (phase : CodecState) (d : DevAddr) (r : Byte) (s : State) :
    (regRead phase d r s).Ends (fun _ t => PieceFrame 1 [] s t ∧ t.tWdata = s.tWdata ∧ t.tmp = s.tmp ∧ t.cst = phase)
      (fun t => PieceFrame 1 [] s t ∧ t.tWdata = s.tWdata ∧ t.tmp = s.tmp ∧ t.cst = phase) := by
  refine Run.Ends.next ((readTransaction_frame d r (s.enter phase)).mono (fun _ t h => h) fun t h => ?_) fun _ t h => ?_
  · exact ⟨(PieceFrame.enter phase s).trans h.piece, h.tWdata, h.command.tmp, h.command.cst⟩
  · exact ⟨((PieceFrame.enter phase s).trans h.piece).trans (PieceFrame.note t), h.tWdata, h.command.tmp, h.command.cst⟩

/-- A live write by the codec, in full. -/
theorem regWrite_live (phase : CodecState) (d : DevAddr) (r v : Byte) (s : State) (h : s.LiveFor 5) :
    ∃ t, regWrite phase d r v s = .ended () t ∧
      t.trace = s.trace ++ (writeOutcome d r v s.nextAck).events ∧
      t.firstFail = firstOf s.firstFail (writeOutcome d r v s.nextAck).status ∧
      t.mem = (if (writeOutcome d r v s.nextAck).stored then s.nextMem.write (location d r) v else s.nextMem) ∧
      t.est = .idle ∧ t.line = .idle ∧ t.lReq = .none ∧
      t.ackSeen = s.ackSeen + (writeOutcome d r v s.nextAck).sent ∧ t.doneSeen ≤ s.doneSeen + 5 ∧
      t.chipSeen = s.chipSeen + 1 ∧ PieceFrame 1 [location d r] s t ∧ SameReceive s t ∧ t.tmp = s.tmp := by
  obtain ⟨t, ht, he, hm, hd, hc, hr⟩ := writeTransaction_live d r v (s.enter phase) h
  have hf := regWrite_frame phase d r v s
  simp only [regWrite, ht, Run.next_ended, Run.Ends] at hf
  exact ⟨t.noteStatus, by simp [regWrite, ht], he.trace,
    by rw [State.noteStatus_firstFail, hc.firstFail, he.status]; rfl,
    hm, he.est, he.line, he.lReq, he.acks, hd, hc.chipSeen, hf.1, hf.2.1, hf.2.2.1⟩

/-- A live read by the codec, in full. -/
theorem regRead_live (phase : CodecState) (d : DevAddr) (r : Byte) (s : State) (h : s.LiveFor 8) :
    ∃ t, regRead phase d r s = .ended (s.readHere d r).byte t ∧
      t.trace = s.trace ++ (s.readHere d r).events ∧ t.tResult = (s.readHere d r).byte ∧
      t.firstFail = firstOf s.firstFail (s.readHere d r).status ∧ t.mem = s.nextMem ∧
      t.est = .idle ∧ t.line = .idle ∧ t.lReq = .none ∧
      t.ackSeen = s.ackSeen + (s.readHere d r).sent ∧ t.doneSeen ≤ s.doneSeen + 8 ∧
      t.chipSeen = s.chipSeen + 1 ∧ PieceFrame 1 [] s t ∧ t.tWdata = s.tWdata ∧ t.tmp = s.tmp ∧
      t.rxSeen = s.rxSeen + (s.readHere d r).events.count .rxen := by
  obtain ⟨t, ht, he, hm, hc, hw, -, hx⟩ := readTransaction_live d r (s.enter phase) h
  have hf := regRead_frame phase d r s
  simp only [regRead, ht, Run.next_ended, Run.Ends] at hf
  exact ⟨t.noteStatus, by simp only [regRead, ht, Run.next_ended, he.result]; rfl, he.trace, he.result,
    by rw [State.noteStatus_firstFail, hc.firstFail, he.status]; rfl,
    hm, he.est, he.line, he.lReq, he.acks, he.requests.2, hc.chipSeen, hf.1, hf.2.1, hf.2.2.1, hx⟩

/-- What is left of a live stretch after part of it. -/
theorem State.LiveFor.later {s t : State} {m n : Nat} (h : s.LiveFor n) (hs : t.doneScript = s.doneScript)
    (hlo : s.doneSeen ≤ t.doneSeen) (hhi : t.doneSeen + m ≤ s.doneSeen + n) : t.LiveFor m := by
  intro j hj
  obtain ⟨d, hd⟩ := Nat.exists_eq_add_of_le hlo
  have := h (d + j) (by omega)
  simpa [State.doneAnswer, hs, hd, Nat.add_assoc] using this

theorem State.LiveFor.mono {s : State} {m n : Nat} (h : s.LiveFor n) (hmn : m ≤ n) : s.LiveFor m :=
  fun j hj => h j (by omega)

/-! ### The environment from one transaction to the next -/

/-- Two states in which the environment is alike: the same registers, the same coming answers, the same limit. -/
structure SameEnvironment (s t : State) : Prop where
  pollLimit : t.pollLimit = s.pollLimit
  ackScript : t.ackScript = s.ackScript
  rxScript : t.rxScript = s.rxScript
  chipScript : t.chipScript = s.chipScript
  mem : t.mem = s.mem
  ackSeen : t.ackSeen = s.ackSeen
  rxSeen : t.rxSeen = s.rxSeen
  chipSeen : t.chipSeen = s.chipSeen

theorem SameEnvironment.trans {s t u : State} (h : SameEnvironment s t) (k : SameEnvironment t u) : SameEnvironment s u :=
  ⟨k.pollLimit.trans h.pollLimit, k.ackScript.trans h.ackScript, k.rxScript.trans h.rxScript,
    k.chipScript.trans h.chipScript, k.mem.trans h.mem, k.ackSeen.trans h.ackSeen, k.rxSeen.trans h.rxSeen,
    k.chipSeen.trans h.chipSeen⟩

theorem SameEnvironment.nextAck {s t : State} (h : SameEnvironment s t) : t.nextAck = s.nextAck := by
  funext j
  simp only [State.nextAck, State.ackAnswer, h.ackScript, h.ackSeen]

theorem SameEnvironment.nextMem {s t : State} (h : SameEnvironment s t) : t.nextMem = s.nextMem := by
  simp only [State.nextMem, State.chipAnswer, h.chipScript, h.chipSeen, h.mem]

theorem SameEnvironment.nextRx {s t : State} (h : SameEnvironment s t) (d : DevAddr) (r : Byte) :
    t.nextRx d r = s.nextRx d r := by
  simp only [State.nextRx, State.rxAnswer, h.rxScript, h.rxSeen, h.nextMem]

theorem SameEnvironment.readHere {s t : State} (h : SameEnvironment s t) (d : DevAddr) (r : Byte) :
    t.readHere d r = s.readHere d r := by
  simp only [State.readHere, h.pollLimit, h.nextAck, h.nextRx]

theorem SameEnvironment.writeAfter {s t : State} (h : SameEnvironment s t) (sent : Nat) (d : DevAddr) (r v : Byte) :
    t.writeAfter sent d r v = s.writeAfter sent d r v := by
  simp only [State.writeAfter, h.nextAck]

theorem SameEnvironment.afterRead {s t : State} (h : SameEnvironment s t) (d : DevAddr) (r : Byte) :
    SameEnvironment (s.afterRead d r) (t.afterRead d r) := by
  constructor <;> simp [h.pollLimit, h.ackScript, h.rxScript, h.chipScript, h.nextMem, h.ackSeen, h.rxSeen, h.chipSeen,
    h.readHere]

theorem SameEnvironment.afterWrite {s t : State} (h : SameEnvironment s t) (d : DevAddr) (r v : Byte) :
    SameEnvironment (s.afterWrite d r v) (t.afterWrite d r v) := by
  constructor <;> simp [h.pollLimit, h.ackScript, h.rxScript, h.chipScript, h.nextMem, h.ackSeen, h.rxSeen, h.chipSeen,
    h.writeAfter]

/-- Counting the transmissions of a command and starting after its first transaction are the same. -/
theorem State.writeAfter_afterRead (s : State) (d : DevAddr) (r : Byte) (d' : DevAddr) (r' v : Byte) :
    (s.afterRead d r).writeAfter 0 d' r' v = s.writeAfter (s.readHere d r).sent d' r' v := by
  simp [State.writeAfter, State.nextAck, Nat.add_assoc]

/-- A live write by the codec leaves the environment `afterWrite` says. -/
theorem regWrite_environment {phase : CodecState} {d : DevAddr} {r v : Byte} {s : State} (h : s.LiveFor 5) :
    (regWrite phase d r v s).Ends (fun _ t => SameEnvironment (s.afterWrite d r v) t) fun _ => False := by
  obtain ⟨t, ht, -, -, hm, -, -, -, ha, -, hc, hf, hr, -⟩ := regWrite_live phase d r v s h
  have hw : s.writeAfter 0 d r v = writeOutcome d r v s.nextAck := by simp [State.writeAfter]
  rw [ht]
  exact ⟨hf.pollLimit, hf.ackScript, hf.rxScript, hf.chipScript, by simp [hm, hw], by simp [ha, hw], hr.rxSeen, hc⟩

/-- A live read by the codec leaves the environment `afterRead` says. -/
theorem regRead_environment {phase : CodecState} {d : DevAddr} {r : Byte} {s : State} (h : s.LiveFor 8) :
    (regRead phase d r s).Ends (fun _ t => SameEnvironment (s.afterRead d r) t) fun _ => False := by
  obtain ⟨t, ht, -, -, -, hm, -, -, -, ha, -, hc, hf, -, -, hx⟩ := regRead_live phase d r s h
  rw [ht]
  exact ⟨hf.pollLimit, hf.ackScript, hf.rxScript, hf.chipScript, hm, ha, hx, hc⟩

end Sys2Proof.Machine
end

