-- ==== Sys2Proof/Laws/PerInstr.lean ====
section
/-! SUPPORT. A statement about every command as syntax: the word an assembler emits for it has the command's opcode in its
OP field and zeros in its reserved field (spec/30_encoding.md R90, R91). -/

namespace Sys2Proof

theorem opField_packWord (op : BitVec 6) (dev : DevAddr) (reg data : Byte) : opField (packWord op dev reg data) = op := by
  unfold opField packWord
  ext i hi
  simp only [BitVec.getElem_extractLsb', BitVec.getLsbD_append]
  grind

theorem rsvField_packWord (op : BitVec 6) (dev : DevAddr) (reg data : Byte) : rsvField (packWord op dev reg data) = 0 := by
  unfold rsvField packWord
  ext i hi
  simp
  grind

end Sys2Proof

namespace Sys2Proof.Laws.EncodedShape

/-- The opcode of the command's word is the command's, and the reserved field is 0. -/
def Statement (i : Instr) : Prop := opField (encode i) = i.opcode ∧ rsvField (encode i) = 0

theorem writeReg (dev : DevAddr) (reg data : Byte) : Statement (.writeReg dev reg data) :=
  ⟨opField_packWord .., rsvField_packWord ..⟩

theorem readReg (dev : DevAddr) (reg : Byte) : Statement (.readReg dev reg) :=
  ⟨opField_packWord .., rsvField_packWord ..⟩

theorem rtcInit : Statement .rtcInit :=
  ⟨opField_packWord .., rsvField_packWord ..⟩

theorem getSeconds : Statement .getSeconds :=
  ⟨opField_packWord .., rsvField_packWord ..⟩

theorem getMinutes : Statement .getMinutes :=
  ⟨opField_packWord .., rsvField_packWord ..⟩

theorem getHours : Statement .getHours :=
  ⟨opField_packWord .., rsvField_packWord ..⟩

theorem getDayname : Statement .getDayname :=
  ⟨opField_packWord .., rsvField_packWord ..⟩

theorem getDays : Statement .getDays :=
  ⟨opField_packWord .., rsvField_packWord ..⟩

theorem getMonths : Statement .getMonths :=
  ⟨opField_packWord .., rsvField_packWord ..⟩

theorem getYears : Statement .getYears :=
  ⟨opField_packWord .., rsvField_packWord ..⟩

theorem getAseconds : Statement .getAseconds :=
  ⟨opField_packWord .., rsvField_packWord ..⟩

theorem getAminutes : Statement .getAminutes :=
  ⟨opField_packWord .., rsvField_packWord ..⟩

theorem getAhours : Statement .getAhours :=
  ⟨opField_packWord .., rsvField_packWord ..⟩

theorem setSeconds (value : Byte) : Statement (.setSeconds value) :=
  ⟨opField_packWord .., rsvField_packWord ..⟩

theorem setMinutes (value : Byte) : Statement (.setMinutes value) :=
  ⟨opField_packWord .., rsvField_packWord ..⟩

theorem setHours (value : Byte) : Statement (.setHours value) :=
  ⟨opField_packWord .., rsvField_packWord ..⟩

theorem setDayname (value : Byte) : Statement (.setDayname value) :=
  ⟨opField_packWord .., rsvField_packWord ..⟩

theorem setDays (value : Byte) : Statement (.setDays value) :=
  ⟨opField_packWord .., rsvField_packWord ..⟩

theorem setMonths (value : Byte) : Statement (.setMonths value) :=
  ⟨opField_packWord .., rsvField_packWord ..⟩

theorem setYears (value : Byte) : Statement (.setYears value) :=
  ⟨opField_packWord .., rsvField_packWord ..⟩

theorem setAseconds (value : Byte) : Statement (.setAseconds value) :=
  ⟨opField_packWord .., rsvField_packWord ..⟩

theorem setAminutes (value : Byte) : Statement (.setAminutes value) :=
  ⟨opField_packWord .., rsvField_packWord ..⟩

theorem setAhours (value : Byte) : Statement (.setAhours value) :=
  ⟨opField_packWord .., rsvField_packWord ..⟩

end Sys2Proof.Laws.EncodedShape
end

