-- ==== Sys2Proof/Laws/Steps.lean ====
section
/-! SUPPORT. Everything a step and a clock cycle can be, said once as case rules, for the invariants. -/

namespace Sys2Proof.Machine

/-- Everything a step that goes on can be: a reset, one cycle of a busy block, waiting, the answer to an illegal word, or
the command of a legal one. -/
theorem step_cases {s t : State} (h : step s = .next t) :
    (s.rst = true ∧ s.cst = .idle ∧ t = s.resetCore) ∨
    (s.rst = false ∧ s.pollLimit ≠ 0 ∧ s.cst ≠ .idle ∧ t = cycle s) ∨
    (s.rst = false ∧ s.pollLimit ≠ 0 ∧ s.cst = .idle ∧
      ((s.commands = [] ∧ t = s) ∨
        ∃ w rest, s.commands = w :: rest ∧
          ((∃ why, decode w = .illegal why ∧
              t = (({ s with commands := rest } : State).latchWord w).reject .illegal) ∨
            ∃ i, decode w = .command i ∧ exec i (({ s with commands := rest } : State).latchWord w) = .next t))) := by
  unfold step advance at h
  split at h
  · cases h
  · rename_i h0
    split at h
    · rename_i h1
      unfold resetStep at h
      split at h
      · rename_i h2
        injection h with h; exact .inl ⟨h1, h2, h.symm⟩
      · cases h
    · rename_i h1
      simp at h1
      split at h
      · rename_i h2
        refine .inr (.inr ⟨h1, h0, h2, ?_⟩)
        unfold idleStep at h
        split at h
        · rename_i h3; injection h with h; exact .inl ⟨h3, h.symm⟩
        · rename_i w rest h3
          refine .inr ⟨w, rest, h3, ?_⟩
          unfold acceptWord at h
          split at h
          · rename_i i hd; exact .inr ⟨i, hd, h⟩
          · rename_i i hd; injection h with h; exact .inl ⟨i, hd, h.symm⟩
      · rename_i h2; injection h with h; exact .inr (.inl ⟨h1, h0, h2, h.symm⟩)

/-- Everything a cycle can be, where the sequencers agree. -/
theorem cycle_cases {I : State → Prop} {s : State} (ha : s.SequencersAgree)
    (hidle : ∀ cw rest, s.cst = .idle → s.est = .idle → s.commands = cw :: rest → I (acceptCycle cw { s with commands := rest }))
    (hself : I s)
    (hcodec : s.cst ≠ .idle → s.est = .idle → I (codecNext s))
    (hengine : s.cst ≠ .idle → s.cst ≠ .resp → s.cst ≠ .initSettle → s.est ≠ .idle → I (engineCycle s)) : I (cycle s) := by
  unfold cycle
  split
  · rename_i hc
    split
    · exact hself
    · rename_i cw rest h; exact hidle cw rest hc (ha (.inl hc)) h
  · rename_i hc; exact hcodec (by rw [hc]; decide) (ha (.inr (.inl hc)))
  · rename_i h1 h2
    split
    · rename_i he; exact hcodec h1 he
    · rename_i he
      exact hengine h1 h2 (fun h => he (ha (.inr (.inr h)))) he

/-- Everything the codec can do when a transaction is over (spec/10_state.md R26). -/
theorem codecNext_cases {I : State → Prop} {s : State} (he : s.est = .idle) (hc : s.cst ≠ .idle)
   (hR : ∀ p d r u, p ≠ .idle → p ≠ .resp → p ≠ .initSettle → p ≠ .raw → p ≠ .getRd → (u = s ∨ ∃ b, u = s.noteStatus.keepTmp b) → I (enterRead p d r u))
   (hW : ∀ p d r v u, p ≠ .idle → p ≠ .resp → p ≠ .initSettle → p ≠ .raw → p ≠ .getRd → (∃ b, u = s.noteStatus.keepTmp b) → I (enterWrite p d r v u))
   (hraw : s.cst = .raw → I (s.noteStatus.respond s.tResult))
   (hget : s.cst = .getRd → ∀ f : Sys2Proof.Field, I (s.noteStatus.respond (f.ofByte s.tResult)))
   (hresp : I (s.noteStatus.respond 0)) (hresp' : ∀ b, I ((s.noteStatus.keepTmp b).respond 0))
   (hset : I (s.noteStatus.enter .initSettle)) (hidle : I (s.enter .idle)) : I (codecNext s) := by
  unfold codecNext
  split
  · contradiction
  · rename_i h; exact hraw h
  · rename_i h; exact hget h _
  · exact hW _ _ _ _ _ (by decide) (by decide) (by decide) (by decide) (by decide) ⟨_, rfl⟩
  · exact hresp
  · split
    · exact hW _ _ _ _ _ (by decide) (by decide) (by decide) (by decide) (by decide) ⟨_, rfl⟩
    · exact hR _ _ _ _ (by decide) (by decide) (by decide) (by decide) (by decide) (.inr ⟨_, rfl⟩)
  · exact hset
  · exact hR _ _ _ _ (by decide) (by decide) (by decide) (by decide) (by decide) (.inl rfl)
  · split
    · exact hW _ _ _ _ _ (by decide) (by decide) (by decide) (by decide) (by decide) ⟨_, rfl⟩
    · exact hresp' _
  · exact hresp
  · exact hidle

/-- Everything the cycle that accepts a word can do (spec/10_state.md R26, row `C_IDLE`). -/
theorem acceptCycle_cases {I : State → Prop} {s : State} (cw : CmdWord)
   (hR : ∀ p d r, p ≠ .idle → p ≠ .resp → p ≠ .initSettle → I (enterRead p d r (s.latchWord cw).clearStatus))
   (hW : ∀ p d r v, p ≠ .idle → p ≠ .resp → p ≠ .initSettle → I (enterWrite p d r v (s.latchWord cw).clearStatus))
   (hrej : ∀ st, st = .invalid ∨ st = .illegal → I ((s.latchWord cw).reject st)) : I (acceptCycle cw s) := by
  unfold acceptCycle
  split
  · unfold startCommand
    split
    · exact hW _ _ _ _ (by decide) (by decide) (by decide)
    · exact hR _ _ _ (by decide) (by decide) (by decide)
    · exact hR _ _ _ (by decide) (by decide) (by decide)
    · split
      · exact hR _ _ _ (by decide) (by decide) (by decide)
      · unfold startSet
        split
        · split
          · exact hW _ _ _ _ (by decide) (by decide) (by decide)
          · exact hR _ _ _ (by decide) (by decide) (by decide)
        · exact hrej _ (.inl rfl)
  · exact hrej _ (.inr rfl)

/-- Everything the engine can do in one cycle (spec/40_bus_engine.md R129 to R138). -/
theorem engineCycle_cases {I : State → Prop} {s : State} (he : s.est ≠ .idle)
   (hw : s.est ≠ .rxPoll → I s.wait)
   (h1 : s.est = .start → I (afterStart s)) (h2 : s.est = .addrW → I (afterAddrW s)) (h3 : s.est = .reg → I (afterReg s))
   (h4 : s.est = .data → I (afterData s)) (h5 : s.est = .restart → I (afterRestart s)) (h6 : s.est = .addrR → I (afterAddrR s))
   (h7 : s.est = .rxPoll → I (sample s)) (h8 : s.est = .mnack → I (afterMnack s)) (h9 : s.est = .stop → I (afterStop s)) : I (engineCycle s) := by
  unfold engineCycle
  split
  · contradiction
  case h_8 => exact h7 ‹_›
  all_goals
    rename_i h
    split
    rotate_left
    · exact hw (by rw [h]; decide)
  · exact h1 h
  · exact h2 h
  · exact h3 h
  · exact h4 h
  · exact h5 h
  · exact h6 h
  · exact h8 h
  · exact h9 h

end Sys2Proof.Machine
end

