-- ==== Sys2Proof/Tests/Slice0.lean ====
section
/-! SUPPORT. Small tests against spec/95_test_vectors.md and the encodings of spec/30_encoding.md, each one step, and one
witness for the hypotheses of every statement of Certificates/Slice0/Obligations.lean. -/

namespace Sys2Proof.Tests

open Sys2Proof.Machine Sys2Proof.Claims

/-! ## Well-formedness: an ill-formed line for each check (spec/30_encoding.md R105) -/

theorem test_dev_out_of_range : (Source.writeReg 128 0 0).wellFormed = false := by decide
theorem test_reg_out_of_range : (Source.readReg 0x68 256).wellFormed = false := by decide
theorem test_data_out_of_range : (Source.writeReg 0x68 0 256).wellFormed = false := by decide
theorem test_value_out_of_range : (Source.set .year 256).wellFormed = false := by decide
theorem test_rtc_read_out_of_range : (Source.rtcRead 256).wellFormed = false := by decide
theorem test_rtc_write_reg_out_of_range : (Source.rtcWrite 256 0).wellFormed = false := by decide
theorem test_rtc_write_data_out_of_range : (Source.rtcWrite 0 256).assemble = none := by decide
theorem test_largest_operands : (Source.writeReg 127 255 255).assemble = some (.writeReg 0x7F 0xFF 0xFF) := by decide

/-! ## Decoding: every row of R93, written out as OP, RSV, DEV, REG, DATA -/

/-- A word from its five fields, most significant first (R90). -/
def word (op : BitVec 6) (rsv : BitVec 3) (dev : BitVec 7) (reg data : BitVec 8) : CmdWord := op ++ rsv ++ dev ++ reg ++ data

theorem test_decode_write_reg :
    decode (word 0b000001 0b000 0b1101000 0b00000001 0b01011001) = .command (.writeReg 0x68 0x01 0x59) := by decide
theorem test_decode_read_reg :
    decode (word 0b000010 0b000 0b1111111 0b11111111 0b00000000) = .command (.readReg 0x7F 0xFF) := by decide
theorem test_decode_rtc_init :
    decode (word 0b000011 0b000 0b1111111 0b11111111 0b11111111) = .command .rtcInit := by decide
theorem test_decode_get_seconds : decode (word 0b010000 0 0 0 0) = .command .getSeconds := by decide
theorem test_decode_get_minutes :
    decode (word 0b010001 0b000 0b0010010 0b10101011 0b11001101) = .command .getMinutes := by decide
theorem test_decode_get_hours : decode (word 0b010010 0 0 0 0) = .command .getHours := by decide
theorem test_decode_get_dayname : decode (word 0b010011 0 0 0 0) = .command .getDayname := by decide
theorem test_decode_get_days : decode (word 0b010100 0 0 0 0) = .command .getDays := by decide
theorem test_decode_get_months : decode (word 0b010101 0 0 0 0) = .command .getMonths := by decide
theorem test_decode_get_years : decode (word 0b010110 0 0 0 0) = .command .getYears := by decide
theorem test_decode_get_aseconds : decode (word 0b010111 0 0 0 0) = .command .getAseconds := by decide
theorem test_decode_get_aminutes : decode (word 0b011000 0 0 0 0) = .command .getAminutes := by decide
theorem test_decode_get_ahours : decode (word 0b011001 0 0 0 0) = .command .getAhours := by decide
theorem test_decode_set_seconds : decode (word 0b100000 0 0 0 0b00011110) = .command (.setSeconds 30) := by decide
theorem test_decode_set_minutes :
    decode (word 0b100001 0b000 0b0000000 0b11111111 0b00111011) = .command (.setMinutes 59) := by decide
theorem test_decode_set_hours : decode (word 0b100010 0 0 0 0b00000101) = .command (.setHours 5) := by decide
theorem test_decode_set_dayname : decode (word 0b100011 0 0 0 0b00000111) = .command (.setDayname 7) := by decide
theorem test_decode_set_days : decode (word 0b100100 0 0 0 0b00011111) = .command (.setDays 31) := by decide
theorem test_decode_set_months : decode (word 0b100101 0 0 0 0b00001100) = .command (.setMonths 12) := by decide
theorem test_decode_set_years : decode (word 0b100110 0 0 0 0b01100011) = .command (.setYears 99) := by decide
theorem test_decode_set_aseconds : decode (word 0b100111 0 0 0 0b00011110) = .command (.setAseconds 30) := by decide
theorem test_decode_set_aminutes : decode (word 0b101000 0 0 0 0b00001111) = .command (.setAminutes 15) := by decide
theorem test_decode_set_ahours : decode (word 0b101001 0 0 0 0b00000111) = .command (.setAhours 7) := by decide
theorem test_decode_reserved_bits : decode 0x08E80000 = .illegal .reservedBits := by decide
theorem test_decode_unassigned_getter : decode 0x68000000 = .illegal .unassignedOpcode := by decide
theorem test_decode_unassigned_setter : decode 0xA8000000 = .illegal .unassignedOpcode := by decide
theorem test_decode_class_three : decode 0xC0000000 = .illegal .unassignedOpcode := by decide
theorem test_encode_write_reg : encode (.writeReg 0x50 0x10 0xAB) = 0x045010AB := by decide
theorem test_encode_set_ahours : encode (.setAhours 24) = 0xA4000018 := by decide

/-! ## One step, on states with scripted environments (spec/95_test_vectors.md section 2) -/

/-- The state after reset in an environment that completes every request at once, answers `acks` and then ACK, delivers
`rx` and then what the register holds at the first sample, over registers of device 0x68. -/
def slave (regs : List (Nat × Byte)) (acks : List Ack := []) (rx : List RxAnswer := []) : State :=
  { State.reset with
    mem := regs.map fun (r, b) => (0x68 * 256 + r, b)
    doneScript := List.replicate 28 (.after 0)
    ackScript := acks ++ List.replicate 12 .ack
    rxScript := rx ++ List.replicate 3 (.arrives 0 .held)
    chipScript := List.replicate 4 [] }

/-- What one step on word `w` leaves to see: the trace, the response, and register `r` of device 0x68. -/
def seen (s : State) (w r : Nat) : Option (List Event × Byte × BitVec 3 × Option Byte) :=
  match step (s.withFetchWord 32 w) with
  | .next t => some (t.trace, t.rspData, t.rspStatus, t.mem.read (0x68 * 256 + r))
  | .fault _ => none
  | .refused _ => none

/-- `RD(r,b)` of spec/95_test_vectors.md section 3.8. -/
def rd (r b : Byte) : List Event :=
  [.start, .tx 0xD0 .ack, .tx r .ack, .restart, .tx 0xD1 .ack, .rxen, .rx b 1, .mnack, .stop]

/-- `WR(r,v)` of spec/95_test_vectors.md section 3.8. -/
def wr (r v : Byte) : List Event := [.start, .tx 0xD0 .ack, .tx r .ack, .tx v .ack, .stop]

/-- Section 3.5, first row. -/
theorem test_write_reg_ok :
    seen (slave [(1, 0x00)]) 0x04680159 1 = some (wr 0x01 0x59, 0x00, 0, some 0x59) := by decide
/-- Section 3.5, fourth row: a byte that is not acknowledged is not stored. -/
theorem test_write_reg_nack :
    seen (slave [(1, 0x00)] [.ack, .ack, .nack]) 0x04680159 1 =
      some ([.start, .tx 0xD0 .ack, .tx 0x01 .ack, .tx 0x59 .nack, .stop], 0x00, 1, some 0x00) := by decide
/-- Section 3.6, sixth row: the last sample is still accepted. -/
theorem test_read_reg_last_sample :
    seen (slave [(0, 0x45)] [] [.arrives 9999 .held]) 0x08680000 0 =
      some ([.start, .tx 0xD0 .ack, .tx 0x00 .ack, .restart, .tx 0xD1 .ack, .rxen, .rx 0x45 10000, .mnack, .stop],
        0x45, 0, some 0x45) := by decide
/-- Section 3.6, seventh row: one sample later the byte is lost. -/
theorem test_read_reg_timeout :
    seen (slave [(0, 0x45)] [] [.arrives 10000 .held]) 0x08680000 0 =
      some ([.start, .tx 0xD0 .ack, .tx 0x00 .ack, .restart, .tx 0xD1 .ack, .rxen, .rxTimeout, .stop],
        0x00, 2, some 0x45) := by decide

/-! Section 3.7. -/

theorem test_get_seconds : seen (slave [(0, 0xC5)]) 0x40000000 0 = some (rd 0x00 0xC5, 45, 0, some 0xC5) := by decide
theorem test_get_minutes : seen (slave [(1, 0x59)]) 0x44000000 1 = some (rd 0x01 0x59, 59, 0, some 0x59) := by decide
theorem test_get_hours : seen (slave [(2, 0x63)]) 0x48000000 2 = some (rd 0x02 0x63, 23, 0, some 0x63) := by decide
theorem test_get_dayname : seen (slave [(3, 0x9C)]) 0x4C000000 3 = some (rd 0x03 0x9C, 0x9C, 0, some 0x9C) := by decide
theorem test_get_days : seen (slave [(4, 0x31)]) 0x50000000 4 = some (rd 0x04 0x31, 31, 0, some 0x31) := by decide
theorem test_get_months : seen (slave [(5, 0x12)]) 0x54000000 5 = some (rd 0x05 0x12, 12, 0, some 0x12) := by decide
theorem test_get_years : seen (slave [(6, 0xFF)]) 0x58000000 6 = some (rd 0x06 0xFF, 165, 0, some 0xFF) := by decide
theorem test_get_aseconds : seen (slave [(7, 0x30)]) 0x5C000000 7 = some (rd 0x07 0x30, 30, 0, some 0x30) := by decide
theorem test_get_aminutes : seen (slave [(8, 0x15)]) 0x60000000 8 = some (rd 0x08 0x15, 15, 0, some 0x15) := by decide
theorem test_get_ahours : seen (slave [(9, 0x47)]) 0x64000000 9 = some (rd 0x09 0x47, 7, 0, some 0x47) := by decide
theorem test_get_seconds_absent :
    seen (slave [(0, 0xC5)] [.nack]) 0x40000000 0 = some ([.start, .tx 0xD0 .nack, .stop], 0, 1, some 0xC5) := by decide

/-! Section 3.8. -/

theorem test_set_seconds_keeps_ch :
    seen (slave [(0, 0x80)]) 0x8000001E 0 = some (rd 0x00 0x80 ++ wr 0x00 0xB0, 0, 0, some 0xB0) := by decide
/-- The failed read is taken as 0x00, and the write still happens. -/
theorem test_set_seconds_lost_read :
    seen (slave [(0, 0x80)] [] [.never]) 0x8000001E 0 =
      some ([.start, .tx 0xD0 .ack, .tx 0x00 .ack, .restart, .tx 0xD1 .ack, .rxen, .rxTimeout, .stop] ++ wr 0x00 0x30,
        0, 2, some 0x30) := by decide
theorem test_set_minutes : seen (slave [(1, 0)]) 0x8400003B 1 = some (wr 0x01 0x59, 0, 0, some 0x59) := by decide
theorem test_set_minutes_invalid : seen (slave [(1, 0)]) 0x8400003C 1 = some ([], 0, 3, some 0) := by decide
theorem test_set_hours :
    seen (slave [(2, 0x52)]) 0x88000005 2 = some (rd 0x02 0x52 ++ wr 0x02 0x45, 0, 0, some 0x45) := by decide
theorem test_set_hours_nack :
    seen (slave [(2, 0x52)] [.ack, .ack, .nack]) 0x88000005 2 =
      some ([.start, .tx 0xD0 .ack, .tx 0x02 .ack, .restart, .tx 0xD1 .nack, .stop] ++ wr 0x02 0x05,
        0, 1, some 0x05) := by decide
theorem test_set_dayname : seen (slave [(3, 0)]) 0x8C000007 3 = some (wr 0x03 0x07, 0, 0, some 0x07) := by decide
theorem test_set_dayname_zero : seen (slave [(3, 4)]) 0x8C000000 3 = some ([], 0, 3, some 4) := by decide
theorem test_set_days : seen (slave [(4, 0)]) 0x9000001F 4 = some (wr 0x04 0x31, 0, 0, some 0x31) := by decide
theorem test_set_months : seen (slave [(5, 0)]) 0x9400000C 5 = some (wr 0x05 0x12, 0, 0, some 0x12) := by decide
theorem test_set_months_invalid : seen (slave [(5, 6)]) 0x9400000D 5 = some ([], 0, 3, some 6) := by decide
theorem test_set_years : seen (slave [(6, 0)]) 0x98000063 6 = some (wr 0x06 0x99, 0, 0, some 0x99) := by decide
theorem test_set_aseconds : seen (slave [(7, 0x80)]) 0x9C00001E 7 = some (wr 0x07 0x30, 0, 0, some 0x30) := by decide
theorem test_set_aminutes : seen (slave [(8, 0)]) 0xA000000F 8 = some (wr 0x08 0x15, 0, 0, some 0x15) := by decide
theorem test_set_ahours :
    seen (slave [(9, 0x40)]) 0xA4000007 9 = some (rd 0x09 0x40 ++ wr 0x09 0x47, 0, 0, some 0x47) := by decide

/-! Section 3.9. -/

/-- Vector I1. -/
theorem test_rtc_init_both :
    seen (slave [(0, 0xC5), (2, 0x52)]) 0x0C000000 2 =
      some (rd 0x00 0xC5 ++ wr 0x00 0x45 ++ rd 0x02 0x52 ++ wr 0x02 0x12, 0, 0, some 0x12) := by decide
/-- Vector I7: the first corrective write fails, the sequence goes on, the status is the first failure. -/
theorem test_rtc_init_first_write_fails :
    seen (slave [(0, 0xC5), (2, 0x52)] [.ack, .ack, .ack, .ack, .ack, .nack]) 0x0C000000 0 =
      some (rd 0x00 0xC5 ++ [.start, .tx 0xD0 .ack, .tx 0x00 .ack, .tx 0x45 .nack, .stop] ++ rd 0x02 0x52 ++
        wr 0x02 0x12, 0, 1, some 0xC5) := by decide

/-- Section 3.4: an illegal word, (0x00, ILLEGAL) and an empty trace. -/
theorem test_illegal_word : seen (slave [(0, 1)]) 0xFFFFFFFF 0 = some ([], 0, 4, some 1) := by decide

/-- Sections 3.1 and 3.2, the corners. -/
theorem test_bcd_corners :
    bcdEnc 160 = 0x00 ∧ bcdEnc 255 = 0x95 ∧ bcdEnc 159 = 0xF9 ∧ bcdDec 0x0A 0x7F = 10 ∧ bcdDec 0xFF 0xFF = 165 ∧
      bcdDec 0xA3 0x3F = 23 := by decide

/-- A command does not end where a primitive is never completed (spec/40_bus_engine.md R127). -/
theorem test_hang :
    (match step ({ slave [] with doneScript := [.after 0, .never] } |>.withFetchWord 32 0x04680159) with
      | .next t => decide (t.est = .addrW ∧ t.cst = .raw ∧ t.line = .tx .never .ack ∧ t.trace = [.start])
      | .fault _ => false
      | .refused _ => false) = true := by decide

/-- The reset memory has its canonical form. -/
theorem test_reset_memory_wf : State.reset.mem.wf = true := by decide

/-! ## Witnesses: a concrete state and operands for the hypotheses of every statement that has some -/

/-- Whether `exec` gives a next state. -/
def goesOn (i : Instr) (s : State) : Bool :=
  match exec i s with
  | .next _ => true
  | .fault _ => false
  | .refused _ => false

theorem exists_next {i : Instr} {s : State} (h : goesOn i s = true) : ∃ t, exec i s = .next t := by
  unfold goesOn at h
  split at h <;> simp_all

/-- A state in the middle of a read by a getter. -/
def polling (cnt : Count) (clear : Option Nat) : State :=
  { slave [] with
    cst := .getRd, est := .rxPoll, cnt := cnt, line := .rx clear 0x45, op := 0x10, tDev := 0x68, tDir := .read
    trace := [.start, .tx 0xD0 .ack, .tx 0x00 .ack, .restart, .tx 0xD1 .ack, .rxen] }

/-- A state in which the engine waits in `e` and the line unit is at `l`. -/
def waiting (e : EngineState) (d : Dir) (l : Line) : State :=
  { slave [] with cst := .raw, est := e, line := l, op := 0x01, tDev := 0x68, tDir := d, trace := [.start] }

/-- A state presenting its response. -/
def responding : State := { slave [] with cst := .resp, rspData := 45 }

theorem slave_ready (regs : List (Nat × Byte)) (acks : List Ack) (rx : List RxAnswer) : (slave regs acks rx).Ready :=
  ⟨by show (10000 : Count) ≠ 0; decide, rfl, rfl, rfl⟩

theorem slave_live (regs : List (Nat × Byte)) (acks : List Ack) (rx : List RxAnswer) : (slave regs acks rx).LiveFor 28 := by
  intro j hj
  show ((List.replicate 28 (Completion.after 0))[0 + j]?).getD (Config.freeDone (0 + j)) ≠ .never
  revert j
  decide

/-! ### Encoding and the codec's functions -/

/-- DecodeEncodedCommand: the largest operands, and a format without operands. -/
theorem witness_wellFormed :
    (Instr.writeReg 0x7F 0xFF 0xFF).wellFormed = true ∧ Instr.rtcInit.wellFormed = true := by decide
/-- EncodeDecodedWord. -/
theorem witness_decoded : decode 0x4412ABCD = .command .getMinutes ∧ decode 0x045010AB = .command (.writeReg 0x50 0x10 0xAB) := by
  decide
/-- UnusedFieldsIgnored: two different words of READ_REG. -/
theorem witness_unused_fields :
    decode 0x086800FF = .command (.readReg 0x68 0x00) ∧
    (0x086800FF : CmdWord) &&& usedBits (.readReg 0x68 0x00) = 0x08680000 &&& usedBits (.readReg 0x68 0x00) ∧
    (0x086800FF : CmdWord) ≠ 0x08680000 := by decide
/-- PseudoInstructionsExpand, BcdEncodeFormula, BcdRoundTrips, KeptBitsAreThoseRead: the upper ends of their ranges. -/
theorem witness_ranges :
    (255 < 256) ∧ (99 : Byte).toNat ≤ 99 ∧ (59 : Byte).toNat ≤ 59 ∧ (23 : Byte).toNat ≤ 23 ∧ Field.minutes.kind = .bcd := by
  decide

/-! ### Reset, acceptance, the step -/

/-- ResetStep, `C_IDLE`. -/
theorem witness_reset_idle : ∃ s : State, s.pollLimit ≠ 0 ∧ s.rst = true ∧ s.cst = .idle :=
  ⟨{ State.reset with rst := true }, by decide, rfl, rfl⟩
/-- ResetStep, a command running. -/
theorem witness_reset_busy : ∃ s : State, s.pollLimit ≠ 0 ∧ s.rst = true ∧ s.cst ≠ .idle :=
  ⟨{ polling 1 none with rst := true }, by decide, rfl, by decide⟩
/-- StepRunsAcceptedCommand. -/
theorem witness_accepted :
    ∃ s : State, s.pollLimit ≠ 0 ∧ s.cmdReady = true ∧ s.commands = 0x04680159 :: [0x0C000000] ∧
      decode 0x04680159 = .command (.writeReg 0x68 0x01 0x59) :=
  ⟨{ State.reset with commands := [0x04680159, 0x0C000000] }, by decide, by decide, rfl, by decide⟩
/-- IllegalWordAnswered. -/
theorem witness_illegal :
    ∃ s : State, s.pollLimit ≠ 0 ∧ s.cmdReady = true ∧ s.commands = 0x0C800000 :: [] ∧
      decode 0x0C800000 = .illegal .reservedBits :=
  ⟨{ State.reset with commands := [0x0C800000] }, by decide, by decide, rfl, by decide⟩
/-- IdleWaits. -/
theorem witness_waits : ∃ s : State, s.pollLimit ≠ 0 ∧ s.cmdReady = true ∧ s.cmdValid = false :=
  ⟨State.reset, by decide, by decide, by decide⟩
/-- ResponseLastsOneStep. -/
theorem witness_responding : ∃ s : State, s.pollLimit ≠ 0 ∧ s.rst = false ∧ s.rspValid = true :=
  ⟨responding, by decide, rfl, by decide⟩
/-- ResponseRegistersHold: a step that leaves `C_RESP`. -/
theorem witness_response_holds : ∃ s t : State, s.rst = false ∧ step s = .next t ∧ t.cst ≠ .resp :=
  ⟨responding, responding.enter .idle, rfl, rfl, by decide⟩
/-- BusyIgnoresHost. -/
theorem witness_busy : ∃ s : State, s.pollLimit ≠ 0 ∧ s.rst = false ∧ s.cst ≠ .idle :=
  ⟨polling 1 none, by decide, rfl, by decide⟩
/-- CommandTurnedAway. -/
theorem witness_turned_away : ∃ s : State, s.pollLimit ≠ 0 ∧ s.cmdReady = false := ⟨polling 1 none, by decide, by decide⟩
/-- ZeroPollLimitRefused. -/
theorem witness_zero_limit : ∃ s : State, s.pollLimit = 0 := ⟨{ State.reset with pollLimit := 0 }, rfl⟩
/-- BusyEngineFaults. -/
theorem witness_engine_busy : ∃ s : State, s.pollLimit ≠ 0 ∧ s.cmdReady = true ∧ s.est ≠ .idle :=
  ⟨{ State.reset with est := .stop }, by decide, by decide, by decide⟩

/-! ### The engine -/

/-- EngineTransitions: a state for each of its thirteen clauses. -/
theorem witness_transitions :
    (∀ p ∈ [(EngineState.start, Dir.write, Line.prim (.after 0)), (.addrW, .write, .tx (.after 0) .ack),
        (.addrW, .write, .tx (.after 0) .nack), (.reg, .write, .tx (.after 0) .ack), (.reg, .read, .tx (.after 0) .ack),
        (.reg, .read, .tx (.after 0) .nack), (.data, .write, .tx (.after 0) .ack), (.data, .write, .tx (.after 0) .nack),
        (.restart, .read, .prim (.after 0)), (.addrR, .read, .tx (.after 0) .ack), (.addrR, .read, .tx (.after 0) .nack),
        (.mnack, .read, .prim (.after 0)), (.stop, .write, .prim (.after 0))],
      (waiting p.1 p.2.1 p.2.2).cst ≠ .idle ∧ (waiting p.1 p.2.1 p.2.2).cst ≠ .resp ∧
      (waiting p.1 p.2.1 p.2.2).lDone = true ∧ (waiting p.1 p.2.1 p.2.2).est = p.1) := by decide
/-- PollSample and PollEndsWithinLimit: the flag set; the last clear sample; an earlier clear sample. -/
theorem witness_poll :
    (∀ p ∈ [((1 : Count), some 0), (1, none), (2, some 1), (10000, none)],
      (polling p.1 p.2).cst ≠ .idle ∧ (polling p.1 p.2).cst ≠ .resp ∧ (polling p.1 p.2).est = .rxPoll ∧
      (polling p.1 p.2).cnt ≠ 0) ∧
    (polling 1 (some 0)).lRxfull = true ∧ (polling 1 none).lRxfull = false ∧ (polling 2 (some 1)).lRxfull = false := by
  decide
/-- HangLastsForEver: a primitive and a transmission that are never completed. -/
theorem witness_hang :
    ∀ p ∈ [(EngineState.start, Line.prim .never), (.data, .tx .never .ack)],
      (waiting p.1 .write p.2).cst ≠ .idle ∧ (waiting p.1 .write p.2).cst ≠ .resp ∧ (waiting p.1 .write p.2).est ≠ .idle ∧
      (waiting p.1 .write p.2).est ≠ .rxPoll ∧ (waiting p.1 .write p.2).pollLimit ≠ 0 ∧
      (waiting p.1 .write p.2).rst = false := by decide
/-- StepIsClockCycles: the step that runs WRITE_REG. -/
theorem witness_step : ∃ s t : State, s.rst = false ∧ step s = .next t ∧ s.commands = [0x04680159] := by
  obtain ⟨t, ht⟩ := exists_next (i := .writeReg 0x68 0x01 0x59)
    (s := (({ slave [] with commands := [] } : State).latchWord 0x04680159)) (by decide)
  exact ⟨{ slave [] with commands := [0x04680159] }, t, rfl, ht, rfl⟩

/-! ### The transactions and the commands -/

/-- WriteRegOutcomes, TransactionTraceShape, TransactionsBounded: each row of R142. -/
theorem witness_write_rows :
    ∀ acks ∈ [[Ack.nack], [.ack, .nack], [.ack, .ack, .nack], [.ack, .ack, .ack]],
      (slave [] acks).Ready ∧ (slave [] acks).LiveFor 5 ∧ ∀ j < acks.length, some ((slave [] acks).nextAck j) = acks[j]? := by
  intro acks h
  refine ⟨slave_ready .., fun j hj => slave_live _ _ _ j (by omega), ?_⟩
  revert h
  revert acks
  decide
/-- ReadRegOutcomes: the rows of R143, with `k` = RX_POLL_LIMIT and RX_POLL_LIMIT + 1 for two limits, and never. -/
theorem witness_read_rows :
    (slave [] [] [.arrives 9999 (.other 0x45)]).Ready ∧ (slave [] [] [.arrives 9999 (.other 0x45)]).LiveFor 8 ∧
    (∀ j < 3, (slave []).nextAck j = .ack) ∧
    (slave [] [] [.arrives 9999 (.other 0x45)]).nextRx 0x68 0 = some (10000, 0x45) ∧
    (slave [] [] [.arrives 10000 (.other 0x45)]).nextRx 0x68 0 = some (10001, 0x45) ∧
    (slave [] [] [.never]).nextRx 0x68 0 = none ∧ (slave []).pollLimit.toNat = 10000 ∧
    ({ slave [] [] [.arrives 0 (.other 0x45)] with pollLimit := 1 } : State).nextRx 0x68 0 = some (1, 0x45) ∧
    ({ slave [] [] [.arrives 1 (.other 0x45)] with pollLimit := 1 } : State).nextRx 0x68 0 = some (2, 0x45) :=
  ⟨slave_ready .., fun j hj => slave_live _ _ _ j (by omega), by decide, by decide, by decide, by decide, by decide,
    by decide, by decide⟩
/-- The getters, and FailedGetterIsZero with a read that fails. -/
theorem witness_getters :
    (slave []).Ready ∧ (slave []).LiveFor 8 ∧ (slave [] [.nack]).Ready ∧ (slave [] [.nack]).LiveFor 8 ∧
    ((slave [] [.nack]).readHere Config.rtcDevAddr 0).status ≠ .ok :=
  ⟨slave_ready .., fun j hj => slave_live _ _ _ j (by omega), slave_ready .., fun j hj => slave_live _ _ _ j (by omega),
    by decide⟩
/-- The setters: both ends of every range. -/
theorem witness_setters :
    (slave []).Ready ∧ (slave []).LiveFor 13 ∧
    (∀ f ∈ [Field.seconds, .minutes, .hours, .dayOfWeek, .dayOfMonth, .month, .year, .alarmSeconds, .alarmMinutes,
        .alarmHours], f.lo ≤ f.lo ∧ f.lo ≤ f.hi ∧ f.hi ≤ f.hi) :=
  ⟨slave_ready .., fun j hj => slave_live _ _ _ j (by omega), by decide⟩
/-- InvalidValueDoesNothing: one above each range, and one below where there is one. -/
theorem witness_invalid :
    (slave []).Ready ∧
    (∀ f ∈ [Field.seconds, .minutes, .hours, .dayOfWeek, .dayOfMonth, .month, .year, .alarmSeconds, .alarmMinutes,
        .alarmHours], ¬ (f.lo ≤ f.hi + 1 ∧ f.hi + 1 ≤ f.hi)) ∧
    (∀ f ∈ [Field.dayOfWeek, .dayOfMonth, .month], ¬ (f.lo ≤ 0 ∧ 0 ≤ f.hi)) :=
  ⟨slave_ready .., by decide, by decide⟩
/-- KeepingSetterResults: the read fails and the write is acknowledged, and the read succeeds and the write is refused at
its data byte. -/
theorem witness_keeping_setters :
    ((slave [] [.nack]).readHere Config.rtcDevAddr 0).status = .nack ∧
    ((slave [] [.nack]).writeAfter 1 Config.rtcDevAddr 0 0x30).stored = true ∧
    ((slave [(0, 0x80)] [.ack, .ack, .ack, .ack, .ack, .nack]).readHere Config.rtcDevAddr 0).status = .ok ∧
    ((slave [(0, 0x80)] [.ack, .ack, .ack, .ack, .ack, .nack]).writeAfter 3 Config.rtcDevAddr 0 0xB0).stored = false := by
  decide
/-- RtcInitOnWorkingDevice: both corrective writes needed, and none, with bytes the registers hold and with others; the
second byte arrives at the last sample. -/
theorem witness_init :
    (∀ regs rx, (slave regs [] rx).Ready ∧ (slave regs [] rx).LiveFor 26 ∧ ∀ j < 12, (slave regs [] rx).nextAck j = .ack) ∧
    ∀ p ∈ [((0xC5 : Byte), (0x52 : Byte), RxSource.held, RxSource.held), (0x45, 0x23, .held, .held),
        (0xC5, 0x52, .other 0xC5, .other 0x52), (0x45, 0x23, .other 0x45, .other 0x23)],
      let s := slave [(0, p.1), (2, p.2.1)] [] [.arrives 0 p.2.2.1, .arrives 9999 p.2.2.2]
      s.nextRx Config.rtcDevAddr 0x00 = some (1, p.1) ∧
      (afterInitSeconds s).nextRx Config.rtcDevAddr 0x02 = some (10000, p.2.1) ∧ 10000 ≤ s.pollLimit.toNat :=
  ⟨fun _ _ => ⟨slave_ready .., fun j hj => slave_live _ _ _ j (by omega),
    (by decide : ∀ j < 12, (slave []).nextAck j = .ack)⟩, by decide⟩
/-- RtcInitAlwaysResponds: the first read fails, the first write fails, the second read times out, the last write fails. -/
theorem witness_init_failures :
    (∀ a, (slave [(0, 0xC5), (2, 0x52)] a).Ready ∧ (slave [(0, 0xC5), (2, 0x52)] a).LiveFor 26) ∧
    ((slave [(0, 0xC5), (2, 0x52)] [.nack]).readHere Config.rtcDevAddr 0).status = .nack ∧
    (((slave [(0, 0xC5), (2, 0x52)] [.ack, .ack, .ack, .nack]).afterRead Config.rtcDevAddr 0).writeAfter 0
      Config.rtcDevAddr 0 0x45).status = .nack ∧
    ((afterInitSeconds (slave [(0, 0xC5), (2, 0x52)] [] [.arrives 0 .held, .never])).readHere Config.rtcDevAddr 2).status =
      .timeout ∧
    (((afterInitSeconds (slave [(0, 0x45), (2, 0x52)] [.ack, .ack, .ack, .ack, .ack, .ack, .ack, .ack, .nack])).afterRead
      Config.rtcDevAddr 2).writeAfter 0 Config.rtcDevAddr 2 0x12).stored = false :=
  ⟨fun _ => ⟨slave_ready .., fun j hj => slave_live _ _ _ j (by omega)⟩, by decide, by decide, by decide, by decide⟩
/-- RtcInitOnWorkingDevice: the chip changes nothing by itself in these states. -/
theorem witness_chip_quiet (a : Nat) : ¬ (slave []).ChipTouches 4 a := by
  rintro ⟨j, hj, ha⟩
  have : (slave []).chipAnswer ((slave []).chipSeen + j) = [] := by
    interval_cases j <;> rfl
  rw [this] at ha
  cases ha
/-- RtcInitWithoutDevice. -/
theorem witness_no_device :
    (slave [] [.nack, .nack]).Ready ∧ (slave [] [.nack, .nack]).LiveFor 26 ∧
    ∀ j < 2, (slave [] [.nack, .nack]).nextAck j = .nack :=
  ⟨slave_ready .., fun j hj => slave_live _ _ _ j (by omega), by decide⟩
/-- The frames and OnlyWriteRegChangesOtherRegisters: a next state where the command responds, hangs, and is turned away. -/
theorem witness_frames :
    ∀ i ∈ [Instr.writeReg 0x68 1 2, .readReg 0x68 1, .getSeconds, .setMinutes 59, .setMinutes 60, .setHours 5, .rtcInit],
      (∃ t, exec i (slave []) = .next t) ∧ (∃ t, exec i { slave [] with doneScript := [.never] } = .next t) ∧
      (∃ t, exec i responding = .next t) := by
  intro i h
  refine ⟨exists_next ?_, exists_next ?_, exists_next ?_⟩ <;> revert h <;> revert i <;> decide
/-- PlainSetterFrame and KeepingSetterFrame. -/
theorem witness_keep : Field.minutes.keep = 0 ∧ Field.hours.keep ≠ 0 := by decide
/-- The location condition of OnlyWriteRegChangesOtherRegisters: the first register above 0x09. -/
theorem witness_beyond : ∀ r : Byte, r.toNat ≤ 9 → rtcLocation 0x0A ≠ rtcLocation r := by decide

/-! ### Invariants -/

/-- HistoryOnlyGrows, StatusStaysLegal, StepKeepsMemoryForm, StepKeepsBusDiscipline, StepKeepsLineAndPoll,
StepKeepsSentinel, NoStepFaults: the reset state, with a command presented. -/
theorem witness_invariants_at_reset :
    ∃ s t : State, s.SequencersAgree ∧ s.BusDisciplined ∧ s.LineAwaited ∧ s.PollBounded ∧ s.SentinelZero ∧
      s.mem.wf = true ∧ s.rspStatus.toNat ≤ 4 ∧ step s = .next t := by
  obtain ⟨t, ht⟩ := exists_next (i := .writeReg 0x68 0x01 0x59)
    (s := (({ slave [] with commands := [] } : State).latchWord 0x04680159)) (by decide)
  exact ⟨{ slave [] with commands := [0x04680159] }, t, fun _ => rfl, rfl, rfl, fun h => absurd h (by decide),
    ⟨fun _ => rfl, fun _ => rfl, fun h => absurd h (by decide), fun h => absurd h (by decide)⟩, rfl, by decide, ht⟩
/-- The same in the middle of a transaction: the last sample of a poll. -/
theorem witness_invariants_in_poll :
    ∃ s t : State, s.est = .rxPoll ∧ s.SequencersAgree ∧ s.BusDisciplined ∧ s.LineAwaited ∧ s.PollBounded ∧
      s.SentinelZero ∧ s.mem.wf = true ∧ s.rspStatus.toNat ≤ 4 ∧ step s = .next t :=
  ⟨polling 1 none, cycle (polling 1 none), rfl, fun h => absurd h (by decide), by unfold State.BusDisciplined; decide, by trivial,
    fun _ => ⟨by decide, by decide⟩, ⟨fun _ => rfl, fun _ => rfl, fun _ => rfl, fun _ => rfl⟩, rfl, by decide, rfl⟩
/-- SetThenGetOnReferenceSlave. -/
theorem witness_reference_slave : (slave []).Ready ∧ ReferenceSlave 3 (slave []) := by
  refine ⟨slave_ready .., fun j hj => slave_live _ _ _ j (by omega), ?_, ?_, ?_⟩ <;> decide

end Sys2Proof.Tests
end

section
/-! Where a step stops: the refusal of RX_POLL_LIMIT = 0 and the fault of a busy engine (obligations O20 and O51). Both
come from the frame `command`, which every instruction runs in. -/

namespace Sys2Proof.Machine

/-! ### Every instruction runs in the frame of a command -/

/-- A meaning that is the frame of a command around some latching and some body. -/
def RunsInFrame (meaning : State → Result) : Prop :=
  ∃ latch body : State → State, ∀ s, meaning s = command latch body s

theorem execWriteReg_runsInFrame (dev : DevAddr) (reg data : Byte) : RunsInFrame (execWriteReg dev reg data) :=
  ⟨_, _, fun _ => rfl⟩

theorem execReadReg_runsInFrame (dev : DevAddr) (reg : Byte) : RunsInFrame (execReadReg dev reg) :=
  ⟨_, _, fun _ => rfl⟩

theorem execRtcInit_runsInFrame : RunsInFrame execRtcInit := ⟨_, _, fun _ => rfl⟩

theorem getCommand_runsInFrame (op : BitVec 6) (r : Byte) (decoded : Byte → Byte) :
    RunsInFrame (getCommand op r decoded) := ⟨_, _, fun _ => rfl⟩

theorem setPlain_runsInFrame (op : BitVec 6) (r lo hi encoded v : Byte) :
    RunsInFrame (setPlain op r lo hi encoded v) := ⟨_, _, fun _ => rfl⟩

theorem setKeeping_runsInFrame (op : BitVec 6) (r lo hi keep encoded v : Byte) :
    RunsInFrame (setKeeping op r lo hi keep encoded v) := ⟨_, _, fun _ => rfl⟩

theorem exec_runsInFrame (i : Instr) : RunsInFrame (exec i) := by
  cases i with
  | writeReg => exact execWriteReg_runsInFrame ..
  | readReg => exact execReadReg_runsInFrame ..
  | rtcInit => exact execRtcInit_runsInFrame
  | getSeconds | getMinutes | getHours | getDayname | getDays | getMonths | getYears | getAseconds | getAminutes
  | getAhours => exact getCommand_runsInFrame ..
  | setMinutes | setDayname | setDays | setMonths | setYears | setAseconds | setAminutes =>
    exact setPlain_runsInFrame ..
  | setSeconds | setHours | setAhours => exact setKeeping_runsInFrame ..

/-! ### The refusal of RX_POLL_LIMIT = 0 -/

theorem command_of_pollLimit_zero {s : State} (h : s.pollLimit = 0) (latch body : State → State) :
    command latch body s = .refused .pollLimitZero := if_pos h

theorem exec_of_pollLimit_zero {s : State} (h : s.pollLimit = 0) (i : Instr) :
    exec i s = .refused .pollLimitZero := by
  obtain ⟨latch, body, hi⟩ := exec_runsInFrame i
  rw [hi, command_of_pollLimit_zero h]

theorem step_of_pollLimit_zero {s : State} (h : s.pollLimit = 0) : step s = .refused .pollLimitZero := if_pos h

/-! ### The fault of a busy engine -/

/-- The one way a command faults: it is accepted while the engine runs a transaction (R128's precondition broken). -/
theorem command_fault {latch body : State → State} {s : State} {why : Fault} (h : command latch body s = .fault why) :
    s.pollLimit ≠ 0 ∧ s.cmdReady = true ∧ s.est ≠ .idle ∧ why = .engineNotIdle := by
  unfold command at h
  split at h
  · cases h
  · rename_i hlimit
    split at h
    · rename_i hready
      split at h
      · cases h
      · rename_i hest
        cases h
        exact ⟨hlimit, hready, hest, rfl⟩
    · cases h

theorem exec_fault {i : Instr} {s : State} {why : Fault} (h : exec i s = .fault why) :
    s.pollLimit ≠ 0 ∧ s.cmdReady = true ∧ s.est ≠ .idle ∧ why = .engineNotIdle := by
  obtain ⟨latch, body, hi⟩ := exec_runsInFrame i
  rw [hi] at h
  exact command_fault h

theorem resetStep_ne_fault (s : State) (why : Fault) : resetStep s ≠ .fault why := by
  unfold resetStep
  split <;> simp

/-- Accepting a word faults only through the command it decodes to; the latches do not touch the engine. -/
theorem acceptWord_fault {cw : CmdWord} {s : State} {why : Fault} (h : acceptWord cw s = .fault why) :
    s.est ≠ .idle ∧ why = .engineNotIdle := by
  unfold acceptWord at h
  split at h
  · obtain ⟨-, -, hest, hwhy⟩ := exec_fault h
    exact ⟨hest, hwhy⟩
  · cases h

theorem idleStep_fault {s : State} {why : Fault} (h : idleStep s = .fault why) :
    s.est ≠ .idle ∧ why = .engineNotIdle := by
  unfold idleStep at h
  split at h
  · cases h
  · rename_i rest _
    exact acceptWord_fault (s := { s with commands := rest }) h

/-- The one way a step faults: the codec is idle and the engine is not. -/
theorem step_fault {s : State} {why : Fault} (h : step s = .fault why) :
    s.cst = .idle ∧ s.est ≠ .idle ∧ why = .engineNotIdle := by
  unfold step advance at h
  split at h
  · cases h
  · split at h
    · exact absurd h (resetStep_ne_fault s why)
    · split at h
      · rename_i hcst
        exact ⟨hcst, idleStep_fault h⟩
      · cases h

end Sys2Proof.Machine

namespace Sys2Proof.Claims

open Sys2Proof.Machine

/-- Settles O20: the limit is the first thing a step and the frame of a command look at. -/
theorem zeroPollLimitRefused : Obligations.ZeroPollLimitRefused :=
  fun _ h => ⟨step_of_pollLimit_zero h, exec_of_pollLimit_zero h⟩

/-- Settles O51: a step faults only where the codec is idle and the engine is not, and there the sequencers disagree. -/
theorem noStepFaults : Obligations.NoStepFaults := by
  intro s why hagree hfault
  obtain ⟨hcst, hest, -⟩ := step_fault hfault
  exact hest (hagree (.inl hcst))

end Sys2Proof.Claims
end

section
/-! The step as clock cycles (obligation O25): each piece of a command's pseudocode is cycles of the two state machines,
so a command is, so a step is. An invariant of the cycle is then an invariant of the step. -/

namespace Sys2Proof.Machine

/-! ### The word accepted -/

theorem decodeEngine_command {cw : CmdWord} {n : Nat} {i : Instr} (h : decodeEngine cw n = .command i) :
    (n = 1 ∧ i = .writeReg (devField cw) (regField cw) (dataField cw)) ∨
    (n = 2 ∧ i = .readReg (devField cw) (regField cw)) ∨ (n = 3 ∧ i = .rtcInit) := by
  unfold decodeEngine at h
  split at h <;> simp_all

theorem decodeGet_command {n : Nat} {i : Instr} (h : decodeGet n = .command i) :
    ∃ f : Field, n = f.index ∧ i = .getter f := by
  unfold decodeGet at h
  split at h <;> cases h
  exacts [⟨.seconds, rfl, rfl⟩, ⟨.minutes, rfl, rfl⟩, ⟨.hours, rfl, rfl⟩, ⟨.dayOfWeek, rfl, rfl⟩,
    ⟨.dayOfMonth, rfl, rfl⟩, ⟨.month, rfl, rfl⟩, ⟨.year, rfl, rfl⟩, ⟨.alarmSeconds, rfl, rfl⟩,
    ⟨.alarmMinutes, rfl, rfl⟩, ⟨.alarmHours, rfl, rfl⟩]

theorem decodeSet_command {v : Byte} {n : Nat} {i : Instr} (h : decodeSet v n = .command i) :
    ∃ f : Field, n = f.index ∧ i = .setter f v := by
  unfold decodeSet at h
  split at h <;> cases h
  exacts [⟨.seconds, rfl, rfl⟩, ⟨.minutes, rfl, rfl⟩, ⟨.hours, rfl, rfl⟩, ⟨.dayOfWeek, rfl, rfl⟩,
    ⟨.dayOfMonth, rfl, rfl⟩, ⟨.month, rfl, rfl⟩, ⟨.year, rfl, rfl⟩, ⟨.alarmSeconds, rfl, rfl⟩,
    ⟨.alarmMinutes, rfl, rfl⟩, ⟨.alarmHours, rfl, rfl⟩]

theorem getter_opcode_toNat (f : Field) : (Instr.getter f).opcode.toNat = 16 + f.index := by
  cases f <;> rfl

theorem setter_opcode_toNat (f : Field) (v : Byte) : (Instr.setter f v).opcode.toNat = 32 + f.index := by
  cases f <;> rfl

/-- What a word that decodes to a command holds: the command's opcode and its operands (R91, R93). -/
theorem decode_command {cw : CmdWord} {i : Instr} (h : decode cw = .command i) :
    opField cw = i.opcode ∧
    (i = .writeReg (devField cw) (regField cw) (dataField cw) ∨ i = .readReg (devField cw) (regField cw) ∨
      i = .rtcInit ∨ (∃ f, i = .getter f) ∨ ∃ f, i = .setter f (dataField cw)) := by
  unfold decode at h
  split at h
  · dsimp only at h
    split at h
    · rename_i hclass
      rcases decodeEngine_command h with ⟨hn, rfl⟩ | ⟨hn, rfl⟩ | ⟨hn, rfl⟩
      · exact ⟨BitVec.eq_of_toNat_eq (show _ = 1 by omega), .inl rfl⟩
      · exact ⟨BitVec.eq_of_toNat_eq (show _ = 2 by omega), .inr (.inl rfl)⟩
      · exact ⟨BitVec.eq_of_toNat_eq (show _ = 3 by omega), .inr (.inr (.inl rfl))⟩
    · rename_i hclass
      obtain ⟨f, hn, rfl⟩ := decodeGet_command h
      exact ⟨BitVec.eq_of_toNat_eq (by rw [getter_opcode_toNat]; omega), .inr (.inr (.inr (.inl ⟨f, rfl⟩)))⟩
    · rename_i hclass
      obtain ⟨f, hn, rfl⟩ := decodeSet_command h
      exact ⟨BitVec.eq_of_toNat_eq (by rw [setter_opcode_toNat]; omega), .inr (.inr (.inr (.inr ⟨f, rfl⟩)))⟩
    · cases h
  · cases h

/-! ### The getters and setters by field -/

theorem fieldOf_getter_opcode (f : Field) : fieldOf (Instr.getter f).opcode = f := by
  cases f <;> rfl

theorem setter_opcode_eq (f : Field) (v : Byte) : (Instr.setter f v).opcode = (Instr.setter f 0).opcode := by
  cases f <;> rfl

theorem fieldOf_setter_opcode (f : Field) (v : Byte) : fieldOf (Instr.setter f v).opcode = f := by
  rw [setter_opcode_eq]
  cases f <;> rfl

theorem exec_getter (f : Field) (s : State) :
    exec (.getter f) s = getCommand (Instr.getter f).opcode f.register f.ofByte s := by
  cases f <;> rfl

theorem exec_setter_plain {f : Field} (hk : f.keep = 0) (v : Byte) (s : State) :
    exec (.setter f v) s = setPlain (Instr.setter f v).opcode f.register f.lo f.hi (f.toByte v) v s := by
  cases f with
  | seconds | hours | alarmHours => exact absurd hk (by decide)
  | minutes | dayOfWeek | dayOfMonth | month | year | alarmSeconds | alarmMinutes => rfl

theorem exec_setter_keeping {f : Field} (hk : f.keep ≠ 0) (v : Byte) (s : State) :
    exec (.setter f v) s =
      setKeeping (Instr.setter f v).opcode f.register f.lo f.hi f.keep (f.toByte v) v s := by
  cases f with
  | seconds | hours | alarmHours => rfl
  | minutes | dayOfWeek | dayOfMonth | month | year | alarmSeconds | alarmMinutes => exact absurd rfl hk

/-! ### The first state of a command -/

theorem startCommand_writeReg {s : State} (h : s.op = 1) :
    startCommand s = enterWrite .raw s.dev s.reg s.wdata s.clearStatus := by
  unfold startCommand
  rw [h]
  rfl

theorem startCommand_readReg {s : State} (h : s.op = 2) :
    startCommand s = enterRead .raw s.dev s.reg s.clearStatus := by
  unfold startCommand
  rw [h]
  rfl

theorem startCommand_rtcInit {s : State} (h : s.op = 3) :
    startCommand s = enterRead .initRdSec Config.rtcDevAddr 0x00 s.clearStatus := by
  unfold startCommand
  rw [h]
  rfl

theorem startCommand_getter {f : Field} {s : State} (h : s.op = (Instr.getter f).opcode) :
    startCommand s = enterRead .getRd Config.rtcDevAddr f.register s.clearStatus := by
  unfold startCommand
  rw [h]
  cases f <;> rfl

theorem startCommand_setter {f : Field} {v : Byte} {s : State} (h : s.op = (Instr.setter f v).opcode) :
    startCommand s = startSet f s.val s := by
  unfold startCommand
  rw [h, setter_opcode_eq]
  cases f <;> rfl

/-! ### A codec state as cycles -/

theorem Run.Ends.and {α : Type} {P P' : α → State → Prop} {Q Q' : State → Prop} {r : Run α} (h : r.Ends P Q)
    (h' : r.Ends P' Q') : r.Ends (fun a s => P a s ∧ P' a s) (fun s => Q s ∧ Q' s) := by
  cases r with
  | ended a s => exact ⟨h, h'⟩
  | hung s => exact ⟨h, h'⟩

theorem cycle_engineIdle {s : State} (hb : Busy s) (he : s.est = .idle) : cycle s = codecNext s := by
  unfold cycle
  split
  · exact absurd ‹_› hb.1
  · rfl
  · rw [if_pos he]

theorem codecNext_resp {s : State} (h : s.cst = .resp) : codecNext s = s.enter .idle := by
  simp [codecNext, h]

theorem cycle_resp {s : State} (h : s.cst = .resp) : cycle s = s.enter .idle := by
  simp [cycle, h, codecNext_resp h]

/-- The transaction of codec state `phase`, entered from `s`, is over in `u`: the cycles from `start` have come to the
codec's move, with the operands as they were. -/
structure CodecMoves (phase : CodecState) (s start u : State) : Prop where
  reaches : Reaches start (codecNext u)
  cst : u.cst = phase
  est : u.est = .idle
  op : u.op = s.op
  wdata : u.wdata = s.wdata
  pollLimit : u.pollLimit = s.pollLimit

/-- `RegWrite` in a codec state is the cycles of that state (spec/10_state.md R26, spec/40_bus_engine.md R140). -/
theorem regWrite_reaches {phase : CodecState} (hidle : phase ≠ .idle) (hresp : phase ≠ .resp) (d : DevAddr) (r v : Byte)
    (s : State) :
    (regWrite phase d r v s).Ends
      (fun _ t => ∃ u, t = u.noteStatus ∧ u.tResult = 0 ∧ CodecMoves phase s (enterWrite phase d r v s) u)
      (Reaches (enterWrite phase d r v s)) := by
  have hb : Busy (s.enter phase) := ⟨hidle, hresp⟩
  refine Run.Ends.next (((writeTransaction_reaches d r v _ hb).and (writeTransaction_frame d r v _)).mono
    (fun _ _ h => h) fun _ h => h.1) ?_
  rintro _ u ⟨⟨hr, he, hz⟩, hf⟩
  have hu : Busy u := ⟨by rw [hf.command.cst]; exact hidle, by rw [hf.command.cst]; exact hresp⟩
  exact ⟨u, rfl, hz, cycle_engineIdle hu he ▸ hr.trans (.one u), hf.command.cst, he, hf.command.op, hf.command.wdata,
    hf.command.pollLimit⟩

/-- `RegRead` in a codec state is the cycles of that state (R26, R141). -/
theorem regRead_reaches {phase : CodecState} (hidle : phase ≠ .idle) (hresp : phase ≠ .resp) (d : DevAddr) (r : Byte)
    {s : State} (hlimit : s.pollLimit ≠ 0) :
    (regRead phase d r s).Ends
      (fun b t => ∃ u, t = u.noteStatus ∧ u.tResult = b ∧ CodecMoves phase s (enterRead phase d r s) u)
      (Reaches (enterRead phase d r s)) := by
  have hb : Busy (s.enter phase) := ⟨hidle, hresp⟩
  refine Run.Ends.next (((readTransaction_reaches d r _ hb hlimit).and (readTransaction_frame d r _)).mono
    (fun _ _ h => h) fun _ h => h.1) ?_
  rintro _ u ⟨⟨hr, he⟩, hf⟩
  have hu : Busy u := ⟨by rw [hf.command.cst]; exact hidle, by rw [hf.command.cst]; exact hresp⟩
  exact ⟨u, rfl, rfl, cycle_engineIdle hu he ▸ hr.trans (.one u), hf.command.cst, he, hf.command.op, hf.command.wdata,
    hf.command.pollLimit⟩

/-! ### The codec's moves, by state -/

theorem codecNext_raw {s : State} (h : s.cst = .raw) : codecNext s = s.noteStatus.respond s.tResult := by
  simp [codecNext, h]

theorem codecNext_getRd {s : State} (h : s.cst = .getRd) :
    codecNext s = s.noteStatus.respond ((fieldOf s.op).ofByte s.tResult) := by
  simp [codecNext, h]

theorem codecNext_setWr {s : State} (h : s.cst = .setWr) : codecNext s = s.noteStatus.respond 0 := by
  simp [codecNext, h]

theorem codecNext_setRd {s : State} (h : s.cst = .setRd) :
    codecNext s = enterWrite .setWr Config.rtcDevAddr (fieldOf s.op).register
      (mergeKeep ((fieldOf s.op).toByte s.val) s.tResult (fieldOf s.op).keep) (s.noteStatus.keepTmp s.tResult) := by
  simp [codecNext, h]

theorem codecNext_initRdSec {s : State} (h : s.cst = .initRdSec) :
    codecNext s = if s.tResult.getLsbD 7 then
        enterWrite .initWrSec Config.rtcDevAddr 0x00 (s.tResult &&& 0x7F) (s.noteStatus.keepTmp s.tResult)
      else enterRead .initRdHr Config.rtcDevAddr 0x02 (s.noteStatus.keepTmp s.tResult) := by
  simp [codecNext, h]

theorem codecNext_initWrSec {s : State} (h : s.cst = .initWrSec) :
    codecNext s = s.noteStatus.enter .initSettle := by
  simp [codecNext, h]

theorem codecNext_initSettle {s : State} (h : s.cst = .initSettle) :
    codecNext s = enterRead .initRdHr Config.rtcDevAddr 0x02 s := by
  simp [codecNext, h]

theorem codecNext_initRdHr {s : State} (h : s.cst = .initRdHr) :
    codecNext s = if s.tResult.getLsbD 6 then
        enterWrite .initWrHr Config.rtcDevAddr 0x02 (s.tResult &&& 0xBF) (s.noteStatus.keepTmp s.tResult)
      else (s.noteStatus.keepTmp s.tResult).respond 0 := by
  simp [codecNext, h]

theorem codecNext_initWrHr {s : State} (h : s.cst = .initWrHr) : codecNext s = s.noteStatus.respond 0 := by
  simp [codecNext, h]

/-! ### The commands as cycles -/

/-- WRITE_REG (R140). -/
theorem writeReg_reaches (d : DevAddr) (r v : Byte) (s : State) :
    Reaches (enterWrite .raw d r v s) ((regWrite .raw d r v s).close fun _ s => s.respond 0) := by
  refine (regWrite_reaches (by decide) (by decide) d r v s).close ?_ fun _ h => h
  rintro _ _ ⟨u, rfl, hz, m⟩
  simpa [codecNext_raw m.cst, hz] using m.reaches

/-- READ_REG (R141). -/
theorem readReg_reaches (d : DevAddr) (r : Byte) {s : State} (hlimit : s.pollLimit ≠ 0) :
    Reaches (enterRead .raw d r s) ((regRead .raw d r s).close fun b s => s.respond b) := by
  refine (regRead_reaches (by decide) (by decide) d r hlimit).close ?_ fun _ h => h
  rintro _ _ ⟨u, rfl, rfl, m⟩
  simpa [codecNext_raw m.cst] using m.reaches

/-- A getter (spec/42_rtc_getters.md R180). -/
theorem get_reaches (r : Byte) {s : State} (hlimit : s.pollLimit ≠ 0) :
    Reaches (enterRead .getRd Config.rtcDevAddr r s)
      ((memRead .getRd r s).close fun b t => t.respond ((fieldOf s.op).ofByte b)) := by
  refine (regRead_reaches (by decide) (by decide) _ r hlimit).close ?_ fun _ h => h
  rintro _ _ ⟨u, rfl, rfl, m⟩
  simpa [codecNext_getRd m.cst, m.op] using m.reaches

/-- The write a setter ends with (spec/43_rtc_setters.md R202). -/
theorem setWrite_reaches (r v : Byte) (s : State) :
    Reaches (enterWrite .setWr Config.rtcDevAddr r v s)
      ((memWrite .setWr r v s).close fun _ s => s.respond 0) := by
  refine (regWrite_reaches (by decide) (by decide) _ r v s).close ?_ fun _ h => h
  rintro _ _ ⟨u, rfl, -, m⟩
  simpa [codecNext_setWr m.cst] using m.reaches

theorem Run.close_next {α β : Type} (r : Run α) (f : α → State → Run β) (g : β → State → State) :
    (r.next f).close g = r.close fun a s => (f a s).close g := by
  cases r <;> rfl

/-- The read, the merge and the write of a setter that keeps bits (R203). -/
theorem setKeeping_reaches {s : State} (hlimit : s.pollLimit ≠ 0) :
    Reaches (enterRead .setRd Config.rtcDevAddr (fieldOf s.op).register s)
      (((memRead .setRd (fieldOf s.op).register s).next fun cur t =>
        memWrite .setWr (fieldOf s.op).register
          (mergeKeep ((fieldOf s.op).toByte s.val) cur (fieldOf s.op).keep) (t.keepTmp cur)).close
        fun _ t => t.respond 0) := by
  rw [Run.close_next]
  refine (regRead_reaches (by decide) (by decide) _ _ hlimit).close ?_ fun _ h => h
  rintro _ _ ⟨u, rfl, rfl, m⟩
  refine m.reaches.trans ?_
  rw [codecNext_setRd m.cst, State.val, m.op, m.wdata]
  exact setWrite_reaches ..

/-- The seconds half of RTC_INIT (spec/44_rtc_init.md R220, R222): its cycles go on to the read of the hours half. -/
theorem initSeconds_reaches {s : State} (hlimit : s.pollLimit ≠ 0) :
    (initSeconds s).Ends
      (fun _ t => Reaches (enterRead .initRdSec Config.rtcDevAddr 0x00 s)
          (enterRead .initRdHr Config.rtcDevAddr 0x02 t) ∧ t.pollLimit ≠ 0)
      (Reaches (enterRead .initRdSec Config.rtcDevAddr 0x00 s)) := by
  refine (regRead_reaches (by decide) (by decide) _ _ hlimit).next ?_
  rintro _ _ ⟨u, rfl, rfl, m⟩
  have hm := m.reaches
  rw [codecNext_initRdSec m.cst] at hm
  split
  · rw [if_pos ‹_›] at hm
    refine Run.Ends.next ((regWrite_reaches (by decide) (by decide) _ _ _ _).mono (fun _ _ h => h)
      fun _ h => hm.trans h) ?_
    rintro _ _ ⟨w, rfl, -, mw⟩
    have hw := mw.reaches
    rw [codecNext_initWrSec mw.cst] at hw
    have hsettle := Reaches.one (w.noteStatus.enter .initSettle)
    rw [cycle_engineIdle ⟨by simp, by simp⟩ (by simpa using mw.est), codecNext_initSettle (by simp)] at hsettle
    exact ⟨hm.trans (hw.trans hsettle), by simpa [mw.pollLimit, m.pollLimit] using hlimit⟩
  · rw [if_neg ‹_›] at hm
    exact ⟨hm, by simpa [m.pollLimit] using hlimit⟩

/-- The hours half of RTC_INIT (R223). -/
theorem initHours_reaches {s : State} (hlimit : s.pollLimit ≠ 0) :
    Reaches (enterRead .initRdHr Config.rtcDevAddr 0x02 s) ((initHours s).close fun _ t => t.respond 0) := by
  unfold initHours
  rw [Run.close_next]
  refine (regRead_reaches (by decide) (by decide) _ _ hlimit).close ?_ fun _ h => h
  rintro _ _ ⟨u, rfl, rfl, m⟩
  have hm := m.reaches
  rw [codecNext_initRdHr m.cst] at hm
  split
  · rw [if_pos ‹_›] at hm
    refine hm.trans ((regWrite_reaches (by decide) (by decide) _ _ _ _).close ?_ fun _ h => h)
    rintro _ _ ⟨w, rfl, -, mw⟩
    simpa [codecNext_initWrHr mw.cst] using mw.reaches
  · rw [if_neg ‹_›] at hm
    exact hm

/-- RTC_INIT (R220). -/
theorem rtcInit_reaches {s : State} (hlimit : s.pollLimit ≠ 0) :
    Reaches (enterRead .initRdSec Config.rtcDevAddr 0x00 s)
      (((initSeconds s).next fun _ s => initHours s).close fun _ s => s.respond 0) := by
  rw [Run.close_next]
  exact (initSeconds_reaches hlimit).close (fun _ _ ⟨h, hl⟩ => h.trans (initHours_reaches hl)) fun _ h => h

/-! ### The step as cycles -/

theorem command_next_ready {latch body : State → State} {s t : State} (hready : s.cmdReady = true)
    (h : command latch body s = .next t) : s.pollLimit ≠ 0 ∧ t = body (latch s) := by
  rcases command_next h with ⟨hbusy, -⟩ | ⟨hs, ht⟩
  · simp [hready] at hbusy
  · exact ⟨hs.1, ht⟩

/-! Latching operands that are latched already changes nothing: the word's acceptance has loaded them (R22). -/

theorem latchEW_self {s : State} {op : BitVec 6} (h : s.op = op) : latchEW op s.dev s.reg s.wdata s = s := by
  subst h
  rfl

theorem latchER_self {s : State} {op : BitVec 6} (h : s.op = op) : latchER op s.dev s.reg s = s := by
  subst h
  rfl

theorem latchN_self {s : State} {op : BitVec 6} (h : s.op = op) : latchN op s = s := by
  subst h
  rfl

theorem latchV_self {s : State} {op : BitVec 6} (h : s.op = op) : latchV op s.wdata s = s := by
  subst h
  rfl

section
variable {s t : State} (hready : s.cmdReady = true)
include hready

theorem exec_writeReg_reaches (hop : s.op = 1) (h : exec (.writeReg s.dev s.reg s.wdata) s = .next t) :
    Reaches (startCommand s) t := by
  replace h : execWriteReg s.dev s.reg s.wdata s = .next t := h
  obtain ⟨-, rfl⟩ := command_next_ready hready h
  rw [startCommand_writeReg hop, latchEW_self hop]
  exact writeReg_reaches ..

theorem exec_readReg_reaches (hop : s.op = 2) (h : exec (.readReg s.dev s.reg) s = .next t) :
    Reaches (startCommand s) t := by
  replace h : execReadReg s.dev s.reg s = .next t := h
  obtain ⟨hlimit, rfl⟩ := command_next_ready hready h
  rw [startCommand_readReg hop, latchER_self hop]
  exact readReg_reaches _ _ hlimit

theorem exec_rtcInit_reaches (hop : s.op = 3) (h : exec .rtcInit s = .next t) : Reaches (startCommand s) t := by
  replace h : execRtcInit s = .next t := h
  obtain ⟨hlimit, rfl⟩ := command_next_ready hready h
  rw [startCommand_rtcInit hop, latchN_self hop]
  exact rtcInit_reaches hlimit

theorem exec_getter_reaches {f : Field} (hop : s.op = (Instr.getter f).opcode) (h : exec (.getter f) s = .next t) :
    Reaches (startCommand s) t := by
  rw [exec_getter] at h
  obtain ⟨hlimit, rfl⟩ := command_next_ready hready h
  rw [startCommand_getter hop, latchN_self hop]
  obtain rfl : fieldOf s.op = f := by rw [hop, fieldOf_getter_opcode]
  exact get_reaches (s := s.clearStatus) _ hlimit

theorem exec_setter_reaches {f : Field} (hop : s.op = (Instr.setter f s.wdata).opcode)
    (h : exec (.setter f s.wdata) s = .next t) : Reaches (startCommand s) t := by
  rw [startCommand_setter hop]
  unfold startSet State.val
  by_cases hk : f.keep = 0
  · rw [exec_setter_plain hk] at h
    obtain ⟨-, rfl⟩ := command_next_ready hready h
    rw [latchV_self hop, if_pos hk]
    split
    · exact setWrite_reaches ..
    · exact .refl _
  · rw [exec_setter_keeping hk] at h
    obtain ⟨hlimit, rfl⟩ := command_next_ready hready h
    rw [latchV_self hop, if_neg hk]
    split
    · obtain rfl : fieldOf s.op = f := by rw [hop, fieldOf_setter_opcode]
      exact setKeeping_reaches (s := s.clearStatus) hlimit
    · exact .refl _

/-- The command a word decodes to, run on the state with the word's fields latched, is the cycles from the command's
first state. -/
theorem exec_reaches {w : CmdWord} {i : Instr} (hd : decode w = .command i) (h : exec i (s.latchWord w) = .next t) :
    Reaches (startCommand (s.latchWord w)) t := by
  have hready' : (s.latchWord w).cmdReady = true := hready
  obtain ⟨hop, rfl | rfl | rfl | ⟨f, rfl⟩ | ⟨f, rfl⟩⟩ := decode_command hd
  · exact exec_writeReg_reaches hready' hop h
  · exact exec_readReg_reaches hready' hop h
  · exact exec_rtcInit_reaches hready' hop h
  · exact exec_getter_reaches hready' hop h
  · exact exec_setter_reaches hready' hop h

end

theorem cycle_accept {s : State} {w : CmdWord} {rest : List CmdWord} (hc : s.cst = .idle)
    (hw : s.commands = w :: rest) : cycle s = acceptCycle w { s with commands := rest } := by
  unfold cycle
  simp [hc, hw]

theorem acceptCycle_command {w : CmdWord} {i : Instr} (hd : decode w = .command i) (s : State) :
    acceptCycle w s = startCommand (s.latchWord w) := by
  simp [acceptCycle, hd]

theorem acceptCycle_illegal {w : CmdWord} {why : Illegal} (hd : decode w = .illegal why) (s : State) :
    acceptCycle w s = (s.latchWord w).reject .illegal := by
  simp [acceptCycle, hd]

theorem step_reaches {s t : State} (hrst : s.rst = false) (h : step s = .next t) : Reaches s t := by
  rcases step_cases h with ⟨hr, -⟩ | ⟨-, -, -, rfl⟩ | ⟨-, -, hc, ⟨-, rfl⟩ | ⟨w, rest, hw, hword⟩⟩
  · simp [hrst] at hr
  · exact .one s
  · exact .refl _
  · have hcycle := Reaches.one s
    rw [cycle_accept hc hw] at hcycle
    rcases hword with ⟨why, hd, rfl⟩ | ⟨i, hd, hexec⟩
    · rwa [acceptCycle_illegal hd] at hcycle
    · rw [acceptCycle_command hd] at hcycle
      exact hcycle.trans (exec_reaches (by simp [State.cmdReady, hc, hrst]) hd hexec)

end Sys2Proof.Machine

namespace Sys2Proof.Claims

open Sys2Proof.Machine

/-- Settles O25: a busy step is one cycle, and an accepted command's pieces are cycles one after the other. -/
theorem stepIsClockCycles : Obligations.StepIsClockCycles :=
  fun _ _ => step_reaches

end Sys2Proof.Claims
end

section
/-! The invariants of the step (obligations O53, O55, O56). A step is clock cycles or a reset, so an invariant is shown
of the cycle: of the codec's moves between transactions and of the engine's moves inside one. -/

namespace Sys2Proof.Machine

/-! ### What a cycle leaves alone -/

/-- Everything a clock cycle can be, also where the sequencers disagree. -/
theorem cycle_cases_any {I : State → Prop} {s : State}
    (haccept : ∀ w rest, s.cst = .idle → s.commands = w :: rest → I (acceptCycle w { s with commands := rest }))
    (hself : I s) (hresp : s.cst = .resp → I (s.enter .idle)) (hcodec : Busy s → s.est = .idle → I (codecNext s))
    (hengine : Busy s → s.est ≠ .idle → I (engineCycle s)) : I (cycle s) := by
  by_cases hidle : s.cst = .idle
  · cases hw : s.commands with
    | nil => simpa [cycle, hidle, hw] using hself
    | cons w rest => exact cycle_accept hidle hw ▸ haccept w rest hidle hw
  · by_cases hc : s.cst = .resp
    · exact cycle_resp hc ▸ hresp hc
    · by_cases he : s.est = .idle
      · exact cycle_engineIdle ⟨hidle, hc⟩ he ▸ hcodec ⟨hidle, hc⟩ he
      · exact cycle_engine ⟨hidle, hc⟩ he ▸ hengine ⟨hidle, hc⟩ he

/-- What the codec's moves come to, for an invariant that does not look at the codec state: a transaction starts, a
response is entered, or the codec state alone moves. -/
theorem codecNext_moves {I : State → Prop} {s : State} (he : s.est = .idle) (hc : s.cst ≠ .idle)
    (hstart : ∀ u, (u = s ∨ ∃ b, u = s.noteStatus.keepTmp b) →
      (∀ p d r, I (enterRead p d r u)) ∧ ∀ p d r v, I (enterWrite p d r v u))
    (hrespond : ∀ u, (u = s.noteStatus ∨ ∃ b, u = s.noteStatus.keepTmp b) → ∀ data, I (u.respond data))
    (henter : ∀ u, (u = s ∨ u = s.noteStatus) → ∀ p, I (u.enter p)) : I (codecNext s) :=
  codecNext_cases he hc
    (hR := fun p d r u _ _ _ _ _ hu => (hstart u hu).1 p d r)
    (hW := fun p d r v u _ _ _ _ _ hu => (hstart u (.inr hu)).2 p d r v)
    (hraw := fun _ => hrespond _ (.inl rfl) _)
    (hget := fun _ _ => hrespond _ (.inl rfl) _)
    (hresp := hrespond _ (.inl rfl) 0)
    (hresp' := fun b => hrespond _ (.inr ⟨b, rfl⟩) 0)
    (hset := henter _ (.inr rfl) _)
    (hidle := henter _ (.inl rfl) _)

/-- The codec's registers, the host's side and the parameter: what the engine does not touch (R25, R26). -/
structure SameCodec (s t : State) : Prop where
  cst : t.cst = s.cst
  op : t.op = s.op
  dev : t.dev = s.dev
  reg : t.reg = s.reg
  wdata : t.wdata = s.wdata
  tmp : t.tmp = s.tmp
  firstFail : t.firstFail = s.firstFail
  rspData : t.rspData = s.rspData
  rspStatus : t.rspStatus = s.rspStatus
  rst : t.rst = s.rst
  commands : t.commands = s.commands
  pollLimit : t.pollLimit = s.pollLimit

theorem afterAddrW_sameCodec (s : State) : SameCodec s (afterAddrW s) := by
  unfold afterAddrW
  split <;> constructor <;> simp [bail]

theorem afterReg_sameCodec (s : State) : SameCodec s (afterReg s) := by
  unfold afterReg
  split
  · constructor <;> simp [bail]
  · dsimp only
    split <;> constructor <;> simp

theorem afterData_sameCodec (s : State) : SameCodec s (afterData s) := by
  unfold afterData
  split <;> constructor <;> simp [bail]

theorem afterAddrR_sameCodec (s : State) : SameCodec s (afterAddrR s) := by
  unfold afterAddrR
  split <;> constructor <;> simp [bail]

theorem sample_sameCodec (s : State) : SameCodec s (sample s) := by
  unfold sample
  split
  · constructor <;> simp
  · split <;> constructor <;> simp

theorem engineCycle_sameCodec {s : State} (he : s.est ≠ .idle) : SameCodec s (engineCycle s) :=
  engineCycle_cases he
    (hw := fun _ => by constructor <;> simp)
    (h1 := fun _ => by constructor <;> simp [afterStart])
    (h2 := fun _ => afterAddrW_sameCodec s)
    (h3 := fun _ => afterReg_sameCodec s)
    (h4 := fun _ => afterData_sameCodec s)
    (h5 := fun _ => by constructor <;> simp [afterRestart])
    (h6 := fun _ => afterAddrR_sameCodec s)
    (h7 := fun _ => sample_sameCodec s)
    (h8 := fun _ => by constructor <;> simp [afterMnack])
    (h9 := fun _ => by constructor <;> simp [afterStop])

/-- No cycle changes the parameter (spec/60_exceptions.md R244). -/
theorem cycle_pollLimit (s : State) : (cycle s).pollLimit = s.pollLimit := by
  refine cycle_cases_any (I := fun t => t.pollLimit = s.pollLimit) (fun w rest _ _ => ?_) rfl (fun _ => rfl)
    (fun hb he => ?_) fun _ he => (engineCycle_sameCodec he).pollLimit
  · exact acceptCycle_cases (I := fun t => t.pollLimit = s.pollLimit) w (fun _ _ _ _ _ _ => rfl)
      (fun _ _ _ _ _ _ _ => rfl) fun _ _ => rfl
  · refine codecNext_moves (I := fun t => t.pollLimit = s.pollLimit) he hb.1 ?_ ?_ ?_
    · rintro _ (rfl | ⟨_, rfl⟩) <;> exact ⟨fun _ _ _ => rfl, fun _ _ _ _ => rfl⟩
    · rintro _ (rfl | ⟨_, rfl⟩) _ <;> rfl
    · rintro _ (rfl | rfl) _ <;> rfl

theorem cycles_keep {I : State → Prop} (hcycle : ∀ s : State, s.pollLimit ≠ 0 → I s → I (cycle s)) (n : Nat) :
    ∀ s : State, s.pollLimit ≠ 0 → I s → I (cycles n s) := by
  induction n with
  | zero => exact fun _ _ hs => hs
  | succ n ih => exact fun s hlimit hs => ih (cycle s) (by rwa [cycle_pollLimit]) (hcycle s hlimit hs)

/-- An invariant of the cycle and of the reset is an invariant of the step. -/
theorem step_keeps {I : State → Prop} (hcycle : ∀ s : State, s.pollLimit ≠ 0 → I s → I (cycle s))
    (hreset : ∀ s : State, s.cst = .idle → I s → I s.resetCore) {s t : State} (hs : I s) (h : step s = .next t) :
    I t := by
  have hlimit : s.pollLimit ≠ 0 := fun hz => by simp [step_of_pollLimit_zero hz] at h
  cases hrst : s.rst with
  | true =>
    rcases step_cases h with ⟨-, hc, rfl⟩ | ⟨hr, -⟩ | ⟨hr, -⟩
    · exact hreset s hc hs
    · simp [hrst] at hr
    · simp [hrst] at hr
  | false =>
    obtain ⟨n, rfl⟩ := step_reaches hrst h
    exact cycles_keep hcycle n s hlimit hs

/-! ### The status codes -/

/-- The codes of R28 are 0 to 4. -/
theorem Status.code_le (st : Status) : st.code.toNat ≤ 4 := by
  cases st <;> decide

theorem cycle_statusLegal {s : State} (hs : s.rspStatus.toNat ≤ 4) : (cycle s).rspStatus.toNat ≤ 4 := by
  refine cycle_cases_any (I := fun t => t.rspStatus.toNat ≤ 4) (fun w rest _ _ => ?_) hs (fun _ => hs)
    (fun hb he => ?_) fun _ he => (engineCycle_sameCodec he).rspStatus ▸ hs
  · exact acceptCycle_cases (I := fun t => t.rspStatus.toNat ≤ 4) w (fun _ _ _ _ _ _ => hs)
      (fun _ _ _ _ _ _ _ => hs) fun st _ => st.code_le
  · refine codecNext_moves (I := fun t => t.rspStatus.toNat ≤ 4) he hb.1 ?_ (fun _ _ _ => Status.code_le _) ?_
    · rintro _ (rfl | ⟨_, rfl⟩) <;> exact ⟨fun _ _ _ => hs, fun _ _ _ _ => hs⟩
    · rintro _ (rfl | rfl) _ <;> exact hs

/-! ### The sequencers agree -/

theorem sequencersAgree_of_engineIdle {s : State} (h : s.est = .idle) : s.SequencersAgree := fun _ => h

theorem sequencersAgree_of_running {s : State} (hidle : s.cst ≠ .idle) (hresp : s.cst ≠ .resp)
    (hsettle : s.cst ≠ .initSettle) : s.SequencersAgree := by
  rintro (h | h | h) <;> contradiction

theorem cycle_sequencersAgree {s : State} (ha : s.SequencersAgree) : (cycle s).SequencersAgree := by
  refine cycle_cases ha (fun w rest _ he _ => ?_) ha (fun hc he => ?_) fun h1 h2 h3 he => ?_
  · exact acceptCycle_cases w (fun _ _ _ h1 h2 h3 => sequencersAgree_of_running h1 h2 h3)
      (fun _ _ _ _ h1 h2 h3 => sequencersAgree_of_running h1 h2 h3) fun _ _ => sequencersAgree_of_engineIdle he
  · exact codecNext_cases he hc (fun _ _ _ _ h1 h2 h3 _ _ _ => sequencersAgree_of_running h1 h2 h3)
      (fun _ _ _ _ _ h1 h2 h3 _ _ _ => sequencersAgree_of_running h1 h2 h3)
      (fun _ => sequencersAgree_of_engineIdle he) (fun _ _ => sequencersAgree_of_engineIdle he)
      (sequencersAgree_of_engineIdle he) (fun _ => sequencersAgree_of_engineIdle he)
      (sequencersAgree_of_engineIdle he) (sequencersAgree_of_engineIdle he)
  · have hcst := (engineCycle_sameCodec he).cst
    exact sequencersAgree_of_running (hcst ▸ h1) (hcst ▸ h2) (hcst ▸ h3)

/-! ### The bus -/

theorem busPhase_emit (t : List Event) (e : Event) : busPhase (t ++ [e]) = (busPhase t).after e := by
  simp [busPhase_append]

theorem busDisciplined_of_closed {s : State} (he : s.est.closed = true) (h : busPhase s.trace = .free) :
    s.BusDisciplined := by
  simp [State.BusDisciplined, he, h]

theorem busDisciplined_of_open {s : State} (he : s.est.closed = false) (h : busPhase s.trace = .held) :
    s.BusDisciplined := by
  simp [State.BusDisciplined, he, h]

theorem State.BusDisciplined.free {s : State} (h : s.BusDisciplined) (he : s.est.closed = true) :
    busPhase s.trace = .free := by
  simpa [State.BusDisciplined, he] using h

theorem State.BusDisciplined.held {s : State} (h : s.BusDisciplined) (he : s.est.closed = false) :
    busPhase s.trace = .held := by
  simpa [State.BusDisciplined, he] using h

/-- A START on a released bus opens a transaction. -/
theorem requestStart_bus {s : State} (h : busPhase s.trace = .free) : s.requestStart.BusDisciplined :=
  busDisciplined_of_open rfl (by simp [busPhase_emit, h, BusPhase.after])

section
variable {s : State} (h : busPhase s.trace = .held)
include h

/-! Inside a transaction every request but the STOP keeps it open. -/

theorem emit_tx_held (b : Byte) (a : Ack) : busPhase (s.emit (.tx b a)).trace = .held := by
  simp [busPhase_emit, h, BusPhase.after]

theorem requestTx_bus {phase : EngineState} (hp : phase.closed = false) (b : Byte) :
    (s.requestTx phase b).BusDisciplined := busDisciplined_of_open hp h

theorem requestRestart_bus : s.requestRestart.BusDisciplined :=
  busDisciplined_of_open rfl (by simp [busPhase_emit, h, BusPhase.after])

theorem requestMnack_bus : s.requestMnack.BusDisciplined :=
  busDisciplined_of_open rfl (by simp [busPhase_emit, h, BusPhase.after])

theorem requestRx_bus : s.requestRx.BusDisciplined :=
  busDisciplined_of_open rfl (by simp [busPhase_emit, h, BusPhase.after])

theorem requestStop_bus : s.requestStop.BusDisciplined :=
  busDisciplined_of_closed rfl (by simp [busPhase_emit, h, BusPhase.after])

theorem afterAddrW_bus : (afterAddrW s).BusDisciplined := by
  unfold afterAddrW
  split
  · exact requestStop_bus (emit_tx_held h ..)
  · exact requestTx_bus (emit_tx_held h ..) rfl _

theorem afterReg_bus : (afterReg s).BusDisciplined := by
  unfold afterReg
  split
  · exact requestStop_bus (emit_tx_held h ..)
  · dsimp only
    split
    · exact requestTx_bus (emit_tx_held h s.tReg s.lAckstat) rfl s.tWdata
    · exact requestRestart_bus (emit_tx_held h s.tReg s.lAckstat)

theorem afterData_bus : (afterData s).BusDisciplined := by
  unfold afterData
  split
  · exact requestStop_bus (emit_tx_held h ..)
  · exact requestStop_bus (emit_tx_held h ..)

theorem afterAddrR_bus : (afterAddrR s).BusDisciplined := by
  unfold afterAddrR
  split
  · exact requestStop_bus (emit_tx_held h ..)
  · exact requestRx_bus (emit_tx_held h ..)

theorem sample_bus (he : s.est = .rxPoll) : (sample s).BusDisciplined := by
  unfold sample
  split
  · exact requestMnack_bus (by simp [busPhase_emit, h, BusPhase.after])
  · split
    · exact requestStop_bus (by simp [busPhase_emit, h, BusPhase.after])
    · exact busDisciplined_of_open (by simp [he, EngineState.closed]) h

end

theorem engineCycle_bus {s : State} (he : s.est ≠ .idle) (h : s.BusDisciplined) : (engineCycle s).BusDisciplined := by
  have held {e : EngineState} (hs : s.est = e) (ho : e.closed = false) : busPhase s.trace = .held := h.held (hs ▸ ho)
  exact engineCycle_cases he (fun _ => h)
    (h1 := fun hs => requestTx_bus (s := s.quiet) (held hs rfl) rfl _)
    (h2 := fun hs => afterAddrW_bus (held hs rfl))
    (h3 := fun hs => afterReg_bus (held hs rfl))
    (h4 := fun hs => afterData_bus (held hs rfl))
    (h5 := fun hs => requestTx_bus (s := s.quiet) (held hs rfl) rfl _)
    (h6 := fun hs => afterAddrR_bus (held hs rfl))
    (h7 := fun hs => sample_bus (held hs rfl) hs)
    (h8 := fun hs => requestStop_bus (s := s.quiet.takeResult) (held hs rfl))
    (h9 := fun hs => busDisciplined_of_closed rfl (h.free (hs ▸ rfl)))

/-- The codec moves only on a released bus: it starts a transaction, or leaves engine and bus alone. -/
theorem cycle_bus {s : State} (ha : s.SequencersAgree) (h : s.BusDisciplined) : (cycle s).BusDisciplined := by
  have free (he : s.est = .idle) : busPhase s.trace = .free := h.free (by rw [he]; rfl)
  refine cycle_cases ha (fun w rest _ he _ => ?_) h (fun hc he => ?_) fun _ _ _ he => engineCycle_bus he h
  · exact acceptCycle_cases w (fun _ _ _ _ _ _ => requestStart_bus (free he))
      (fun _ _ _ _ _ _ _ => requestStart_bus (free he)) fun _ _ => h
  · refine codecNext_moves he hc ?_ ?_ ?_
    · rintro _ (rfl | ⟨_, rfl⟩) <;>
        exact ⟨fun _ _ _ => requestStart_bus (free he), fun _ _ _ _ => requestStart_bus (free he)⟩
    · rintro _ (rfl | ⟨_, rfl⟩) _ <;> exact h
    · rintro _ (rfl | rfl) _ <;> exact h

theorem resetCore_bus {s : State} (he : s.est = .idle) (h : s.BusDisciplined) : s.resetCore.BusDisciplined :=
  busDisciplined_of_closed rfl (h.free (by rw [he]; rfl))

/-! ### The line unit and the poll counter -/

/-- The line unit does what the engine awaits, and the poll counter is in range. -/
def State.LineAndPoll (s : State) : Prop := s.LineAwaited ∧ s.PollBounded

/-- Outside `E_RX_POLL` the poll counter is not read. -/
theorem lineAndPoll_of_not_polling {s : State} (hl : s.LineAwaited) (he : s.est ≠ .rxPoll) : s.LineAndPoll :=
  ⟨hl, fun h => absurd h he⟩

theorem State.LineAwaited.line_idle {s : State} (h : s.LineAwaited) (he : s.est = .idle) : s.line = .idle := by
  cases hl : s.line with
  | idle => rfl
  | prim | tx | rx => simp [State.LineAwaited, he, hl] at h

/-! A cycle without the awaited flag leaves the kind of the operation in flight as it is (R124, R125). -/

theorem Line.tick_prim (c : Completion) : ∃ c', (Line.prim c).tick = .prim c' := by
  rcases c with (_ | n) | _ <;> exact ⟨_, rfl⟩

theorem Line.tick_tx (c : Completion) (a : Ack) : ∃ c', (Line.tx c a).tick = .tx c' a := by
  rcases c with (_ | n) | _ <;> exact ⟨_, rfl⟩

theorem Line.tick_rx (o : Option Nat) (b : Byte) : ∃ o', (Line.rx o b).tick = .rx o' b := by
  rcases o with _ | _ | n <;> exact ⟨_, rfl⟩

theorem wait_lineAwaited {s : State} (he : s.est ≠ .idle) (h : s.LineAwaited) : s.wait.LineAwaited := by
  unfold State.LineAwaited at h ⊢
  rw [State.wait_est, State.wait_line]
  cases hl : s.line with
  | idle => cases hs : s.est <;> simp_all
  | prim c =>
    obtain ⟨c', hc⟩ := Line.tick_prim c
    cases hs : s.est <;> simp_all
  | tx c a =>
    obtain ⟨c', hc⟩ := Line.tick_tx c a
    cases hs : s.est <;> simp_all
  | rx o b =>
    obtain ⟨o', ho⟩ := Line.tick_rx o b
    cases hs : s.est <;> simp_all

/-! After a request the line unit is doing what was requested, which is what the engine now awaits. -/

theorem requestStart_line (s : State) : s.requestStart.LineAndPoll :=
  lineAndPoll_of_not_polling trivial (by simp)

theorem requestRestart_line (s : State) : s.requestRestart.LineAndPoll :=
  lineAndPoll_of_not_polling trivial (by simp)

theorem requestMnack_line (s : State) : s.requestMnack.LineAndPoll :=
  lineAndPoll_of_not_polling trivial (by simp)

theorem requestStop_line (s : State) : s.requestStop.LineAndPoll :=
  lineAndPoll_of_not_polling trivial (by simp)

/-- The engine states that await a transmission (R129, R130, R131, R133). -/
def EngineState.transmits : EngineState → Bool
  | .addrW | .reg | .data | .addrR => true
  | _ => false

theorem requestTx_line {phase : EngineState} (hp : phase.transmits = true) (b : Byte) (s : State) :
    (s.requestTx phase b).LineAndPoll := by
  cases phase with
  | addrW | reg | data | addrR => exact lineAndPoll_of_not_polling trivial (by simp)
  | idle | start | restart | rxPoll | mnack | stop => cases hp

theorem requestRx_line {s : State} (hlimit : s.pollLimit ≠ 0) : s.requestRx.LineAndPoll := by
  refine ⟨?_, fun _ => ⟨hlimit, BitVec.le_refl _⟩⟩
  cases hr : s.rxAnswer s.rxSeen <;> simp [State.LineAwaited, State.receiving, hr]

theorem afterAddrW_line (s : State) : (afterAddrW s).LineAndPoll := by
  unfold afterAddrW
  split
  · exact requestStop_line _
  · exact requestTx_line rfl ..

theorem afterReg_line (s : State) : (afterReg s).LineAndPoll := by
  unfold afterReg
  split
  · exact requestStop_line _
  · dsimp only
    split
    · exact requestTx_line rfl ..
    · exact requestRestart_line _

theorem afterData_line (s : State) : (afterData s).LineAndPoll := by
  unfold afterData
  split
  · exact requestStop_line _
  · exact requestStop_line _

theorem afterAddrR_line {s : State} (hlimit : s.pollLimit ≠ 0) : (afterAddrR s).LineAndPoll := by
  unfold afterAddrR
  split
  · exact requestStop_line _
  · exact requestRx_line hlimit

/-- A clear sample that is not the last one counts down and stays in range (R136). -/
theorem sample_line {s : State} (he : s.est = .rxPoll) (h : s.LineAndPoll) : (sample s).LineAndPoll := by
  obtain ⟨hline, hpoll⟩ := h
  obtain ⟨hcnt, hle⟩ := hpoll he
  unfold sample
  split
  · exact requestMnack_line _
  · split
    · exact requestStop_line _
    · rename_i hlast
      refine ⟨wait_lineAwaited (by simp [he]) hline, fun _ => ⟨hlast, ?_⟩⟩
      show s.cnt - 1 ≤ s.pollLimit
      rw [BitVec.le_def, toNat_sub_one _ hcnt]
      exact (Nat.sub_le ..).trans hle

theorem engineCycle_line {s : State} (hlimit : s.pollLimit ≠ 0) (he : s.est ≠ .idle) (h : s.LineAndPoll) :
    (engineCycle s).LineAndPoll :=
  engineCycle_cases he (fun hp => lineAndPoll_of_not_polling (wait_lineAwaited he h.1) hp)
    (h1 := fun _ => requestTx_line rfl ..)
    (h2 := fun _ => afterAddrW_line s)
    (h3 := fun _ => afterReg_line s)
    (h4 := fun _ => afterData_line s)
    (h5 := fun _ => requestTx_line rfl ..)
    (h6 := fun _ => afterAddrR_line hlimit)
    (h7 := fun hp => sample_line hp h)
    (h8 := fun _ => requestStop_line _)
    (h9 := fun _ => lineAndPoll_of_not_polling rfl (by simp [afterStop]))

/-- The codec starts a transaction, or leaves engine and line unit alone. -/
theorem cycle_line {s : State} (hlimit : s.pollLimit ≠ 0) (ha : s.SequencersAgree) (h : s.LineAndPoll) :
    (cycle s).LineAndPoll := by
  refine cycle_cases ha (fun w rest _ _ _ => ?_) h (fun hc he => ?_) fun _ _ _ he => engineCycle_line hlimit he h
  · exact acceptCycle_cases w (fun _ _ _ _ _ _ => requestStart_line _) (fun _ _ _ _ _ _ _ => requestStart_line _)
      fun _ _ => h
  · refine codecNext_moves he hc ?_ ?_ ?_
    · exact fun _ _ => ⟨fun _ _ _ => requestStart_line _, fun _ _ _ _ => requestStart_line _⟩
    · rintro _ (rfl | ⟨_, rfl⟩) _ <;> exact h
    · rintro _ (rfl | rfl) _ <;> exact h

theorem resetCore_line {s : State} (he : s.est = .idle) (h : s.LineAndPoll) : s.resetCore.LineAndPoll := by
  refine lineAndPoll_of_not_polling ?_ (show EngineState.idle ≠ .rxPoll by decide)
  have hline : s.resetCore.line = .idle := h.1.line_idle he
  unfold State.LineAwaited
  rw [hline]
  rfl

end Sys2Proof.Machine

namespace Sys2Proof.Claims

open Sys2Proof.Machine

/-- Settles O53: a response takes its status from one of the five codes of R28, and reset from 0. -/
theorem statusStaysLegal : Obligations.StatusStaysLegal := fun _ _ hs h =>
  step_keeps (I := fun s => s.rspStatus.toNat ≤ 4) (fun _ _ => cycle_statusLegal) (fun _ _ _ => Nat.zero_le 4) hs h

/-- Settles O55: each cycle keeps that the sequencers agree and, with it, the discipline of the bus; a reset in `C_IDLE`
finds the engine idle and the bus released. -/
theorem stepKeepsBusDiscipline : Obligations.StepKeepsBusDiscipline := fun _ _ ha hb h =>
  step_keeps (I := fun s => s.SequencersAgree ∧ s.BusDisciplined)
    (fun _ _ ⟨ha, hb⟩ => ⟨cycle_sequencersAgree ha, cycle_bus ha hb⟩)
    (fun _ hc ⟨ha, hb⟩ => ⟨sequencersAgree_of_engineIdle rfl, resetCore_bus (ha (.inl hc)) hb⟩) ⟨ha, hb⟩ h

/-- Settles O56: the same with the line unit and the poll counter; a reset in `C_IDLE` finds the line unit idle. -/
theorem stepKeepsLineAndPoll : Obligations.StepKeepsLineAndPoll := fun _ _ ha hl hp h =>
  (step_keeps (I := fun s => s.SequencersAgree ∧ s.LineAndPoll)
    (fun _ hlimit ⟨ha, hl⟩ => ⟨cycle_sequencersAgree ha, cycle_line hlimit ha hl⟩)
    (fun _ hc ⟨ha, hl⟩ => ⟨sequencersAgree_of_engineIdle rfl, resetCore_line (ha (.inl hc)) hl⟩) ⟨ha, hl, hp⟩ h).2

end Sys2Proof.Claims
end

section
/-! One step by its cases (obligations O11 to O13, O15, O16, O58), and the response registers, written only on entering
`C_RESP` (O17). -/

namespace Sys2Proof.Machine

open Sys2Proof.Claims (ResponseKept)

/-! ### What a step is, by case -/

theorem State.cmdReady_iff {s : State} : s.cmdReady = true ↔ s.cst = .idle ∧ s.rst = false := by
  simp [State.cmdReady]

/-- With `rst` asserted a step is the reset (R45). -/
theorem step_reset {s : State} (hlimit : s.pollLimit ≠ 0) (hrst : s.rst = true) : step s = resetStep s := by
  simp only [step, advance, if_neg hlimit, if_pos hrst]

theorem resetStep_idle {s : State} (hc : s.cst = .idle) : resetStep s = .next s.resetCore := by
  simp [resetStep, hc]

theorem resetStep_busy {s : State} (hc : s.cst ≠ .idle) : resetStep s = .refused .resetWhileBusy := by
  unfold resetStep
  split
  · contradiction
  · rfl

/-- A step of a ready block waits or accepts a word (R30). -/
theorem step_ready {s : State} (hlimit : s.pollLimit ≠ 0) (hready : s.cmdReady = true) : step s = idleStep s := by
  obtain ⟨hc, hrst⟩ := State.cmdReady_iff.1 hready
  simp only [step, advance, if_neg hlimit, hrst, hc]
  rfl

theorem idleStep_nil {s : State} (hw : s.commands = []) : idleStep s = .next s := by
  simp [idleStep, hw]

theorem idleStep_cons {s : State} {w : CmdWord} {rest : List CmdWord} (hw : s.commands = w :: rest) :
    idleStep s = acceptWord w { s with commands := rest } := by
  simp [idleStep, hw]

theorem acceptWord_command {w : CmdWord} {i : Instr} (hd : decode w = .command i) (s : State) :
    acceptWord w s = exec i (s.latchWord w) := by
  simp [acceptWord, hd]

/-- Outside `C_IDLE` a step is one clock cycle (assumption log 1). -/
theorem step_busy {s : State} (hlimit : s.pollLimit ≠ 0) (hrst : s.rst = false) (hc : s.cst ≠ .idle) :
    step s = .next (cycle s) := by
  simp only [step, advance, if_neg hlimit, hrst]
  split <;> simp_all

/-! ### The response registers -/

/-- Both response registers (spec/10_state.md R27) as they were. -/
def SameResponse (s t : State) : Prop := t.rspData = s.rspData ∧ t.rspStatus = s.rspStatus

theorem SameResponse.kept {s t : State} (h : SameResponse s t) : ResponseKept s t := fun _ => h

theorem SameResponse.trans {s t u : State} (h : SameResponse s t) (k : SameResponse t u) : SameResponse s u :=
  ⟨k.1.trans h.1, k.2.trans h.2⟩

theorem PieceFrame.sameResponse {n : Nat} {S : List Nat} {s t : State} (h : PieceFrame n S s t) : SameResponse s t :=
  ⟨h.rspData, h.rspStatus⟩

theorem responseKept_of_resp {s t : State} (h : t.cst = .resp) : ResponseKept s t := fun hc => absurd h hc

theorem cycle_responseKept (s : State) : ResponseKept s (cycle s) := by
  refine cycle_cases_any (I := ResponseKept s) (fun w rest _ _ => ?_) (fun _ => ⟨rfl, rfl⟩) (fun _ _ => ⟨rfl, rfl⟩)
    (fun hb he => ?_) fun _ he _ => ⟨(engineCycle_sameCodec he).rspData, (engineCycle_sameCodec he).rspStatus⟩
  · exact acceptCycle_cases (I := ResponseKept s) w (fun _ _ _ _ _ _ _ => ⟨rfl, rfl⟩)
      (fun _ _ _ _ _ _ _ _ => ⟨rfl, rfl⟩) fun _ _ => responseKept_of_resp rfl
  · refine codecNext_moves (I := ResponseKept s) he hb.1 ?_ (fun _ _ _ => responseKept_of_resp rfl) ?_
    · rintro _ (rfl | ⟨_, rfl⟩) <;> exact ⟨fun _ _ _ _ => ⟨rfl, rfl⟩, fun _ _ _ _ _ => ⟨rfl, rfl⟩⟩
    · rintro _ (rfl | rfl) _ _ <;> exact ⟨rfl, rfl⟩

/-! A piece of a command leaves the response registers alone, whether it ends or hangs. -/

theorem regWrite_sameResponse (phase : CodecState) (d : DevAddr) (r v : Byte) (s : State) :
    (regWrite phase d r v s).Ends (fun _ t => SameResponse s t) (SameResponse s) :=
  (regWrite_frame phase d r v s).mono (fun _ _ h => h.1.sameResponse) fun _ h => h.1.sameResponse

theorem regRead_sameResponse (phase : CodecState) (d : DevAddr) (r : Byte) (s : State) :
    (regRead phase d r s).Ends (fun _ t => SameResponse s t) (SameResponse s) :=
  (regRead_frame phase d r s).mono (fun _ _ h => h.1.sameResponse) fun _ h => h.1.sameResponse

/-- One piece after another, each leaving the response registers alone. -/
theorem Run.Ends.next_sameResponse {α β : Type} {s : State} {r : Run α} {f : α → State → Run β}
    (h : r.Ends (fun _ t => SameResponse s t) (SameResponse s))
    (hf : ∀ a t, (f a t).Ends (fun _ u => SameResponse t u) (SameResponse t)) :
    (r.next f).Ends (fun _ t => SameResponse s t) (SameResponse s) :=
  h.next fun a t ht => (hf a t).mono (fun _ _ hu => ht.trans hu) fun _ hu => ht.trans hu

theorem initSeconds_sameResponse (s : State) :
    (initSeconds s).Ends (fun _ t => SameResponse s t) (SameResponse s) := by
  refine (regRead_sameResponse ..).next_sameResponse fun sec t => ?_
  split
  · exact (regWrite_sameResponse _ _ _ _ (t.keepTmp sec)).next_sameResponse fun _ _ => ⟨rfl, rfl⟩
  · exact ⟨rfl, rfl⟩

theorem initHours_sameResponse (s : State) : (initHours s).Ends (fun _ t => SameResponse s t) (SameResponse s) := by
  refine (regRead_sameResponse ..).next_sameResponse fun hr t => ?_
  split
  · exact regWrite_sameResponse _ _ _ _ (t.keepTmp hr)
  · exact ⟨rfl, rfl⟩

/-- A command that ends with its response, or hangs in a piece that left the response registers alone. -/
theorem Run.Ends.close_responseKept {α : Type} {s : State} {r : Run α}
    (h : r.Ends (fun _ t => SameResponse s t) (SameResponse s)) (data : α → Byte) :
    ResponseKept s (r.close fun a t => t.respond (data a)) :=
  h.close (fun _ _ _ => responseKept_of_resp rfl) fun _ ht => ht.kept

theorem command_responseKept {latch body : State → State} {s t : State} (h : command latch body s = .next t)
    (hlatch : SameResponse s (latch s)) (hbody : ∀ u, ResponseKept u (body u)) : ResponseKept s t := by
  rcases command_next h with ⟨-, rfl⟩ | ⟨-, rfl⟩
  · exact fun _ => ⟨rfl, rfl⟩
  · exact fun hc => hlatch.trans (hbody _ hc)

section
variable {s t : State}

theorem execWriteReg_responseKept {d : DevAddr} {r v : Byte} (h : execWriteReg d r v s = .next t) : ResponseKept s t :=
  command_responseKept h ⟨rfl, rfl⟩ fun u =>
    (regWrite_sameResponse _ _ _ _ u.clearStatus).close_responseKept fun _ => 0

theorem execReadReg_responseKept {d : DevAddr} {r : Byte} (h : execReadReg d r s = .next t) : ResponseKept s t :=
  command_responseKept h ⟨rfl, rfl⟩ fun u => (regRead_sameResponse _ _ _ u.clearStatus).close_responseKept id

theorem execRtcInit_responseKept (h : execRtcInit s = .next t) : ResponseKept s t :=
  command_responseKept h ⟨rfl, rfl⟩ fun u =>
    ((initSeconds_sameResponse u.clearStatus).next_sameResponse fun _ => initHours_sameResponse).close_responseKept
      fun _ => 0

theorem getCommand_responseKept {op : BitVec 6} {r : Byte} {decoded : Byte → Byte}
    (h : getCommand op r decoded s = .next t) : ResponseKept s t :=
  command_responseKept h ⟨rfl, rfl⟩ fun u => (regRead_sameResponse _ _ _ u.clearStatus).close_responseKept decoded

theorem setPlain_responseKept {op : BitVec 6} {r lo hi encoded v : Byte}
    (h : setPlain op r lo hi encoded v s = .next t) : ResponseKept s t := by
  refine command_responseKept h ⟨rfl, rfl⟩ fun u => ?_
  split
  · exact (regWrite_sameResponse _ _ _ _ u.clearStatus).close_responseKept fun _ => 0
  · exact responseKept_of_resp rfl

theorem setKeeping_responseKept {op : BitVec 6} {r lo hi keep encoded v : Byte}
    (h : setKeeping op r lo hi keep encoded v s = .next t) : ResponseKept s t := by
  refine command_responseKept h ⟨rfl, rfl⟩ fun u => ?_
  split
  · exact ((regRead_sameResponse _ _ _ u.clearStatus).next_sameResponse fun cur w =>
      regWrite_sameResponse _ _ _ _ (w.keepTmp cur)).close_responseKept fun _ => 0
  · exact responseKept_of_resp rfl

/-- A command that has not come to its response has not written the response registers (R27). -/
theorem exec_responseKept {i : Instr} (h : exec i s = .next t) : ResponseKept s t := by
  cases i with
  | writeReg => exact execWriteReg_responseKept h
  | readReg => exact execReadReg_responseKept h
  | rtcInit => exact execRtcInit_responseKept h
  | getSeconds | getMinutes | getHours | getDayname | getDays | getMonths | getYears | getAseconds | getAminutes
  | getAhours => exact getCommand_responseKept h
  | setMinutes | setDayname | setDays | setMonths | setYears | setAseconds | setAminutes =>
    exact setPlain_responseKept h
  | setSeconds | setHours | setAhours => exact setKeeping_responseKept h

theorem step_responseKept (hrst : s.rst = false) (h : step s = .next t) : ResponseKept s t := by
  rcases step_cases h with ⟨hr, -⟩ | ⟨-, -, -, rfl⟩ |
    ⟨-, -, -, ⟨-, rfl⟩ | ⟨w, rest, -, ⟨why, -, rfl⟩ | ⟨i, -, hexec⟩⟩⟩
  · simp [hrst] at hr
  · exact cycle_responseKept s
  · exact fun _ => ⟨rfl, rfl⟩
  · exact responseKept_of_resp rfl
  · exact (exec_responseKept hexec :)

end

end Sys2Proof.Machine

namespace Sys2Proof.Claims

open Sys2Proof.Machine

/-- Settles O11: the fields of the literal. -/
theorem resetStateValues : Obligations.ResetStateValues := by
  unfold Obligations.ResetStateValues
  decide

/-- Settles O12: the reset step in its two cases. -/
theorem resetStep : Obligations.ResetStep := by
  intro s hlimit hrst
  rw [step_reset hlimit hrst]
  refine ⟨by simp [State.cmdReady, hrst], fun hc => ⟨s.resetCore, resetStep_idle hc, ?_⟩, resetStep_busy⟩
  and_intros <;> rfl

/-- Settles O13: a ready block accepts the word presented, and accepting a legal one is its command. -/
theorem stepRunsAcceptedCommand : Obligations.StepRunsAcceptedCommand := by
  intro s w rest i hlimit hready hw hd
  rw [step_ready hlimit hready, idleStep_cons hw, acceptWord_command hd]
  rfl

/-- Settles O15: the head of an empty list is never presented. -/
theorem idleWaits : Obligations.IdleWaits := by
  intro s hlimit hready hvalid
  rw [step_ready hlimit hready, idleStep_nil (by simpa [State.cmdValid] using hvalid)]

/-- Settles O16: the cycle of `C_RESP` is the codec's move to `C_IDLE`. -/
theorem responseLastsOneStep : Obligations.ResponseLastsOneStep := by
  intro s hlimit hrst hvalid
  have hc : s.cst = .resp := by simpa [State.rspValid] using hvalid
  refine ⟨by simp [State.busy, State.cmdReady, hc], s.enter .idle, ?_, rfl, ?_, rfl, rfl, rfl, rfl⟩
  · rw [step_busy hlimit hrst (by simp [hc]), cycle_resp hc]
  · exact State.cmdReady_iff.2 ⟨rfl, hrst⟩

/-- Settles O17: by the cases of a step, the commands piece by piece. -/
theorem responseRegistersHold : Obligations.ResponseRegistersHold :=
  fun _ _ => step_responseKept

/-- Settles O58: at reset the engine and the line unit are idle and nothing has happened. -/
theorem invariantsAtReset : Obligations.InvariantsAtReset :=
  ⟨sequencersAgree_of_engineIdle rfl, busDisciplined_of_closed rfl rfl, rfl, fun h => absurd h (by decide),
    ⟨fun _ => rfl, fun _ => rfl, fun _ => rfl, fun _ => rfl⟩, rfl, Nat.zero_le 4⟩

end Sys2Proof.Claims
end

section
/-! The external register space stays in its canonical form (obligation O54). A cycle writes it in two places only: the
chip's own changes at the start of a transaction, and the slave's store of an acknowledged data byte. -/

namespace Sys2Proof.Machine

/-! ### What a cycle writes to the registers -/

/-- What a cycle of the engine does to the external registers: nothing, or the store of the transaction's payload
(spec/40_bus_engine.md R140). -/
def StoresAtMost (s t : State) : Prop :=
  t.mem = s.mem ∨ t.mem = s.mem.write (location s.tDev s.tReg) s.tWdata

theorem afterAddrW_mem (s : State) : (afterAddrW s).mem = s.mem := by
  unfold afterAddrW
  split <;> simp [bail]

theorem afterReg_mem (s : State) : (afterReg s).mem = s.mem := by
  unfold afterReg
  split
  · simp [bail]
  · dsimp only
    split <;> simp

/-- The data byte is stored exactly when the slave acknowledges it (R132). -/
theorem afterData_storesAtMost (s : State) : StoresAtMost s (afterData s) := by
  unfold afterData
  split
  · exact .inl (by simp [bail])
  · exact .inr (by simp)

theorem afterAddrR_mem (s : State) : (afterAddrR s).mem = s.mem := by
  unfold afterAddrR
  split <;> simp [bail]

theorem sample_mem (s : State) : (sample s).mem = s.mem := by
  unfold sample
  split
  · simp
  · split <;> simp

theorem engineCycle_storesAtMost {s : State} (he : s.est ≠ .idle) : StoresAtMost s (engineCycle s) :=
  engineCycle_cases he
    (hw := fun _ => .inl rfl)
    (h1 := fun _ => .inl rfl)
    (h2 := fun _ => .inl (afterAddrW_mem s))
    (h3 := fun _ => .inl (afterReg_mem s))
    (h4 := fun _ => afterData_storesAtMost s)
    (h5 := fun _ => .inl rfl)
    (h6 := fun _ => .inl (afterAddrR_mem s))
    (h7 := fun _ => .inl (sample_mem s))
    (h8 := fun _ => .inl rfl)
    (h9 := fun _ => .inl rfl)

/-! ### The canonical form -/

theorem StoresAtMost.wf {s t : State} (h : StoresAtMost s t) (hs : s.mem.wf = true) : t.mem.wf = true := by
  rcases h with hm | hm <;> rw [hm]
  · exact hs
  · exact Memory.wf_write hs _ _

/-- Entering a transaction only makes the chip's own changes (spec/20_memory.md R65). -/
theorem enterRead_wf {u : State} (hu : u.mem.wf = true) (p : CodecState) (d : DevAddr) (r : Byte) :
    (enterRead p d r u).mem.wf = true :=
  State.wf_nextMem hu

theorem enterWrite_wf {u : State} (hu : u.mem.wf = true) (p : CodecState) (d : DevAddr) (r v : Byte) :
    (enterWrite p d r v u).mem.wf = true :=
  State.wf_nextMem hu

theorem cycle_memWf {s : State} (hs : s.mem.wf = true) : (cycle s).mem.wf = true := by
  refine cycle_cases_any (I := fun t => t.mem.wf = true) (fun w rest _ _ => ?_) hs (fun _ => hs) (fun hb he => ?_)
    fun _ he => (engineCycle_storesAtMost he).wf hs
  · have hwf : ((({ s with commands := rest } : State).latchWord w).clearStatus).mem.wf = true := hs
    exact acceptCycle_cases (I := fun t => t.mem.wf = true) w (fun p d r _ _ _ => enterRead_wf hwf p d r)
      (fun p d r v _ _ _ => enterWrite_wf hwf p d r v) fun _ _ => hs
  · refine codecNext_moves (I := fun t => t.mem.wf = true) he hb.1 ?_ ?_ ?_
    · intro u hu
      have hwf : u.mem.wf = true := by
        rcases hu with rfl | ⟨_, rfl⟩ <;> exact hs
      exact ⟨enterRead_wf hwf, enterWrite_wf hwf⟩
    · rintro _ (rfl | ⟨_, rfl⟩) _ <;> exact hs
    · rintro _ (rfl | rfl) _ <;> exact hs

end Sys2Proof.Machine

namespace Sys2Proof.Claims

open Sys2Proof.Machine

/-- Settles O54: each cycle keeps the canonical form, and a reset leaves the registers alone. -/
theorem stepKeepsMemoryForm : Obligations.StepKeepsMemoryForm := fun _ _ hs h =>
  step_keeps (I := fun s => s.mem.wf = true) (fun _ _ => cycle_memWf) (fun _ _ hs => hs) hs h

end Sys2Proof.Claims
end

section
/-! Which registers a command can change (obligation O50), piece by piece: a read changes none, a write the one it is
addressed to, and the chip what it changes by itself before each transaction. -/

namespace Sys2Proof.Machine

open Sys2Proof.Claims (RegistersKept rtcLocation)

/-! ### The registers through the pieces of a command -/

theorem PieceFrame.registersKept {n : Nat} {S : List Nat} {s t : State} (h : PieceFrame n S s t) :
    RegistersKept n S s t := h.registers

theorem registersKept_refl (n : Nat) (S : List Nat) (s : State) : RegistersKept n S s s := fun _ _ _ => rfl

theorem registersKept_mono {m n : Nat} {S T : List Nat} {s t : State} (h : RegistersKept m S s t) (hmn : m ≤ n)
    (hS : ∀ a ∈ S, a ∈ T) : RegistersKept n T s t :=
  fun a ha hc => h a (fun hm => ha (hS a hm)) fun hc' => hc (hc'.mono hmn)

/-- One piece of a command after another: at most the transactions and the stores of both. -/
theorem Run.Ends.next_piece {α β : Type} {m n : Nat} {S T : List Nat} {s : State} {r : Run α} {f : α → State → Run β}
    (h : r.Ends (fun _ t => PieceFrame m S s t) (PieceFrame m S s))
    (hf : ∀ a t, (f a t).Ends (fun _ u => PieceFrame n T t u) (PieceFrame n T t)) :
    (r.next f).Ends (fun _ t => PieceFrame (m + n) (S ++ T) s t) (PieceFrame (m + n) (S ++ T) s) := by
  have hhung : ∀ t, PieceFrame m S s t → PieceFrame (m + n) (S ++ T) s t := fun _ ht =>
    ht.mono (Nat.le_add_right m n) fun _ => List.mem_append_left T
  exact (h.mono (fun _ _ ht => ht) hhung).next fun a t ht =>
    (hf a t).mono (fun _ _ hu => ht.trans hu) fun _ hu => ht.trans hu

/-- Keeping the byte read in `tmp` before a piece changes no register (spec/10_state.md R23). -/
theorem Run.Ends.of_keepTmp {α : Type} {n : Nat} {S : List Nat} {b : Byte} {s : State} {r : Run α}
    (h : r.Ends (fun _ t => PieceFrame n S (s.keepTmp b) t) (PieceFrame n S (s.keepTmp b))) :
    r.Ends (fun _ t => PieceFrame n S s t) (PieceFrame n S s) :=
  h.mono (fun _ _ ht => { ht with }) fun _ ht => { ht with }

theorem memWrite_piece (phase : CodecState) (r v : Byte) (s : State) :
    (memWrite phase r v s).Ends (fun _ t => PieceFrame 1 [rtcLocation r] s t) (PieceFrame 1 [rtcLocation r] s) :=
  (regWrite_frame phase Config.rtcDevAddr r v s).mono (fun _ _ h => h.1) fun _ h => h.1

theorem memRead_piece (phase : CodecState) (r : Byte) (s : State) :
    (memRead phase r s).Ends (fun _ t => PieceFrame 1 [] s t) (PieceFrame 1 [] s) :=
  (regRead_frame phase Config.rtcDevAddr r s).mono (fun _ _ h => h.1) fun _ h => h.1

/-- The seconds half of RTC_INIT (spec/44_rtc_init.md R220). -/
theorem initSeconds_piece (s : State) :
    (initSeconds s).Ends (fun _ t => PieceFrame 2 [rtcLocation 0x00] s t) (PieceFrame 2 [rtcLocation 0x00] s) := by
  refine (memRead_piece _ _ s).next_piece (n := 1) (T := [rtcLocation 0x00]) fun sec t => ?_
  split
  · exact ((memWrite_piece _ _ _ (t.keepTmp sec)).of_keepTmp).next_piece (n := 0) (T := []) fun _ u =>
      PieceFrame.enter .initSettle u
  · exact (PieceFrame.keepTmp sec t).mono (Nat.zero_le 1) (List.forall_mem_nil _)

/-- The hours half of RTC_INIT (R223). -/
theorem initHours_piece (s : State) :
    (initHours s).Ends (fun _ t => PieceFrame 2 [rtcLocation 0x02] s t) (PieceFrame 2 [rtcLocation 0x02] s) := by
  refine (memRead_piece _ _ s).next_piece (n := 1) (T := [rtcLocation 0x02]) fun hr t => ?_
  split
  · exact (memWrite_piece _ _ _ (t.keepTmp hr)).of_keepTmp
  · exact (PieceFrame.keepTmp hr t).mono (Nat.zero_le 1) (List.forall_mem_nil _)

/-! ### The registers through a command -/

/-- The response changes no register, and a hang leaves what the pieces so far have changed. -/
theorem Run.Ends.close_registersKept {α : Type} {n : Nat} {S : List Nat} {s : State} {r : Run α}
    (h : r.Ends (fun _ t => PieceFrame n S s t) (PieceFrame n S s)) (data : α → Byte) :
    RegistersKept n S s (r.close fun a t => t.respond (data a)) :=
  h.close (fun _ _ ht => ht.registersKept) fun _ ht => ht.registersKept

/-- Latching the operands changes nothing of the environment, so a command changes the registers its body changes. -/
theorem command_registersKept {latch body : State → State} {n : Nat} {S : List Nat} {s t : State}
    (h : command latch body s = .next t) (hlatch : SameEnvironment s (latch s))
    (hbody : ∀ u, RegistersKept n S u (body u)) : RegistersKept n S s t := by
  rcases command_next h with ⟨-, rfl⟩ | ⟨-, rfl⟩
  · exact registersKept_refl n S t
  · intro a ha hc
    rw [hbody _ a ha (by simpa [State.ChipTouches, State.chipAnswer, hlatch.chipScript, hlatch.chipSeen] using hc),
      hlatch.mem]

section
variable {s t : State}

theorem execReadReg_registersKept {d : DevAddr} {r : Byte} (h : execReadReg d r s = .next t) :
    RegistersKept 1 [] s t :=
  command_registersKept h ⟨rfl, rfl, rfl, rfl, rfl, rfl, rfl, rfl⟩ fun u =>
    ((regRead_frame _ d r u.clearStatus).mono (fun _ _ h => h.1) fun _ h => h.1).close_registersKept id

theorem getCommand_registersKept {op : BitVec 6} {r : Byte} {decoded : Byte → Byte}
    (h : getCommand op r decoded s = .next t) : RegistersKept 1 [] s t :=
  command_registersKept h ⟨rfl, rfl, rfl, rfl, rfl, rfl, rfl, rfl⟩ fun u =>
    (memRead_piece _ r u.clearStatus).close_registersKept decoded

theorem setPlain_registersKept {op : BitVec 6} {r lo hi encoded v : Byte}
    (h : setPlain op r lo hi encoded v s = .next t) : RegistersKept 1 [rtcLocation r] s t := by
  refine command_registersKept h ⟨rfl, rfl, rfl, rfl, rfl, rfl, rfl, rfl⟩ fun u => ?_
  split
  · exact (memWrite_piece _ r encoded u.clearStatus).close_registersKept fun _ => 0
  · exact registersKept_refl _ _ u

theorem setKeeping_registersKept {op : BitVec 6} {r lo hi keep encoded v : Byte}
    (h : setKeeping op r lo hi keep encoded v s = .next t) : RegistersKept 2 [rtcLocation r] s t := by
  refine command_registersKept h ⟨rfl, rfl, rfl, rfl, rfl, rfl, rfl, rfl⟩ fun u => ?_
  split
  · exact ((memRead_piece _ r u.clearStatus).next_piece fun cur w =>
      (memWrite_piece _ r _ (w.keepTmp cur)).of_keepTmp).close_registersKept fun _ => 0
  · exact registersKept_refl _ _ u

theorem execRtcInit_registersKept (h : execRtcInit s = .next t) :
    RegistersKept 4 [rtcLocation 0x00, rtcLocation 0x02] s t :=
  command_registersKept h ⟨rfl, rfl, rfl, rfl, rfl, rfl, rfl, rfl⟩ fun u =>
    ((initSeconds_piece u.clearStatus).next_piece fun _ => initHours_piece).close_registersKept fun _ => 0

end

/-- The registers 0x00 to 0x09 of the RTC, which hold the ten fields (spec/10_state.md R43). -/
def fieldLocations : List Nat := (List.range 10).map fun n => rtcLocation (BitVec.ofNat 8 n)

theorem mem_fieldLocations {a : Nat} (h : a ∈ fieldLocations) : ∃ r : Byte, r.toNat ≤ 9 ∧ a = rtcLocation r := by
  obtain ⟨n, hn, rfl⟩ := List.mem_map.1 h
  exact ⟨_, by rw [List.mem_range] at hn; rw [BitVec.toNat_ofNat]; omega, rfl⟩

/-- Every command but WRITE_REG runs at most four transactions, and those store to the registers of the fields only. -/
theorem exec_registersKept {i : Instr} {s t : State} (hi : ∀ d r v, i ≠ .writeReg d r v) (h : exec i s = .next t) :
    RegistersKept 4 fieldLocations s t := by
  cases i with
  | writeReg d r v => exact absurd rfl (hi d r v)
  | readReg => exact registersKept_mono (execReadReg_registersKept h) (by decide) (List.forall_mem_nil _)
  | rtcInit => exact registersKept_mono (execRtcInit_registersKept h) (by decide) (by decide)
  | getSeconds | getMinutes | getHours | getDayname | getDays | getMonths | getYears | getAseconds | getAminutes
  | getAhours => exact registersKept_mono (getCommand_registersKept h) (by decide) (List.forall_mem_nil _)
  | setMinutes | setDayname | setDays | setMonths | setYears | setAseconds | setAminutes =>
    exact registersKept_mono (setPlain_registersKept h) (by decide) (by decide)
  | setSeconds | setHours | setAhours => exact registersKept_mono (setKeeping_registersKept h) (by decide) (by decide)

end Sys2Proof.Machine

namespace Sys2Proof.Claims

open Sys2Proof.Machine

/-- Settles O50: a location that is no field's register is outside what the other commands store to. -/
theorem onlyWriteRegChangesOtherRegisters : Obligations.OnlyWriteRegChangesOtherRegisters := by
  intro i s t hi h a ha hc
  refine exec_registersKept hi h a (fun hm => ?_) hc
  obtain ⟨r, hr, rfl⟩ := mem_fieldLocations hm
  exact ha r hr rfl

end Sys2Proof.Claims
end

section
/-! Setting a field and getting it back on the reference slave (obligation O59): each of the at most three transactions
succeeds and finds the registers the last one left, and a field's byte decodes to the value it was made from. -/

namespace Sys2Proof.Machine

open Sys2Proof.Claims (ReferenceSlave rtcLocation)

/-! ### The byte a setter stores -/

/-- A merged bit outside the mask does not show under it (spec/41_bcd_codec.md R166). -/
theorem mergeKeep_and {k m : Byte} (h : k &&& m = 0) (e cur : Byte) : mergeKeep e cur k &&& m = e &&& m := by
  ext i hi
  have hbit : (k[i] && m[i]) = false := by simp [← BitVec.getElem_and, h]
  simp only [mergeKeep, BitVec.getElem_and, BitVec.getElem_or, Bool.and_or_distrib_right, Bool.and_assoc, hbit,
    Bool.and_false, Bool.or_false]

/-- Decoding looks at the masked byte only (R163). -/
theorem bcdDec_mergeKeep {k m : Byte} (h : k &&& m = 0) (e cur : Byte) : bcdDec (mergeKeep e cur k) m = bcdDec e m := by
  simp only [bcdDec, mergeKeep_and h]

/-- The BCD byte of a value in range decodes to it (R168). -/
theorem ofByte_toByte (f : Field) {v : Byte} (hv : v ≤ f.hi) : f.ofByte (f.toByte v) = v := by
  revert v
  cases f with
  | dayOfWeek => exact fun _ => rfl
  | seconds | minutes | hours | dayOfMonth | month | year | alarmSeconds | alarmMinutes | alarmHours => decide

/-- The bits a setter keeps are none of the field's digits (spec/10_state.md R43). -/
theorem ofByte_mergeKeep (f : Field) (e cur : Byte) : f.ofByte (mergeKeep e cur f.keep) = f.ofByte e := by
  cases f with
  | dayOfWeek => simp [Field.ofByte, Field.kind, Field.keep, mergeKeep]
  | seconds | minutes | hours | dayOfMonth | month | year | alarmSeconds | alarmMinutes | alarmHours =>
    exact bcdDec_mergeKeep (by decide) e cur

theorem inRange_iff {lo hi v : Byte} : inRange lo hi v = true ↔ lo ≤ v ∧ v ≤ hi := by
  simp [inRange]

/-! ### One transaction on the reference slave -/

theorem writeOutcome_ack (d : DevAddr) (r v : Byte) {ack : Nat → Ack} (h : ∀ j < 3, ack j = .ack) :
    (writeOutcome d r v ack).status = .ok ∧ (writeOutcome d r v ack).stored = true ∧
      (writeOutcome d r v ack).sent = 3 := by
  simp [writeOutcome, h]

/-- A read whose bytes are acknowledged and whose byte arrives within the limit (spec/40_bus_engine.md R143). -/
theorem readOutcome_ack (d : DevAddr) (r b : Byte) {limit k : Nat} {ack : Nat → Ack} (h : ∀ j < 3, ack j = .ack)
    (hk : k ≤ limit) :
    (readOutcome d r limit ack (some (k, b))).status = .ok ∧ (readOutcome d r limit ack (some (k, b))).byte = b ∧
      (readOutcome d r limit ack (some (k, b))).sent = 3 ∧
      (readOutcome d r limit ack (some (k, b))).events.count .rxen = 1 := by
  simp [readOutcome, h, hk]

/-- The reference slave goes on answering after some of its transactions. -/
theorem referenceSlave_later {m n : Nat} {s t : State} (h : ReferenceSlave (m + n) s)
    {S : List Nat} (hf : PieceFrame m S s t) (hdone : t.doneSeen ≤ s.doneSeen + 8 * m)
    (hack : t.ackSeen ≤ s.ackSeen + 3 * m) (hrx : t.rxSeen ≤ s.rxSeen + m) : ReferenceSlave n t := by
  obtain ⟨hlive, hacks, hrxs, hchip⟩ := h
  refine ⟨hlive.later hf.doneScript hf.doneSeen (by omega), fun j hj => ?_, fun j hj => ?_, fun j hj => ?_⟩
  · obtain ⟨e, he⟩ := Nat.exists_eq_add_of_le hf.ackSeen
    have := hacks (e + j) (by omega)
    simpa [State.nextAck, State.ackAnswer, hf.ackScript, he, Nat.add_assoc] using this
  · obtain ⟨e, he⟩ := Nat.exists_eq_add_of_le hf.rxSeen
    have := hrxs (e + j) (by omega)
    simpa [State.rxAnswer, hf.rxScript, he, Nat.add_assoc] using this
  · obtain ⟨e, he⟩ := Nat.exists_eq_add_of_le hf.chipSeen.1
    have := hchip (e + j) (by have := hf.chipSeen; omega)
    simpa [State.chipAnswer, hf.chipScript, he, Nat.add_assoc] using this

theorem referenceSlave_mono {m n : Nat} {s : State} (h : ReferenceSlave n s) (hmn : m ≤ n) : ReferenceSlave m s := by
  obtain ⟨hlive, hacks, hrxs, hchip⟩ := h
  exact ⟨hlive.mono (by omega), fun j hj => hacks j (by omega), fun j hj => hrxs j (by omega),
    fun j hj => hchip j (by omega)⟩

/-- The chip of the reference slave changes nothing by itself. -/
theorem referenceSlave_nextMem {n : Nat} {s : State} (h : ReferenceSlave (1 + n) s) : s.nextMem = s.mem := by
  obtain ⟨-, -, -, hchip⟩ := h
  have hnone := hchip 0 (by omega)
  simp only [State.nextMem, Nat.add_zero] at hnone ⊢
  rw [hnone]
  rfl

/-- What a transaction of the codec on the reference slave leaves: the registers `m`, no failure added, the engine idle,
and the slave ready for the next `n` transactions. -/
structure Served (n : Nat) (m : Memory) (s t : State) : Prop where
  mem : t.mem = m
  firstFail : t.firstFail = s.firstFail
  est : t.est = .idle
  rst : t.rst = s.rst
  pollLimit : t.pollLimit = s.pollLimit
  slave : ReferenceSlave n t

theorem firstOf_ok (e : TStatus) : firstOf e .ok = e := by
  cases e <;> rfl

theorem memWrite_reference {n : Nat} {s : State} (h : ReferenceSlave (1 + n) s) (phase : CodecState) (r v : Byte) :
    ∃ t, memWrite phase r v s = .ended () t ∧ Served n (s.mem.write (rtcLocation r) v) s t := by
  obtain ⟨hlive, hacks, -, -⟩ := id h
  obtain ⟨hstatus, hstored, hsent⟩ := writeOutcome_ack Config.rtcDevAddr r v fun j hj => hacks j (by omega)
  obtain ⟨t, ht, -, hff, hm, he, -, -, ha, hd, -, hf, hr, -⟩ :=
    regWrite_live phase Config.rtcDevAddr r v s (hlive.mono (by omega))
  rw [hstatus, firstOf_ok] at hff
  rw [if_pos hstored, referenceSlave_nextMem h] at hm
  rw [hsent] at ha
  exact ⟨t, ht, hm, hff, he, hf.rst, hf.pollLimit,
    referenceSlave_later h hf (by omega) (by omega) (by have := hr.rxSeen; omega)⟩

theorem memRead_reference {n : Nat} {s : State} (h : ReferenceSlave (1 + n) s) (hlimit : s.pollLimit ≠ 0)
    (phase : CodecState) (r : Byte) :
    ∃ t, memRead phase r s = .ended (s.mem.holds (rtcLocation r)) t ∧ Served n s.mem s t := by
  obtain ⟨hlive, hacks, hrxs, -⟩ := id h
  have hrx : s.nextRx Config.rtcDevAddr r = some (1, s.mem.holds (rtcLocation r)) := by
    have hheld := hrxs 0 (by omega)
    simp only [State.nextRx, Nat.add_zero, referenceSlave_nextMem h] at hheld ⊢
    rw [hheld]
    rfl
  have hk : 1 ≤ s.pollLimit.toNat := Nat.one_le_iff_ne_zero.2 fun hz => hlimit (BitVec.eq_of_toNat_eq hz)
  obtain ⟨hstatus, hbyte, hsent, hcount⟩ :=
    readOutcome_ack Config.rtcDevAddr r (s.mem.holds (rtcLocation r)) (fun j hj => hacks j (by omega)) hk
  rw [← hrx] at hstatus hbyte hsent hcount
  obtain ⟨t, ht, -, -, hff, hm, he, -, -, ha, hd, -, hf, -, -, hx⟩ :=
    regRead_live phase Config.rtcDevAddr r s (hlive.mono (by omega))
  simp only [State.readHere, hstatus, hbyte, hsent, hcount, firstOf_ok, referenceSlave_nextMem h] at ht hff hm ha hx
  exact ⟨t, ht, hm, hff, he, hf.rst, hf.pollLimit, referenceSlave_later h hf (by omega) (by omega) (by omega)⟩

/-! ### The setter, the response cycle and the getter -/

/-- How a setter answers on the reference slave: with status OK, the field's register holding a byte that decodes to the
value, and the slave ready for the next `n` transactions. -/
structure SetServed (n : Nat) (f : Field) (v : Byte) (t : State) : Prop where
  status : t.rspStatus = 0
  cst : t.cst = .resp
  est : t.est = .idle
  rst : t.rst = false
  pollLimit : t.pollLimit ≠ 0
  value : f.ofByte (t.mem.holds (rtcLocation f.register)) = v
  slave : ReferenceSlave n t

theorem holds_write (m : Memory) (r v : Byte) : (m.write (rtcLocation r) v).holds (rtcLocation r) = v := by
  simp [Memory.holds, rtcLocation, Memory.read_write_location]

/-- A command none of whose transactions failed answers OK (spec/10_state.md R28). -/
theorem respond_status_ok {s : State} (h : s.firstFail = .ok) (b : Byte) : (s.respond b).rspStatus = 0 := by
  rw [State.respond_rspStatus, h]
  rfl

/-- The write a setter ends with, of a byte that decodes to the value (spec/43_rtc_setters.md R202). -/
theorem setWrite_reference {n : Nat} {f : Field} {v b : Byte} {s : State} (h : ReferenceSlave (1 + n) s)
    (hff : s.firstFail = .ok) (hrst : s.rst = false) (hlimit : s.pollLimit ≠ 0) (hb : f.ofByte b = v) :
    ∃ t, memWrite .setWr f.register b s = .ended () t ∧ SetServed n f v (t.respond 0) := by
  obtain ⟨t, ht, hw⟩ := memWrite_reference h .setWr f.register b
  exact ⟨t, ht,
    { status := respond_status_ok (hw.firstFail.trans hff) 0
      cst := rfl
      est := hw.est
      rst := hw.rst.trans hrst
      pollLimit := hw.pollLimit.trans_ne hlimit
      value := by rw [State.respond_mem, hw.mem, holds_write, hb]
      slave := hw.slave }⟩

theorem setter_reference {n : Nat} {f : Field} {v : Byte} {s : State} (hlo : f.lo ≤ v) (hhi : v ≤ f.hi)
    (hs : s.Ready) (h : ReferenceSlave (2 + n) s) :
    ∃ t, exec (Instr.setter f v) s = .next t ∧ SetServed n f v t := by
  obtain ⟨hlimit, -, hrst, -⟩ := id hs
  have hrange := inRange_iff.2 ⟨hlo, hhi⟩
  by_cases hk : f.keep = 0
  · have hslave : ReferenceSlave (1 + n) (latchV (Instr.setter f v).opcode v s).clearStatus :=
      referenceSlave_mono (n := 2 + n) h (by omega)
    obtain ⟨t, ht, hstored⟩ := setWrite_reference hslave rfl hrst hlimit (ofByte_toByte f hhi)
    refine ⟨t.respond 0, ?_, hstored⟩
    rw [exec_setter_plain hk, setPlain, command_ready hs, if_pos hrange, ht]
    rfl
  · have hslave : ReferenceSlave (1 + (1 + n)) (latchV (Instr.setter f v).opcode v s).clearStatus := by
      rw [← Nat.add_assoc]
      exact h
    obtain ⟨u, hu, hr⟩ := memRead_reference hslave hlimit .setRd f.register
    obtain ⟨t, ht, hstored⟩ := setWrite_reference (s := u.keepTmp (s.mem.holds (rtcLocation f.register))) hr.slave
      hr.firstFail (hr.rst.trans hrst) (hr.pollLimit.trans_ne hlimit)
      ((ofByte_mergeKeep f (f.toByte v) (s.mem.holds (rtcLocation f.register))).trans (ofByte_toByte f hhi))
    refine ⟨t.respond 0, ?_, hstored⟩
    rw [exec_setter_keeping hk, setKeeping, command_ready hs, if_pos hrange, hu]
    simp only [Run.next_ended, State.clearStatus_mem, latchV_mem, ht, Run.close_ended]

/-- Once the response has been presented the block is ready again, and the registers and the slave are as they were. -/
theorem SetServed.step {n : Nat} {f : Field} {v : Byte} {t : State} (h : SetServed n f v t) :
    step t = .next (t.enter .idle) ∧ (t.enter .idle).Ready := by
  refine ⟨?_, h.pollLimit, rfl, h.rst, h.est⟩
  rw [step_busy h.pollLimit h.rst (by simp [h.cst]), cycle_resp h.cst]

theorem getter_reference {n : Nat} (f : Field) {s : State} (hs : s.Ready) (h : ReferenceSlave (1 + n) s) :
    ∃ t, exec (Instr.getter f) s = .next t ∧ t.rspStatus = 0 ∧
      t.rspData = f.ofByte (s.mem.holds (rtcLocation f.register)) := by
  have hslave : ReferenceSlave (1 + n) (latchN (Instr.getter f).opcode s).clearStatus := h
  obtain ⟨t, ht, hr⟩ := memRead_reference hslave hs.1 .getRd f.register
  refine ⟨t.respond _, ?_, respond_status_ok hr.firstFail _, rfl⟩
  rw [exec_getter, getCommand, command_ready hs, ht]
  rfl

end Sys2Proof.Machine

namespace Sys2Proof.Claims

open Sys2Proof.Machine

/-- Settles O59: the setter stores a byte that decodes to the value, and the getter decodes what the register holds. -/
theorem setThenGetOnReferenceSlave : Obligations.SetThenGetOnReferenceSlave := by
  intro f v s hlo hhi hs h
  obtain ⟨t, ht, hstored⟩ := setter_reference (n := 1) hlo hhi hs h
  obtain ⟨hstep, hready⟩ := hstored.step
  obtain ⟨w, hw, hstatus, hdata⟩ := getter_reference (n := 0) f hready hstored.slave
  exact ⟨t, _, w, ht, hstored.status, hstep, hw, hstatus, hdata.trans hstored.value⟩

end Sys2Proof.Claims
end

section
/-! The command word (obligations O1 to O7 and O14). A word decodes to a command exactly when the command's own word is
that word in the bits the command uses; the two directions of the round trip and the ignored fields are read off that
equivalence, the illegal words off the decoder's three tables. -/

namespace Sys2Proof.Machine

open Sys2Proof.Claims (usedBits)

/-! ### The fields of a word (spec/30_encoding.md R90) -/

theorem opField_toNat (w : CmdWord) : (opField w).toNat = w.toNat / 2 ^ 26 := by
  simp only [opField, BitVec.extractLsb'_toNat, Nat.shiftRight_eq_div_pow]
  omega

theorem rsvField_toNat (w : CmdWord) : (rsvField w).toNat = w.toNat / 2 ^ 23 % 2 ^ 3 := by
  simp only [rsvField, BitVec.extractLsb'_toNat, Nat.shiftRight_eq_div_pow]

theorem rsvField_eq_zero_iff {w : CmdWord} : rsvField w = 0 ↔ w.toNat / 2 ^ 23 % 8 = 0 := by
  rw [← BitVec.toNat_inj, rsvField_toNat]
  rfl

theorem devField_toNat (w : CmdWord) : (devField w).toNat = w.toNat / 2 ^ 16 % 2 ^ 7 := by
  simp only [devField, BitVec.extractLsb'_toNat, Nat.shiftRight_eq_div_pow]

theorem regField_toNat (w : CmdWord) : (regField w).toNat = w.toNat / 2 ^ 8 % 2 ^ 8 := by
  simp only [regField, BitVec.extractLsb'_toNat, Nat.shiftRight_eq_div_pow]

theorem dataField_toNat (w : CmdWord) : (dataField w).toNat = w.toNat % 2 ^ 8 := by
  simp only [dataField, BitVec.extractLsb'_toNat, Nat.shiftRight_zero]

/-- A word is its five fields. -/
theorem word_eq_iff_fields {w w' : CmdWord} :
    w = w' ↔ opField w = opField w' ∧ rsvField w = rsvField w' ∧ devField w = devField w' ∧
      regField w = regField w' ∧ dataField w = dataField w' := by
  constructor
  · rintro rfl
    simp
  · simp only [← BitVec.toNat_inj, opField_toNat, rsvField_toNat, devField_toNat, regField_toNat, dataField_toNat]
    omega

theorem devField_packWord (op : BitVec 6) (dev : DevAddr) (reg data : Byte) :
    devField (packWord op dev reg data) = dev := by
  unfold devField packWord
  rw [BitVec.extractLsb'_append_eq_of_le (by decide), BitVec.extractLsb'_append_eq_of_le (by decide),
    BitVec.extractLsb'_append_eq_of_add_le (by decide), BitVec.extractLsb'_eq_self]

theorem regField_packWord (op : BitVec 6) (dev : DevAddr) (reg data : Byte) :
    regField (packWord op dev reg data) = reg := by
  unfold regField packWord
  rw [BitVec.extractLsb'_append_eq_of_le (by decide), BitVec.extractLsb'_append_eq_of_add_le (by decide),
    BitVec.extractLsb'_eq_self]

theorem dataField_packWord (op : BitVec 6) (dev : DevAddr) (reg data : Byte) :
    dataField (packWord op dev reg data) = data := by
  unfold dataField packWord
  rw [BitVec.extractLsb'_append_eq_of_add_le (by decide), BitVec.extractLsb'_eq_self]

theorem opField_and (w m : CmdWord) : opField (w &&& m) = opField w &&& opField m := BitVec.extractLsb'_and
theorem rsvField_and (w m : CmdWord) : rsvField (w &&& m) = rsvField w &&& rsvField m := BitVec.extractLsb'_and
theorem devField_and (w m : CmdWord) : devField (w &&& m) = devField w &&& devField m := BitVec.extractLsb'_and
theorem regField_and (w m : CmdWord) : regField (w &&& m) = regField w &&& regField m := BitVec.extractLsb'_and
theorem dataField_and (w m : CmdWord) : dataField (w &&& m) = dataField w &&& dataField m := BitVec.extractLsb'_and

/-- A packed word is `w` under a mask that keeps `OP` and `RSV` exactly when its fields are those of `w` so masked. -/
theorem packWord_eq_and_iff {op : BitVec 6} {dev mdev : DevAddr} {reg data mreg mdata : Byte} {w m : CmdWord}
    (hop : opField m = .allOnes 6) (hrsv : rsvField m = .allOnes 3) (hdev : devField m = mdev)
    (hreg : regField m = mreg) (hdata : dataField m = mdata) :
    packWord op dev reg data = w &&& m ↔
      rsvField w = 0 ∧ opField w = op ∧ dev = devField w &&& mdev ∧ reg = regField w &&& mreg ∧
        data = dataField w &&& mdata := by
  rw [word_eq_iff_fields, opField_packWord, rsvField_packWord, devField_packWord, regField_packWord,
    dataField_packWord, opField_and, rsvField_and, devField_and, regField_and, dataField_and, hop, hrsv, hdev, hreg,
    hdata, BitVec.and_allOnes, BitVec.and_allOnes]
  tauto

/-! ### The commands by format (R91) -/

/-- The twenty-three commands by what they take from their word: the two raw accesses, RTC_INIT, and the getter and the
setter of each field. -/
theorem instr_byFormat {P : Instr → Prop} (writeReg : ∀ dev reg data, P (.writeReg dev reg data))
    (readReg : ∀ dev reg, P (.readReg dev reg)) (rtcInit : P .rtcInit) (getter : ∀ f, P (.getter f))
    (setter : ∀ f v, P (.setter f v)) : ∀ i, P i
  | .writeReg dev reg data => writeReg dev reg data
  | .readReg dev reg => readReg dev reg
  | .rtcInit => rtcInit
  | .getSeconds => getter .seconds
  | .getMinutes => getter .minutes
  | .getHours => getter .hours
  | .getDayname => getter .dayOfWeek
  | .getDays => getter .dayOfMonth
  | .getMonths => getter .month
  | .getYears => getter .year
  | .getAseconds => getter .alarmSeconds
  | .getAminutes => getter .alarmMinutes
  | .getAhours => getter .alarmHours
  | .setSeconds v => setter .seconds v
  | .setMinutes v => setter .minutes v
  | .setHours v => setter .hours v
  | .setDayname v => setter .dayOfWeek v
  | .setDays v => setter .dayOfMonth v
  | .setMonths v => setter .month v
  | .setYears v => setter .year v
  | .setAseconds v => setter .alarmSeconds v
  | .setAminutes v => setter .alarmMinutes v
  | .setAhours v => setter .alarmHours v

theorem encode_getter (f : Field) : encode (.getter f) = packWord (Instr.getter f).opcode 0 0 0 := by
  cases f <;> rfl

theorem encode_setter (f : Field) (v : Byte) : encode (.setter f v) = packWord (Instr.setter f v).opcode 0 0 v := by
  cases f <;> rfl

theorem usedBits_getter (f : Field) : usedBits (.getter f) = 0xFF800000 := by
  cases f <;> rfl

theorem usedBits_setter (f : Field) (v : Byte) : usedBits (.setter f v) = 0xFF8000FF := by
  cases f <;> rfl

/-! ### The words of a command (R90, R91) -/

/-- A command's operands are what the fields its format uses hold in `w` (R91). -/
def OperandsIn (w : CmdWord) : Instr → Prop
  | .writeReg dev reg data => dev = devField w ∧ reg = regField w ∧ data = dataField w
  | .readReg dev reg => dev = devField w ∧ reg = regField w
  | .rtcInit | .getSeconds | .getMinutes | .getHours | .getDayname | .getDays | .getMonths | .getYears
  | .getAseconds | .getAminutes | .getAhours => True
  | .setSeconds v | .setMinutes v | .setHours v | .setDayname v | .setDays v | .setMonths v | .setYears v
  | .setAseconds v | .setAminutes v | .setAhours v => v = dataField w

/-- `w` is a word of the command `i`: `RSV` is 0, `OP` is the command's, and the fields its format uses hold its
operands; the other fields may hold anything (R91). -/
def IsWordOf (i : Instr) (w : CmdWord) : Prop := rsvField w = 0 ∧ opField w = i.opcode ∧ OperandsIn w i

theorem operandsIn_getter (f : Field) (w : CmdWord) : OperandsIn w (.getter f) := by
  cases f <;> trivial

theorem operandsIn_setter {f : Field} {v : Byte} {w : CmdWord} :
    OperandsIn w (.setter f v) ↔ v = dataField w := by
  cases f <;> rfl

/-- The encoder's word of a command is a word of it. -/
theorem isWordOf_encode (i : Instr) : IsWordOf i (encode i) := by
  induction i using instr_byFormat with
  | writeReg dev reg data =>
    exact ⟨rsvField_packWord .., opField_packWord .., (devField_packWord ..).symm, (regField_packWord ..).symm,
      (dataField_packWord ..).symm⟩
  | readReg dev reg =>
    exact ⟨rsvField_packWord .., opField_packWord .., (devField_packWord ..).symm, (regField_packWord ..).symm⟩
  | rtcInit => exact ⟨rsvField_packWord .., opField_packWord .., trivial⟩
  | getter f =>
    rw [encode_getter]
    exact ⟨rsvField_packWord .., opField_packWord .., operandsIn_getter ..⟩
  | setter f v =>
    rw [encode_setter]
    exact ⟨rsvField_packWord .., opField_packWord .., operandsIn_setter.2 (dataField_packWord ..).symm⟩

/-- The words of a command are those that are the encoder's in every bit the command uses. -/
theorem encode_eq_and_usedBits_iff {i : Instr} {w : CmdWord} : encode i = w &&& usedBits i ↔ IsWordOf i w := by
  induction i using instr_byFormat with
  | writeReg dev reg data =>
    rw [encode, usedBits,
      packWord_eq_and_iff (mdev := .allOnes 7) (mreg := .allOnes 8) (mdata := .allOnes 8) rfl rfl rfl rfl rfl]
    simp only [BitVec.and_allOnes, IsWordOf, OperandsIn]
  | readReg dev reg =>
    rw [encode, usedBits,
      packWord_eq_and_iff (mdev := .allOnes 7) (mreg := .allOnes 8) (mdata := 0) rfl rfl rfl rfl rfl,
      BitVec.and_allOnes, BitVec.and_allOnes]
    simp [IsWordOf, OperandsIn]
  | rtcInit =>
    rw [encode, usedBits, packWord_eq_and_iff (mdev := 0) (mreg := 0) (mdata := 0) rfl rfl rfl rfl rfl]
    simp [IsWordOf, OperandsIn]
  | getter f =>
    rw [encode_getter, usedBits_getter,
      packWord_eq_and_iff (mdev := 0) (mreg := 0) (mdata := 0) rfl rfl rfl rfl rfl]
    simp [IsWordOf, operandsIn_getter]
  | setter f v =>
    rw [encode_setter, usedBits_setter,
      packWord_eq_and_iff (mdev := 0) (mreg := 0) (mdata := .allOnes 8) rfl rfl rfl rfl rfl, BitVec.and_allOnes]
    simp [IsWordOf, operandsIn_setter]

/-! ### Decoding by command (R93, R94) -/

theorem decode_reserved {w : CmdWord} (h : rsvField w ≠ 0) : decode w = .illegal .reservedBits := if_neg h

theorem rsvField_of_decode_command {w : CmdWord} {i : Instr} (h : decode w = .command i) : rsvField w = 0 := by
  by_contra hrsv
  cases (decode_reserved hrsv).symm.trans h

theorem decode_writeReg {w : CmdWord} (hrsv : rsvField w = 0) (hop : opField w = 0x01) :
    decode w = .command (.writeReg (devField w) (regField w) (dataField w)) := by
  rw [decode, if_pos hrsv, hop]
  rfl

theorem decode_readReg {w : CmdWord} (hrsv : rsvField w = 0) (hop : opField w = 0x02) :
    decode w = .command (.readReg (devField w) (regField w)) := by
  rw [decode, if_pos hrsv, hop]
  rfl

theorem decode_rtcInit {w : CmdWord} (hrsv : rsvField w = 0) (hop : opField w = 0x03) :
    decode w = .command .rtcInit := by
  rw [decode, if_pos hrsv, hop]
  rfl

theorem decode_getter {w : CmdWord} {f : Field} (hrsv : rsvField w = 0) (hop : opField w = (Instr.getter f).opcode) :
    decode w = .command (.getter f) := by
  rw [decode, if_pos hrsv, hop]
  cases f <;> rfl

theorem decode_setter {w : CmdWord} {f : Field} {v : Byte} (hrsv : rsvField w = 0)
    (hop : opField w = (Instr.setter f v).opcode) : decode w = .command (.setter f (dataField w)) := by
  rw [decode, if_pos hrsv, hop, setter_opcode_eq]
  cases f <;> rfl

/-- The decoder reads a command from exactly its words. -/
theorem decode_eq_command_iff {w : CmdWord} {i : Instr} : decode w = .command i ↔ IsWordOf i w := by
  constructor
  · intro h
    obtain ⟨hop, hform⟩ := decode_command h
    refine ⟨rsvField_of_decode_command h, hop, ?_⟩
    rcases hform with rfl | rfl | rfl | ⟨f, rfl⟩ | ⟨f, rfl⟩
    · exact ⟨rfl, rfl, rfl⟩
    · exact ⟨rfl, rfl⟩
    · trivial
    · exact operandsIn_getter f w
    · exact operandsIn_setter.2 rfl
  · rintro ⟨hrsv, hop, hoperands⟩
    induction i using instr_byFormat with
    | writeReg dev reg data =>
      obtain ⟨rfl, rfl, rfl⟩ := hoperands
      exact decode_writeReg hrsv hop
    | readReg dev reg =>
      obtain ⟨rfl, rfl⟩ := hoperands
      exact decode_readReg hrsv hop
    | rtcInit => exact decode_rtcInit hrsv hop
    | getter f => exact decode_getter hrsv hop
    | setter f v =>
      obtain rfl := operandsIn_setter.1 hoperands
      exact decode_setter hrsv hop

/-! ### The illegal words (R95) -/

/-- In class 0b00 the members 1 to 3 are commands. -/
theorem decodeEngine_illegal_iff {w : CmdWord} {n : Nat} :
    (∃ why, decodeEngine w n = .illegal why) ↔ ¬ (1 ≤ n ∧ n ≤ 3) := by
  unfold decodeEngine
  split <;> grind

/-- In class 0b01 the members 0 to 9 are commands. -/
theorem decodeGet_illegal_iff {n : Nat} : (∃ why, decodeGet n = .illegal why) ↔ 10 ≤ n := by
  unfold decodeGet
  split <;> grind

/-- In class 0b10 the members 0 to 9 are commands. -/
theorem decodeSet_illegal_iff {v : Byte} {n : Nat} : (∃ why, decodeSet v n = .illegal why) ↔ 10 ≤ n := by
  unfold decodeSet
  split <;> grind

/-- A word with `RSV` = 0 is illegal exactly when no class has its opcode as a member. -/
theorem decode_illegal_iff {w : CmdWord} (hrsv : rsvField w = 0) :
    (∃ why, decode w = .illegal why) ↔
      let op := (opField w).toNat
      ¬ (1 ≤ op ∧ op ≤ 3) ∧ ¬ (0x10 ≤ op ∧ op ≤ 0x19) ∧ ¬ (0x20 ≤ op ∧ op ≤ 0x29) := by
  rw [decode, if_pos hrsv]
  dsimp only
  split
  · rw [decodeEngine_illegal_iff]
    omega
  · rw [decodeGet_illegal_iff]
    omega
  · rw [decodeSet_illegal_iff]
    omega
  · grind

/-! ### The address byte (R98) and the answer to an illegal word (R96) -/

theorem addr_append_eq_shiftLeft_or (d : DevAddr) (b : BitVec 1) :
    d ++ b = (d.zeroExtend 8 <<< 1) ||| b.zeroExtend 8 := by
  rw [BitVec.append_def, BitVec.shiftLeftZeroExtend_eq]
  rfl

theorem acceptWord_illegal {w : CmdWord} {why : Illegal} (hd : decode w = .illegal why) (s : State) :
    acceptWord w s = .next ((s.latchWord w).reject .illegal) := by
  simp [acceptWord, hd]

end Sys2Proof.Machine

namespace Sys2Proof.Claims

open Sys2Proof.Machine

/-- Settles O1: the encoder's word is a word of the command. -/
theorem decodeEncodedCommand : Obligations.DecodeEncodedCommand :=
  fun i _ => decode_eq_command_iff.2 (isWordOf_encode i)

/-- Settles O2: the word is a word of the command, so the encoder's in the bits the command uses. -/
theorem encodeDecodedWord : Obligations.EncodeDecodedWord :=
  fun _ _ hd => encode_eq_and_usedBits_iff.2 (decode_eq_command_iff.1 hd)

/-- Settles O3: being a word of a command is about the bits it uses only. -/
theorem unusedFieldsIgnored : Obligations.UnusedFieldsIgnored := by
  intro w w' i hd hused
  have hw : encode i = w &&& usedBits i := encode_eq_and_usedBits_iff.2 (decode_eq_command_iff.1 hd)
  exact decode_eq_command_iff.2 (encode_eq_and_usedBits_iff.1 (hw.trans hused))

/-- Settles O4: by `RSV` first, then by the opcode's class and member. -/
theorem illegalWordsExactly : Obligations.IllegalWordsExactly := by
  refine ⟨fun w => ?_, ⟨_, rfl⟩, ⟨_, rfl⟩⟩
  rw [← opField_toNat]
  by_cases h : rsvField w = 0
  · have hrsv := rsvField_eq_zero_iff.1 h
    have hop := (opField w).isLt
    rw [decode_illegal_iff h]
    dsimp only
    omega
  · exact iff_of_true ⟨_, decode_reserved h⟩ (.inl (mt rsvField_eq_zero_iff.2 h))

/-- Settles O5: the decoder evaluated on each word. -/
theorem exampleWordsDecode : Obligations.ExampleWordsDecode := by
  unfold Obligations.ExampleWordsDecode
  decide

/-- Settles O6: appending the direction bit is shifting the address left and setting bit 0. -/
theorem addressByteLayout : Obligations.AddressByteLayout := by
  refine ⟨fun d => ⟨?_, ?_, rfl, rfl⟩, rfl, rfl⟩
  · exact addr_append_eq_shiftLeft_or d 0
  · exact addr_append_eq_shiftLeft_or d 1

/-- Settles O7: both lines are in range together and hold the same numbers. -/
theorem pseudoInstructionsExpand : Obligations.PseudoInstructionsExpand := by
  constructor
  · intro reg hreg
    simp [Source.assemble, Source.wellFormed, devInRange, byteInRange, hreg, Config.rtcDevAddr]
  · intro reg hreg data hdata
    simp [Source.assemble, Source.wellFormed, devInRange, byteInRange, hreg, hdata, Config.rtcDevAddr]

/-- Settles O14: a ready block accepts the word presented, and accepting an illegal one is to latch and reject it. -/
theorem illegalWordAnswered : Obligations.IllegalWordAnswered := by
  intro s w rest why hlimit hready hw hd
  rw [step_ready hlimit hready, idleStep_cons hw, acceptWord_illegal hd]
  rfl

end Sys2Proof.Claims
end

section
/-! The sentinel and the history (obligations O57 and O52), as invariants of the cycle. A failed transaction has the
result 0x00 because the engine fails one only together with its STOP, and a response is made of that result. -/

namespace Sys2Proof.Machine

/-! ### The sentinel in the engine -/

/-- The engine's part of the sentinel: a failed transaction's result is 0x00, and an open one has not failed. -/
structure EngineSentinel (s : State) : Prop where
  result : s.tStatus ≠ .ok → s.tResult = 0
  status : s.est.closed = false → s.tStatus = .ok

/-- A transaction that has not failed satisfies it, open or closed. -/
theorem engineSentinel_of_ok {s : State} (h : s.tStatus = .ok) : EngineSentinel s :=
  ⟨fun hf => absurd h hf, fun _ => h⟩

/-- A bus error zeroes the result and requests the STOP (spec/60_exceptions.md R237). -/
theorem failWith_requestStop_sentinel (st : TStatus) (s : State) : EngineSentinel (s.failWith st).requestStop :=
  ⟨fun _ => rfl, fun hopen => by simp [EngineState.closed] at hopen⟩

/-! Where the transaction has not failed so far, each move of the engine either fails it or leaves its status. -/

section
variable {s : State} (h : s.tStatus = .ok)
include h

theorem afterAddrW_sentinel : EngineSentinel (afterAddrW s) := by
  unfold afterAddrW
  split
  · exact failWith_requestStop_sentinel ..
  · exact engineSentinel_of_ok (by simpa using h)

theorem afterReg_sentinel : EngineSentinel (afterReg s) := by
  unfold afterReg
  split
  · exact failWith_requestStop_sentinel ..
  · dsimp only
    split <;> exact engineSentinel_of_ok (by simpa using h)

theorem afterData_sentinel : EngineSentinel (afterData s) := by
  unfold afterData
  split
  · exact failWith_requestStop_sentinel ..
  · exact engineSentinel_of_ok (by simpa using h)

theorem afterAddrR_sentinel : EngineSentinel (afterAddrR s) := by
  unfold afterAddrR
  split
  · exact failWith_requestStop_sentinel ..
  · exact engineSentinel_of_ok (by simpa using h)

theorem sample_sentinel : EngineSentinel (sample s) := by
  unfold sample
  split
  · exact engineSentinel_of_ok (by simpa using h)
  · split
    · exact failWith_requestStop_sentinel ..
    · exact engineSentinel_of_ok (by simpa using h)

end

theorem engineCycle_sentinel {s : State} (he : s.est ≠ .idle) (h : EngineSentinel s) :
    EngineSentinel (engineCycle s) := by
  have ok {e : EngineState} (hs : s.est = e) (ho : e.closed = false) : s.tStatus = .ok := h.status (hs ▸ ho)
  exact engineCycle_cases he
    (hw := fun _ => ⟨h.result, h.status⟩)
    (h1 := fun hs => engineSentinel_of_ok (ok hs rfl :))
    (h2 := fun hs => afterAddrW_sentinel (ok hs rfl))
    (h3 := fun hs => afterReg_sentinel (ok hs rfl))
    (h4 := fun hs => afterData_sentinel (ok hs rfl))
    (h5 := fun hs => engineSentinel_of_ok (ok hs rfl :))
    (h6 := fun hs => afterAddrR_sentinel (ok hs rfl))
    (h7 := fun hs => sample_sentinel (ok hs rfl))
    (h8 := fun hs => engineSentinel_of_ok (ok hs rfl :))
    (h9 := fun _ => ⟨h.result, fun hopen => by simp [afterStop, EngineState.closed] at hopen⟩)

/-! ### The sentinel in the response -/

theorem sentinelZero_iff {s : State} :
    s.SentinelZero ↔ (s.rspStatus ≠ 0 → s.rspData = 0) ∧ EngineSentinel s ∧
      (s.cst = .raw ∨ s.cst = .getRd → s.firstFail = .ok) :=
  ⟨fun ⟨hrsp, hresult, hstatus, hfirst⟩ => ⟨hrsp, ⟨hresult, hstatus⟩, hfirst⟩,
    fun ⟨hrsp, hengine, hfirst⟩ => ⟨hrsp, hengine.result, hengine.status, hfirst⟩⟩

/-- The sentinel decodes to itself (spec/42_rtc_getters.md R181). -/
theorem ofByte_zero (f : Field) : f.ofByte 0 = 0 := by
  cases f <;> decide

/-- The response of a command of one transaction: its status is that of the transaction, so one that is not OK goes with
the sentinel, and any decoding that keeps 0x00 keeps it. -/
theorem respond_result_sentinel {s : State} (h : EngineSentinel s) (hfirst : s.firstFail = .ok) {data : Byte}
    (hdata : s.tResult = 0 → data = 0) : (s.noteStatus.respond data).SentinelZero := by
  refine sentinelZero_iff.2 ⟨fun hstatus => hdata (h.result fun hok => hstatus ?_), ⟨h.result, h.status⟩,
    by simp⟩
  rw [State.respond_rspStatus, State.noteStatus_firstFail, hfirst, hok]
  rfl

/-- A response with data 0x00 has nothing to show. -/
theorem respond_zero_sentinel {s : State} (h : EngineSentinel s) : (s.respond 0).SentinelZero :=
  sentinelZero_iff.2 ⟨fun _ => rfl, ⟨h.result, h.status⟩, by simp⟩

theorem reject_sentinel {s : State} (h : EngineSentinel s) (st : Status) : (s.reject st).SentinelZero :=
  sentinelZero_iff.2 ⟨fun _ => rfl, ⟨h.result, h.status⟩, by simp⟩

/-- A transaction starts with status OK and result 0x00 (spec/40_bus_engine.md R128). -/
theorem enterRead_sentinel {s : State} (h : s.rspStatus ≠ 0 → s.rspData = 0) {p : CodecState}
    (hfirst : p = .raw ∨ p = .getRd → s.firstFail = .ok) (d : DevAddr) (r : Byte) :
    (enterRead p d r s).SentinelZero :=
  sentinelZero_iff.2 ⟨h, engineSentinel_of_ok rfl, hfirst⟩

theorem enterWrite_sentinel {s : State} (h : s.rspStatus ≠ 0 → s.rspData = 0) {p : CodecState}
    (hfirst : p = .raw ∨ p = .getRd → s.firstFail = .ok) (d : DevAddr) (r v : Byte) :
    (enterWrite p d r v s).SentinelZero :=
  sentinelZero_iff.2 ⟨h, engineSentinel_of_ok rfl, hfirst⟩

theorem acceptCycle_sentinel {s : State} (h : s.SentinelZero) (w : CmdWord) : (acceptCycle w s).SentinelZero := by
  obtain ⟨hrsp, hengine, -⟩ := sentinelZero_iff.1 h
  exact acceptCycle_cases w
    (hR := fun _ d r _ _ _ => enterRead_sentinel (s := (s.latchWord w).clearStatus) hrsp (fun _ => rfl) d r)
    (hW := fun _ d r v _ _ _ => enterWrite_sentinel (s := (s.latchWord w).clearStatus) hrsp (fun _ => rfl) d r v)
    (hrej := fun st _ => reject_sentinel ⟨hengine.result, hengine.status⟩ st)

/-- The codec's moves: a command of one transaction (`C_RAW`, `C_GET_RD`) responds with its result, every other command
with 0x00, and the transactions after the first are none of those two states. -/
theorem codecNext_sentinel {s : State} (he : s.est = .idle) (hc : s.cst ≠ .idle) (h : s.SentinelZero) :
    (codecNext s).SentinelZero := by
  obtain ⟨hrsp, hengine, hfirst⟩ := sentinelZero_iff.1 h
  have hnote : EngineSentinel s.noteStatus := ⟨hengine.result, hengine.status⟩
  have hkept (b : Byte) : EngineSentinel (s.noteStatus.keepTmp b) := ⟨hengine.result, hengine.status⟩
  have hlater {p : CodecState} {u : State} (hraw : p ≠ .raw) (hget : p ≠ .getRd) :
      p = .raw ∨ p = .getRd → u.firstFail = .ok := fun hp => absurd hp (by simp [hraw, hget])
  refine codecNext_cases he hc
    (hR := fun p d r u _ _ _ hraw hget hu => ?_)
    (hW := fun p d r v u _ _ _ hraw hget hu => ?_)
    (hraw := fun hs => respond_result_sentinel hengine (hfirst (.inl hs)) id)
    (hget := fun hs f => respond_result_sentinel hengine (hfirst (.inr hs)) fun hz => by rw [hz, ofByte_zero])
    (hresp := respond_zero_sentinel hnote)
    (hresp' := fun b => respond_zero_sentinel (hkept b))
    (hset := sentinelZero_iff.2 ⟨hrsp, ⟨hengine.result, hengine.status⟩, by simp⟩)
    (hidle := sentinelZero_iff.2 ⟨hrsp, ⟨hengine.result, hengine.status⟩, by simp⟩)
  · refine enterRead_sentinel ?_ (hlater hraw hget) d r
    rcases hu with rfl | ⟨_, rfl⟩ <;> exact hrsp
  · obtain ⟨_, rfl⟩ := hu
    exact enterWrite_sentinel (s := s.noteStatus.keepTmp _) hrsp (hlater hraw hget) d r v

/-- The engine leaves the response and the latched failure alone, and keeps its own part. -/
theorem engineCycle_sentinelZero {s : State} (he : s.est ≠ .idle) (h : s.SentinelZero) :
    (engineCycle s).SentinelZero := by
  obtain ⟨hrsp, hengine, hfirst⟩ := sentinelZero_iff.1 h
  have hcodec := engineCycle_sameCodec he
  refine sentinelZero_iff.2 ⟨?_, engineCycle_sentinel he hengine, ?_⟩
  · rwa [hcodec.rspStatus, hcodec.rspData]
  · rwa [hcodec.cst, hcodec.firstFail]

theorem cycle_sentinel {s : State} (ha : s.SequencersAgree) (h : s.SentinelZero) : (cycle s).SentinelZero :=
  cycle_cases ha
    (hidle := fun w rest _ _ _ => acceptCycle_sentinel (s := { s with commands := rest }) h w)
    (hself := h)
    (hcodec := fun hc he => codecNext_sentinel he hc h)
    (hengine := fun _ _ _ he => engineCycle_sentinelZero he h)

theorem resetCore_sentinel (s : State) : s.resetCore.SentinelZero :=
  sentinelZero_iff.2 ⟨fun _ => rfl, engineSentinel_of_ok rfl, fun _ => rfl⟩

/-! ### The history -/

/-- What no cycle does: change the parameter, rewrite the trace, take back an answer of the environment. -/
structure HistoryGrows (s t : State) : Prop where
  pollLimit : t.pollLimit = s.pollLimit
  trace : ∃ es, t.trace = s.trace ++ es
  doneSeen : s.doneSeen ≤ t.doneSeen
  ackSeen : s.ackSeen ≤ t.ackSeen
  rxSeen : s.rxSeen ≤ t.rxSeen
  chipSeen : s.chipSeen ≤ t.chipSeen

theorem HistoryGrows.refl (s : State) : HistoryGrows s s :=
  ⟨rfl, ⟨[], by simp⟩, le_rfl, le_rfl, le_rfl, le_rfl⟩

theorem HistoryGrows.trans {s t u : State} (h : HistoryGrows s t) (k : HistoryGrows t u) : HistoryGrows s u where
  pollLimit := k.pollLimit.trans h.pollLimit
  trace := by
    obtain ⟨es, hes⟩ := h.trace
    obtain ⟨fs, hfs⟩ := k.trace
    exact ⟨es ++ fs, by rw [hfs, hes, List.append_assoc]⟩
  doneSeen := h.doneSeen.trans k.doneSeen
  ackSeen := h.ackSeen.trans k.ackSeen
  rxSeen := h.rxSeen.trans k.rxSeen
  chipSeen := h.chipSeen.trans k.chipSeen

theorem afterAddrW_historyGrows (s : State) : HistoryGrows s (afterAddrW s) := by
  unfold afterAddrW
  split <;> constructor <;> simp [bail]

theorem afterReg_historyGrows (s : State) : HistoryGrows s (afterReg s) := by
  unfold afterReg
  split
  · constructor <;> simp [bail]
  · dsimp only
    split <;> constructor <;> simp

theorem afterData_historyGrows (s : State) : HistoryGrows s (afterData s) := by
  unfold afterData
  split <;> constructor <;> simp [bail]

theorem afterAddrR_historyGrows (s : State) : HistoryGrows s (afterAddrR s) := by
  unfold afterAddrR
  split <;> constructor <;> simp [bail]

theorem sample_historyGrows (s : State) : HistoryGrows s (sample s) := by
  unfold sample
  split
  · constructor <;> simp
  · split <;> constructor <;> simp

theorem engineCycle_historyGrows {s : State} (he : s.est ≠ .idle) : HistoryGrows s (engineCycle s) :=
  engineCycle_cases he
    (hw := fun _ => by constructor <;> simp)
    (h1 := fun _ => by constructor <;> simp [afterStart])
    (h2 := fun _ => afterAddrW_historyGrows s)
    (h3 := fun _ => afterReg_historyGrows s)
    (h4 := fun _ => afterData_historyGrows s)
    (h5 := fun _ => by constructor <;> simp [afterRestart])
    (h6 := fun _ => afterAddrR_historyGrows s)
    (h7 := fun _ => sample_historyGrows s)
    (h8 := fun _ => by constructor <;> simp [afterMnack])
    (h9 := fun _ => by constructor <;> simp [afterStop])

theorem enterRead_historyGrows (p : CodecState) (d : DevAddr) (r : Byte) (s : State) :
    HistoryGrows s (enterRead p d r s) := by
  constructor <;> simp [enterRead]

theorem enterWrite_historyGrows (p : CodecState) (d : DevAddr) (r v : Byte) (s : State) :
    HistoryGrows s (enterWrite p d r v s) := by
  constructor <;> simp [enterWrite]

theorem cycle_historyGrows (s : State) : HistoryGrows s (cycle s) := by
  refine cycle_cases_any (I := HistoryGrows s) (fun w rest _ _ => ?_) (.refl s) (fun _ => { HistoryGrows.refl s with })
    (fun hb he => ?_) fun _ he => engineCycle_historyGrows he
  · have htaken : HistoryGrows s (({ s with commands := rest } : State).latchWord w).clearStatus :=
      { HistoryGrows.refl s with }
    exact acceptCycle_cases (I := HistoryGrows s) w
      (fun p d r _ _ _ => htaken.trans (enterRead_historyGrows p d r _))
      (fun p d r v _ _ _ => htaken.trans (enterWrite_historyGrows p d r v _))
      fun _ _ => { HistoryGrows.refl s with }
  · refine codecNext_moves (I := HistoryGrows s) he hb.1 (fun u hu => ?_) ?_ ?_
    · have hnoted : HistoryGrows s u := by
        rcases hu with rfl | ⟨_, rfl⟩ <;> exact { HistoryGrows.refl _ with }
      exact ⟨fun p d r => hnoted.trans (enterRead_historyGrows p d r u),
        fun p d r v => hnoted.trans (enterWrite_historyGrows p d r v u)⟩
    · rintro _ (rfl | ⟨_, rfl⟩) _ <;> exact { HistoryGrows.refl _ with }
    · rintro _ (rfl | rfl) _ <;> exact { HistoryGrows.refl _ with }

end Sys2Proof.Machine

namespace Sys2Proof.Claims

open Sys2Proof.Machine

/-- Settles O57: each cycle keeps the sentinel where the sequencers agree, and a reset clears status and result. -/
theorem stepKeepsSentinel : Obligations.StepKeepsSentinel := fun _ _ ha hz h =>
  (step_keeps (I := fun s => s.SequencersAgree ∧ s.SentinelZero)
    (fun _ _ ⟨ha, hz⟩ => ⟨cycle_sequencersAgree ha, cycle_sentinel ha hz⟩)
    (fun s _ _ => ⟨sequencersAgree_of_engineIdle rfl, resetCore_sentinel s⟩) ⟨ha, hz⟩ h).2

/-- Settles O52: the history grows in every cycle, and a reset leaves it as it is. -/
theorem historyOnlyGrows : Obligations.HistoryOnlyGrows := by
  intro s t h
  obtain ⟨hlimit, htrace, hdone, hack, hrx, hchip⟩ := step_keeps (I := HistoryGrows s)
    (fun u _ hu => hu.trans (cycle_historyGrows u)) (fun _ _ hu => { hu with }) (.refl s) h
  exact ⟨hlimit, htrace, hdone, hack, hrx, hchip⟩

end Sys2Proof.Claims
end

section
/-! The engine cycle by cycle (obligations O22, O23, O24 and O30), and the one fault of a command (O21): an equation for
each engine state and each answer to it, from which the statements are read off. -/

namespace Sys2Proof.Machine

/-! ### The awaited flag is seen (spec/40_bus_engine.md R129 to R139) -/

theorem cycle_done {s : State} (hb : Busy s) (he : s.est ≠ .idle) (hp : s.est ≠ .rxPoll) (hd : s.lDone = true) :
    cycle s = doneStep s := by
  rw [cycle_engine hb he, engineCycle_done he hp hd]

section
variable {s : State}

theorem afterAddrW_ack (h : s.lAckstat = .ack) :
    afterAddrW s = (s.quiet.emit (.tx (addrByte s.tDev .write) .ack)).requestTx .reg s.tReg := by
  simp only [afterAddrW, h]

theorem afterAddrW_nack (h : s.lAckstat = .nack) :
    afterAddrW s = bail (s.quiet.emit (.tx (addrByte s.tDev .write) .nack)) := by
  simp only [afterAddrW, h]

theorem afterReg_write (h : s.lAckstat = .ack) (hdir : s.tDir = .write) :
    afterReg s = ((s.quiet.emit (.tx s.tReg .ack)).slavePoint s.tReg).requestTx .data s.tWdata := by
  simp only [afterReg, h, hdir]

theorem afterReg_read (h : s.lAckstat = .ack) (hdir : s.tDir = .read) :
    afterReg s = ((s.quiet.emit (.tx s.tReg .ack)).slavePoint s.tReg).requestRestart := by
  simp only [afterReg, h, hdir]

theorem afterReg_nack (h : s.lAckstat = .nack) : afterReg s = bail (s.quiet.emit (.tx s.tReg .nack)) := by
  simp only [afterReg, h]

theorem afterData_ack (h : s.lAckstat = .ack) :
    afterData s = ((s.quiet.emit (.tx s.tWdata .ack)).slaveStore s.tDev s.tReg s.tWdata).requestStop := by
  simp only [afterData, h]

theorem afterData_nack (h : s.lAckstat = .nack) : afterData s = bail (s.quiet.emit (.tx s.tWdata .nack)) := by
  simp only [afterData, h]

theorem afterAddrR_ack (h : s.lAckstat = .ack) :
    afterAddrR s = (s.quiet.emit (.tx (addrByte s.tDev .read) .ack)).requestRx := by
  simp only [afterAddrR, h]

theorem afterAddrR_nack (h : s.lAckstat = .nack) :
    afterAddrR s = bail (s.quiet.emit (.tx (addrByte s.tDev .read) .nack)) := by
  simp only [afterAddrR, h]

/-- The stop-and-bail sequence after a byte that was not acknowledged (R139). -/
theorem bail_emit_tx (b : Byte) :
    ((bail (s.quiet.emit (.tx b .nack))).tStatus = .nack ∧ (bail (s.quiet.emit (.tx b .nack))).tResult = 0 ∧
      (bail (s.quiet.emit (.tx b .nack))).lReq = .stop ∧ (bail (s.quiet.emit (.tx b .nack))).est = .stop) ∧
    (bail (s.quiet.emit (.tx b .nack))).trace = s.trace ++ [.tx b .nack, .stop] := by
  simp [bail]

end

/-! ### One sample (R136, R137) -/

section
variable {s : State}

theorem sample_full (h : s.lRxfull = true) :
    sample s = (({ s.quiet with rbyte := s.lRxbyte } : State).emit
      (.rx s.lRxbyte (s.pollLimit.toNat - s.cnt.toNat + 1))).requestMnack := if_pos h

theorem sample_last (h : s.lRxfull = false) (hcnt : s.cnt = 1) :
    sample s = ((({ s.quiet with cnt := 0 } : State).emit .rxTimeout).failWith .timeout).requestStop := by
  rw [sample, if_neg (by simp [h]), if_pos ((sub_one_eq_zero _).2 hcnt)]

theorem sample_clear (h : s.lRxfull = false) (hcnt : s.cnt ≠ 1) :
    sample s = { s.wait with cnt := s.cnt - 1 } := by
  rw [sample, if_neg (by simp [h]), if_neg (mt (sub_one_eq_zero _).1 hcnt)]

/-- Whatever the line unit does, one cycle of the poll takes the byte, gives up, or counts down. -/
theorem sample_cases (s : State) :
    (sample s).est = .mnack ∧ (sample s).lReq = .mack ∨
    ((sample s).est = .stop ∧ (sample s).lReq = .stop ∧ (sample s).tStatus = .timeout) ∨
    s.cnt ≠ 1 ∧ sample s = { s.wait with cnt := s.cnt - 1 } := by
  cases h : s.lRxfull with
  | true => exact .inl (by simp [sample_full h])
  | false =>
    by_cases hcnt : s.cnt = 1
    · exact .inr (.inl (by simp [sample_last h hcnt]))
    · exact .inr (.inr ⟨hcnt, sample_clear h hcnt⟩)

end

/-- The poll that starts in `s` ends after `n` cycles: until then the engine samples and records nothing, and then it
requests the handshake or, with TIMEOUT, the forced stop. -/
def PollEndsAfter (n : Nat) (s : State) : Prop :=
  (∀ m < n, (cycles m s).est = .rxPoll ∧ (cycles m s).trace = s.trace) ∧
    ((cycles n s).est = .mnack ∧ (cycles n s).lReq = .mack ∨
      (cycles n s).est = .stop ∧ (cycles n s).lReq = .stop ∧ (cycles n s).tStatus = .timeout)

theorem pollEndsAfter_one {s : State} (he : s.est = .rxPoll)
    (h : (cycle s).est = .mnack ∧ (cycle s).lReq = .mack ∨
      (cycle s).est = .stop ∧ (cycle s).lReq = .stop ∧ (cycle s).tStatus = .timeout) : PollEndsAfter 1 s := by
  refine ⟨fun m hm => ?_, h⟩
  obtain rfl : m = 0 := by omega
  exact ⟨he, rfl⟩

/-- A cycle that goes on sampling and records nothing puts the end off by one. -/
theorem PollEndsAfter.succ {n : Nat} {s : State} (he : s.est = .rxPoll) (htrace : (cycle s).trace = s.trace)
    (h : PollEndsAfter n (cycle s)) : PollEndsAfter (n + 1) s := by
  refine ⟨fun m hm => ?_, h.2⟩
  cases m with
  | zero => exact ⟨he, rfl⟩
  | succ m =>
    obtain ⟨hest, hsame⟩ := h.1 m (by omega)
    exact ⟨hest, hsame.trans htrace⟩

/-- Each clear sample takes one from `cnt`, and the last one that is left ends the poll. -/
theorem poll_ends (k : Nat) : ∀ s : State, Busy s → s.est = .rxPoll → s.cnt.toNat = k + 1 →
    ∃ n, 1 ≤ n ∧ n ≤ k + 1 ∧ PollEndsAfter n s := by
  induction k with
  | zero =>
    intro s hb he hk
    refine ⟨1, le_rfl, le_rfl, pollEndsAfter_one he ?_⟩
    rw [cycle_sample hb he]
    rcases sample_cases s with hfound | hlost | ⟨hcnt, -⟩
    · exact .inl hfound
    · exact .inr hlost
    · exact absurd (BitVec.eq_of_toNat_eq hk) hcnt
  | succ k ih =>
    intro s hb he hk
    rcases sample_cases s with hfound | hlost | ⟨-, hclear⟩
    · exact ⟨1, le_rfl, by omega, pollEndsAfter_one he (.inl (by rwa [cycle_sample hb he]))⟩
    · exact ⟨1, le_rfl, by omega, pollEndsAfter_one he (.inr (by rwa [cycle_sample hb he]))⟩
    · have hcycle : cycle s = { s.wait with cnt := s.cnt - 1 } := by rw [cycle_sample hb he, hclear]
      have hcnt : (s.cnt - 1).toNat = k + 1 := by
        rw [toNat_sub_one _ (by rintro hz; simp [hz] at hk), hk, Nat.add_sub_cancel]
      obtain ⟨n, hlo, hhi, hends⟩ := ih { s.wait with cnt := s.cnt - 1 } hb he hcnt
      exact ⟨n + 1, by omega, by omega, .succ he (by rw [hcycle]; rfl) (by rwa [hcycle])⟩

/-! ### The hang (R127) -/

/-- The line unit never completes what the engine waits for. -/
def NeverDone (s : State) : Prop := s.line = .prim .never ∨ ∃ a, s.line = .tx .never a

theorem NeverDone.lDone {s : State} (h : NeverDone s) : s.lDone = false := by
  rcases h with hl | ⟨a, hl⟩ <;> simp [State.lDone, hl]

theorem NeverDone.wait {s : State} (h : NeverDone s) : s.wait = s.stuck := by
  rcases h with hl | ⟨a, hl⟩ <;> simp [State.wait, State.stuck, hl, Line.tick]

theorem cycle_hung {s : State} (hb : Busy s) (he : s.est ≠ .idle) (hp : s.est ≠ .rxPoll) (h : NeverDone s) :
    cycle s = s.stuck := by
  rw [cycle_engine hb he, engineCycle_wait he hp h.lDone, h.wait]

/-- The state a hang is in is one it stays in. -/
theorem cycles_hung (n : Nat) : ∀ {s : State}, Busy s → s.est ≠ .idle → s.est ≠ .rxPoll → NeverDone s →
    cycles (n + 1) s = s.stuck := by
  induction n with
  | zero => exact fun hb he hp h => cycle_hung hb he hp h
  | succ n ih =>
    intro s hb he hp h
    rw [cycles, cycle_hung hb he hp h]
    exact ih (s := s.stuck) hb he hp h

/-! ### The fault of a busy engine (R128, assumption log 10) -/

theorem command_engineBusy {s : State} (hlimit : s.pollLimit ≠ 0) (hready : s.cmdReady = true) (he : s.est ≠ .idle)
    (latch body : State → State) : command latch body s = .fault .engineNotIdle := by
  rw [command, if_neg hlimit, if_pos hready, if_neg he]

end Sys2Proof.Machine

namespace Sys2Proof.Claims

open Sys2Proof.Machine

/-- Settles O21: every instruction runs in the frame of a command. -/
theorem busyEngineFaults : Obligations.BusyEngineFaults := by
  intro i s hlimit hready he
  obtain ⟨latch, body, hi⟩ := exec_runsInFrame i
  rw [hi, command_engineBusy hlimit hready he]

/-- Settles O22: the equation of the engine state and of the acknowledge, clause by clause. -/
theorem engineTransitions : Obligations.EngineTransitions := by
  intro s hidle hresp hd
  have cycle_at {e : EngineState} (hs : s.est = e) (he : e ≠ .idle) (hp : e ≠ .rxPoll) : cycle s = doneStep s :=
    cycle_done ⟨hidle, hresp⟩ (hs ▸ he) (hs ▸ hp) hd
  refine ⟨fun hs => ?_, fun hs ha => ?_, fun hs ha => ?_, fun hs ha hdir => ?_, fun hs ha hdir => ?_, fun hs ha => ?_,
    fun hs ha => ?_, fun hs ha => ?_, fun hs => ?_, fun hs ha => ?_, fun hs ha => ?_, fun hs => ?_, fun hs => ?_⟩ <;>
    rw [cycle_at hs (by decide) (by decide), doneStep, hs] <;> dsimp only
  · exact ⟨rfl, rfl, rfl, rfl⟩
  · rw [afterAddrW_ack ha]
    exact ⟨rfl, rfl, rfl, rfl⟩
  · rw [afterAddrW_nack ha]
    exact bail_emit_tx _
  · rw [afterReg_write ha hdir]
    exact ⟨rfl, rfl, rfl, rfl⟩
  · rw [afterReg_read ha hdir]
    simp
  · rw [afterReg_nack ha]
    exact bail_emit_tx _
  · rw [afterData_ack ha]
    simp
  · rw [afterData_nack ha]
    exact bail_emit_tx _
  · exact ⟨rfl, rfl, rfl, rfl⟩
  · rw [afterAddrR_ack ha]
    simp
  · rw [afterAddrR_nack ha]
    exact bail_emit_tx _
  · exact ⟨rfl, rfl, rfl, rfl⟩
  · exact ⟨rfl, rfl, rfl, rfl, rfl⟩

/-- Settles O23: the three equations of a sample. -/
theorem pollSample : Obligations.PollSample := by
  intro s hidle hresp he hcnt
  rw [cycle_sample ⟨hidle, hresp⟩ he]
  refine ⟨fun h => ?_, fun h => ?_, fun h hlast => ?_, fun h hmore => ?_⟩
  · simp [sample_full h, State.lAckdt]
  · by_cases hlast : s.cnt = 1
    · simp [sample_last h hlast, hlast]
    · simp only [sample_clear h hlast, toNat_sub_one _ hcnt]
  · simp [sample_last h hlast]
  · rw [sample_clear h hmore]
    exact ⟨rfl, he, rfl⟩

/-- Settles O24: a cycle of a hung command only lets the request lines fall, and so does the next. -/
theorem hangLastsForEver : Obligations.HangLastsForEver := by
  intro s hidle hresp he hp hnever
  refine ⟨fun n => cycles_hung n ⟨hidle, hresp⟩ he hp hnever, fun hlimit hrst => ?_⟩
  rw [step_busy hlimit hrst hidle, cycle_hung ⟨hidle, hresp⟩ he hp hnever]
  rfl

/-- Settles O30: by induction on the samples that are left. -/
theorem pollEndsWithinLimit : Obligations.PollEndsWithinLimit := by
  intro s hidle hresp he hcnt
  obtain ⟨k, hk⟩ := Nat.exists_eq_succ_of_ne_zero fun hz => hcnt (BitVec.eq_of_toNat_eq hz)
  rw [hk]
  exact poll_ends k s ⟨hidle, hresp⟩ he hk

end Sys2Proof.Claims
end

section
/-! The two transactions in a live environment (obligations O26 to O29). Each ends as its outcome table says
(`writeTransaction_live`, `readTransaction_live`), so the trace's shape and the bounds are facts about the tables, and
the two commands respond with a row of theirs. -/

namespace Sys2Proof.Machine

open Sys2Proof.Claims (Responded TransactionShape isTx isRx)

/-! ### The tables by row (spec/40_bus_engine.md R142, R143) -/

section
variable (d : DevAddr) (r v : Byte) (limit : Nat) {ack : Nat → Ack} {rx : Option (Nat × Byte)}

theorem writeOutcome_nack0 (h0 : ack 0 = .nack) :
    writeOutcome d r v ack = ⟨[.start, .tx (addrByte d .write) .nack, .stop], .nack, 0, 1, false⟩ := by
  simp [writeOutcome, h0]

theorem writeOutcome_nack1 (h0 : ack 0 = .ack) (h1 : ack 1 = .nack) :
    writeOutcome d r v ack =
      ⟨[.start, .tx (addrByte d .write) .ack, .tx r .nack, .stop], .nack, 0, 2, false⟩ := by
  simp [writeOutcome, h0, h1]

theorem writeOutcome_nack2 (h0 : ack 0 = .ack) (h1 : ack 1 = .ack) (h2 : ack 2 = .nack) :
    writeOutcome d r v ack =
      ⟨[.start, .tx (addrByte d .write) .ack, .tx r .ack, .tx v .nack, .stop], .nack, 0, 3, false⟩ := by
  simp [writeOutcome, h0, h1, h2]

theorem writeOutcome_stored (h0 : ack 0 = .ack) (h1 : ack 1 = .ack) (h2 : ack 2 = .ack) :
    writeOutcome d r v ack =
      ⟨[.start, .tx (addrByte d .write) .ack, .tx r .ack, .tx v .ack, .stop], .ok, 0, 3, true⟩ := by
  simp [writeOutcome, h0, h1, h2]

theorem readOutcome_nack0 (h0 : ack 0 = .nack) :
    readOutcome d r limit ack rx = ⟨[.start, .tx (addrByte d .write) .nack, .stop], .nack, 0, 1, false⟩ := by
  simp [readOutcome, h0]

theorem readOutcome_nack1 (h0 : ack 0 = .ack) (h1 : ack 1 = .nack) :
    readOutcome d r limit ack rx =
      ⟨[.start, .tx (addrByte d .write) .ack, .tx r .nack, .stop], .nack, 0, 2, false⟩ := by
  simp [readOutcome, h0, h1]

theorem readOutcome_nack2 (h0 : ack 0 = .ack) (h1 : ack 1 = .ack) (h2 : ack 2 = .nack) :
    readOutcome d r limit ack rx =
      ⟨[.start, .tx (addrByte d .write) .ack, .tx r .ack, .restart, .tx (addrByte d .read) .nack, .stop],
        .nack, 0, 3, false⟩ := by
  simp [readOutcome, h0, h1, h2]

/-- The answer never comes, or after the last sample. -/
theorem readOutcome_timeout (h0 : ack 0 = .ack) (h1 : ack 1 = .ack) (h2 : ack 2 = .ack)
    (hrx : rx = none ∨ ∃ k b, rx = some (k, b) ∧ limit < k) :
    readOutcome d r limit ack rx =
      ⟨[.start, .tx (addrByte d .write) .ack, .tx r .ack, .restart, .tx (addrByte d .read) .ack, .rxen, .rxTimeout,
        .stop], .timeout, 0, 3, false⟩ := by
  rcases hrx with rfl | ⟨k, b, rfl, hk⟩
  · simp [readOutcome, h0, h1, h2]
  · simp [readOutcome, h0, h1, h2, Nat.not_le.2 hk]

theorem readOutcome_received {k : Nat} {b : Byte} (h0 : ack 0 = .ack) (h1 : ack 1 = .ack) (h2 : ack 2 = .ack)
    (hk : k ≤ limit) :
    readOutcome d r limit ack (some (k, b)) =
      ⟨[.start, .tx (addrByte d .write) .ack, .tx r .ack, .restart, .tx (addrByte d .read) .ack, .rxen, .rx b k,
        .mnack, .stop], .ok, b, 3, false⟩ := by
  simp [readOutcome, h0, h1, h2, hk]

theorem ack_cases (a : Ack) : a = .nack ∨ a = .ack := by
  cases a
  · exact .inr rfl
  · exact .inl rfl

/-- A write transaction has one of four outcomes. -/
theorem writeOutcome_cases {I : Outcome → Prop} (ack : Nat → Ack)
    (nack0 : I ⟨[.start, .tx (addrByte d .write) .nack, .stop], .nack, 0, 1, false⟩)
    (nack1 : I ⟨[.start, .tx (addrByte d .write) .ack, .tx r .nack, .stop], .nack, 0, 2, false⟩)
    (nack2 : I ⟨[.start, .tx (addrByte d .write) .ack, .tx r .ack, .tx v .nack, .stop], .nack, 0, 3, false⟩)
    (stored : I ⟨[.start, .tx (addrByte d .write) .ack, .tx r .ack, .tx v .ack, .stop], .ok, 0, 3, true⟩) :
    I (writeOutcome d r v ack) := by
  rcases ack_cases (ack 0) with h0 | h0
  · rwa [writeOutcome_nack0 d r v h0]
  rcases ack_cases (ack 1) with h1 | h1
  · rwa [writeOutcome_nack1 d r v h0 h1]
  rcases ack_cases (ack 2) with h2 | h2
  · rwa [writeOutcome_nack2 d r v h0 h1 h2]
  · rwa [writeOutcome_stored d r v h0 h1 h2]

theorem answer_cases (rx : Option (Nat × Byte)) :
    (rx = none ∨ ∃ k b, rx = some (k, b) ∧ limit < k) ∨ ∃ k b, rx = some (k, b) ∧ k ≤ limit := by
  rcases rx with _ | ⟨k, b⟩
  · exact .inl (.inl rfl)
  · rcases Nat.lt_or_ge limit k with hk | hk
    · exact .inl (.inr ⟨k, b, rfl, hk⟩)
    · exact .inr ⟨k, b, rfl, hk⟩

/-- A read transaction has one of five kinds of outcome. -/
theorem readOutcome_cases {I : Outcome → Prop} (ack : Nat → Ack) (rx : Option (Nat × Byte))
    (nack0 : I ⟨[.start, .tx (addrByte d .write) .nack, .stop], .nack, 0, 1, false⟩)
    (nack1 : I ⟨[.start, .tx (addrByte d .write) .ack, .tx r .nack, .stop], .nack, 0, 2, false⟩)
    (nack2 : I ⟨[.start, .tx (addrByte d .write) .ack, .tx r .ack, .restart, .tx (addrByte d .read) .nack, .stop],
      .nack, 0, 3, false⟩)
    (timeout : I ⟨[.start, .tx (addrByte d .write) .ack, .tx r .ack, .restart, .tx (addrByte d .read) .ack, .rxen,
      .rxTimeout, .stop], .timeout, 0, 3, false⟩)
    (received : ∀ k b, I ⟨[.start, .tx (addrByte d .write) .ack, .tx r .ack, .restart, .tx (addrByte d .read) .ack,
      .rxen, .rx b k, .mnack, .stop], .ok, b, 3, false⟩) :
    I (readOutcome d r limit ack rx) := by
  rcases ack_cases (ack 0) with h0 | h0
  · rwa [readOutcome_nack0 d r limit h0]
  rcases ack_cases (ack 1) with h1 | h1
  · rwa [readOutcome_nack1 d r limit h0 h1]
  rcases ack_cases (ack 2) with h2 | h2
  · rwa [readOutcome_nack2 d r limit h0 h1 h2]
  rcases answer_cases limit rx with hrx | ⟨k, b, rfl, hk⟩
  · rwa [readOutcome_timeout d r limit h0 h1 h2 hrx]
  · rw [readOutcome_received d r limit h0 h1 h2 hk]
    exact received k b

end

/-! ### The shape of the traces (R144) -/

/-- Clause (g) of R144: after a byte that was not acknowledged comes only the STOP. -/
def StopsAfterNack (es : List Event) : Prop :=
  ∀ before b later, es = before ++ Event.tx b .nack :: later → later = [.stop]

theorem stopsAfterNack_nil : StopsAfterNack [] := by
  intro before b later h
  simp at h

theorem stopsAfterNack_cons {e : Event} {es : List Event} :
    StopsAfterNack (e :: es) ↔ (∀ b, e = .tx b .nack → es = [.stop]) ∧ StopsAfterNack es := by
  constructor
  · refine fun h => ⟨fun b he => h [] b es (by rw [he]; rfl), fun before b later hes => ?_⟩
    exact h (e :: before) b later (by rw [hes]; rfl)
  · rintro ⟨hhead, htail⟩ before b later h
    cases before with
    | nil =>
      obtain ⟨he, rfl⟩ := List.cons.inj h
      exact hhead b he
    | cons e' before => exact htail before b later (List.cons.inj h).2

theorem writeOutcome_shape (d : DevAddr) (r v : Byte) (ack : Nat → Ack) :
    TransactionShape .write (writeOutcome d r v ack).events := by
  refine writeOutcome_cases (I := fun o => TransactionShape .write o.events) d r v ack ?_ ?_ ?_ ?_ <;>
    exact
      { beginsWithStart := rfl, endsWithStop := rfl, oneStart := by simp, oneStop := by simp, restarts := by simp
        transmissions := by simp [isTx, List.countP_cons], handshake := by simp [isRx]
        stopsAfterNack := by
          show StopsAfterNack _
          simp [stopsAfterNack_cons, stopsAfterNack_nil] }

theorem readOutcome_shape (d : DevAddr) (r : Byte) (limit : Nat) (ack : Nat → Ack) (rx : Option (Nat × Byte)) :
    TransactionShape .read (readOutcome d r limit ack rx).events := by
  refine readOutcome_cases (I := fun o => TransactionShape .read o.events) d r limit ack rx ?_ ?_ ?_ ?_
    (fun _ _ => ?_) <;>
    exact
      { beginsWithStart := rfl, endsWithStop := rfl, oneStart := by simp, oneStop := by simp, restarts := by simp
        transmissions := by simp [isTx, List.countP_cons], handshake := by simp [isRx]
        stopsAfterNack := by
          show StopsAfterNack _
          simp [stopsAfterNack_cons, stopsAfterNack_nil] }

/-! ### The bounds (R146) -/

/-- A read enables the receive at most once. -/
theorem readOutcome_count_rxen (d : DevAddr) (r : Byte) (limit : Nat) (ack : Nat → Ack) (rx : Option (Nat × Byte)) :
    (readOutcome d r limit ack rx).events.count .rxen ≤ 1 :=
  readOutcome_cases (I := fun o => o.events.count .rxen ≤ 1) d r limit ack rx (by simp) (by simp) (by simp) (by simp)
    fun _ _ => by simp

/-! ### The two commands (R140, R141) -/

/-- A command of one transaction, which has latched no earlier failure, responds with that transaction's status. -/
theorem respond_status {s : State} {st : TStatus} (h : s.firstFail = firstOf .ok st) (b : Byte) :
    (s.respond b).rspStatus = st.status.code := by
  rw [State.respond_rspStatus, h]
  rfl

theorem responded_respond {s : State} (he : s.est = .idle) (hl : s.line = .idle) (hr : s.lReq = .none) (b : Byte) :
    Responded (s.respond b) :=
  ⟨rfl, rfl, he, hl, hr⟩

/-- WRITE_REG in a live environment: the outcome of its transaction, with data 0x00. -/
theorem exec_writeReg_live (d : DevAddr) (r v : Byte) {s : State} (hs : s.Ready) (hlive : s.LiveFor 5) :
    ∃ t, exec (.writeReg d r v) s = .next t ∧ Responded t ∧ t.rspData = 0 ∧
      t.trace = s.trace ++ (writeOutcome d r v s.nextAck).events ∧
      t.rspStatus = (writeOutcome d r v s.nextAck).status.status.code ∧
      t.mem = if (writeOutcome d r v s.nextAck).stored then s.nextMem.write (location d r) v else s.nextMem := by
  obtain ⟨t, ht, htrace, hff, hm, he, hl, hr, -⟩ := regWrite_live .raw d r v (latchEW 0x01 d r v s).clearStatus hlive
  refine ⟨t.respond 0, ?_, responded_respond he hl hr 0, rfl, htrace, respond_status hff 0, hm⟩
  rw [exec, execWriteReg, command_ready hs, ht]
  rfl

/-- READ_REG in a live environment: the outcome of its transaction. -/
theorem exec_readReg_live (d : DevAddr) (r : Byte) {s : State} (hs : s.Ready) (hlive : s.LiveFor 8) :
    ∃ t, exec (.readReg d r) s = .next t ∧ Responded t ∧ t.trace = s.trace ++ (s.readHere d r).events ∧
      t.rspData = (s.readHere d r).byte ∧ t.rspStatus = (s.readHere d r).status.status.code := by
  obtain ⟨t, ht, htrace, -, hff, -, he, hl, hr, -⟩ := regRead_live .raw d r (latchER 0x02 d r s).clearStatus hlive
  refine ⟨t.respond (s.readHere d r).byte, ?_, responded_respond he hl hr _, htrace, rfl, respond_status hff _⟩
  rw [exec, execReadReg, command_ready hs, ht]
  rfl

end Sys2Proof.Machine

namespace Sys2Proof.Claims

open Sys2Proof.Machine

/-- Settles O26: the rows of the write table. -/
theorem writeRegOutcomes : Obligations.WriteRegOutcomes := by
  intro d r v s hs hlive
  obtain ⟨t, ht, hresp, hdata, htrace, hstatus, hm⟩ := exec_writeReg_live d r v hs hlive
  refine ⟨t, ht, hresp, hdata, fun h0 => ?_, fun h0 h1 => ?_, fun h0 h1 h2 => ?_, fun h0 h1 h2 => ?_⟩
  · rw [writeOutcome_nack0 d r v h0] at htrace hstatus hm
    exact ⟨htrace, hstatus, by rw [hm]; rfl⟩
  · rw [writeOutcome_nack1 d r v h0 h1] at htrace hstatus hm
    exact ⟨htrace, hstatus, by rw [hm]; rfl⟩
  · rw [writeOutcome_nack2 d r v h0 h1 h2] at htrace hstatus hm
    exact ⟨htrace, hstatus, by rw [hm]; rfl⟩
  · rw [writeOutcome_stored d r v h0 h1 h2] at htrace hstatus hm
    exact ⟨htrace, hstatus, by rw [hm]; exact Memory.read_write_location ..⟩

/-- Settles O27: the rows of the read table. -/
theorem readRegOutcomes : Obligations.ReadRegOutcomes := by
  intro d r s hs hlive
  obtain ⟨t, ht, hresp, htrace, hdata, hstatus⟩ := exec_readReg_live d r hs hlive
  rw [State.readHere] at htrace hdata hstatus
  refine ⟨t, ht, hresp, fun h0 => ?_, fun h0 h1 => ?_, fun h0 h1 h2 => ?_, fun h0 h1 h2 hrx => ?_,
    fun h0 h1 h2 k b hrx hk => ?_⟩
  · rw [readOutcome_nack0 d r _ h0] at htrace hdata hstatus
    exact ⟨htrace, hdata, hstatus⟩
  · rw [readOutcome_nack1 d r _ h0 h1] at htrace hdata hstatus
    exact ⟨htrace, hdata, hstatus⟩
  · rw [readOutcome_nack2 d r _ h0 h1 h2] at htrace hdata hstatus
    exact ⟨htrace, hdata, hstatus⟩
  · rw [readOutcome_timeout d r _ h0 h1 h2 hrx] at htrace hdata hstatus
    exact ⟨htrace, hdata, hstatus⟩
  · rw [hrx, readOutcome_received d r _ h0 h1 h2 hk] at htrace hdata hstatus
    exact ⟨htrace, hdata, hstatus⟩

/-- Settles O28: every row of the two tables has the shape. -/
theorem transactionTraceShape : Obligations.TransactionTraceShape := by
  refine ⟨fun d r v s hlive => ?_, fun d r s hlive => ?_⟩
  · obtain ⟨t, ht, hends, -⟩ := writeTransaction_live d r v s hlive
    exact ⟨t, _, ht, hends.trace, writeOutcome_shape ..⟩
  · obtain ⟨t, ht, hends, -⟩ := readTransaction_live d r s hlive
    exact ⟨t, _, ht, hends.trace, readOutcome_shape ..⟩

/-- Settles O29: a write requests at most five completions and no receive, a read at most seven and one receive. -/
theorem transactionsBounded : Obligations.TransactionsBounded := by
  refine ⟨fun d r v s hlive => ?_, fun d r s hlive => ?_⟩
  · obtain ⟨t, ht, hends, -, hdone, -, hreceive⟩ := writeTransaction_live d r v s hlive
    exact ⟨t, ht, hends.est, by have := hreceive.rxSeen; omega⟩
  · obtain ⟨t, ht, hends, -, -, -, hdone, hrx⟩ := readTransaction_live d r s hlive
    have hone : (s.readHere d r).events.count .rxen ≤ 1 := readOutcome_count_rxen ..
    exact ⟨t, ht, hends.est, by omega, by omega⟩

end Sys2Proof.Claims
end

section
/-! What WRITE_REG and READ_REG leave unchanged (obligations O44 and O45), from the frames of the codec's write and
read: in every environment, also where the command hangs or is turned away. -/

namespace Sys2Proof.Machine

open Sys2Proof.Claims (SurroundingsKept ReceiveSideKept RegistersKept)

/-! ### The surroundings of a command -/

theorem surroundingsKept_refl (s : State) : SurroundingsKept s s :=
  ⟨rfl, rfl, rfl, rfl, rfl, rfl, rfl, ⟨[], by simp⟩⟩

theorem PieceFrame.surroundingsKept {n : Nat} {S : List Nat} {s t : State} (h : PieceFrame n S s t) :
    SurroundingsKept s t :=
  ⟨h.rst, h.commands, h.pollLimit, h.doneScript, h.ackScript, h.rxScript, h.chipScript, h.trace⟩

/-- The response is none of a command's surroundings, and a hang leaves what the pieces so far have left. -/
theorem Run.Ends.close_surroundingsKept {α : Type} {n : Nat} {S : List Nat} {s : State} {r : Run α}
    (h : r.Ends (fun _ t => PieceFrame n S s t) (PieceFrame n S s)) (data : α → Byte) :
    SurroundingsKept s (r.close fun a t => t.respond (data a)) :=
  h.close (fun _ _ ht => { ht.surroundingsKept with }) fun _ ht => ht.surroundingsKept

/-- What holds of a command that was turned away and of one that ran holds of every next state of it. -/
theorem command_relates {R : State → State → Prop} {latch body : State → State} {s t : State}
    (h : command latch body s = .next t) (hrefl : R s s) (hrun : R s (body (latch s))) : R s t := by
  rcases command_next h with ⟨-, rfl⟩ | ⟨-, rfl⟩
  · exact hrefl
  · exact hrun

section
variable {d : DevAddr} {r v : Byte} {s t : State}

/-! ### WRITE_REG (spec/40_bus_engine.md R140) -/

theorem execWriteReg_surroundingsKept (h : execWriteReg d r v s = .next t) : SurroundingsKept s t := by
  refine command_relates h (surroundingsKept_refl s) ?_
  have hkept := ((regWrite_frame .raw d r v (latchEW 0x01 d r v s).clearStatus).mono (fun _ _ h => h.1)
    fun _ h => h.1).close_surroundingsKept fun _ => 0
  exact { hkept with }

theorem execWriteReg_registersKept (h : execWriteReg d r v s = .next t) : RegistersKept 1 [location d r] s t :=
  command_registersKept h ⟨rfl, rfl, rfl, rfl, rfl, rfl, rfl, rfl⟩ fun u =>
    ((regWrite_frame .raw d r v u.clearStatus).mono (fun _ _ h => h.1) fun _ h => h.1).close_registersKept fun _ => 0

/-- A write receives nothing and keeps no byte. -/
theorem execWriteReg_receiveSideKept (h : execWriteReg d r v s = .next t) :
    ReceiveSideKept s t ∧ t.tmp = s.tmp :=
  command_relates (R := fun s t => ReceiveSideKept s t ∧ t.tmp = s.tmp) h ⟨⟨rfl, rfl, rfl⟩, rfl⟩ <|
    (regWrite_frame .raw d r v (latchEW 0x01 d r v s).clearStatus).close
      (R := fun t => ReceiveSideKept s t ∧ t.tmp = s.tmp)
      (fun _ _ ⟨_, hrx, htmp, _⟩ => ⟨⟨hrx.rbyte, hrx.cnt, hrx.rxSeen⟩, htmp⟩)
      fun _ ⟨_, hrx, htmp, _⟩ => ⟨⟨hrx.rbyte, hrx.cnt, hrx.rxSeen⟩, htmp⟩

/-! ### READ_REG (R141) -/

theorem execReadReg_surroundingsKept (h : execReadReg d r s = .next t) : SurroundingsKept s t := by
  refine command_relates h (surroundingsKept_refl s) ?_
  have hkept := ((regRead_frame .raw d r (latchER 0x02 d r s).clearStatus).mono (fun _ _ h => h.1)
    fun _ h => h.1).close_surroundingsKept id
  exact { hkept with }

/-- A read has no payload and keeps no byte but the response's. -/
theorem execReadReg_payloadKept (h : execReadReg d r s = .next t) :
    t.wdata = s.wdata ∧ t.tWdata = s.tWdata ∧ t.tmp = s.tmp :=
  command_relates (R := fun s t => t.wdata = s.wdata ∧ t.tWdata = s.tWdata ∧ t.tmp = s.tmp) h ⟨rfl, rfl, rfl⟩ <|
    (regRead_frame .raw d r (latchER 0x02 d r s).clearStatus).close
      (R := fun t => t.wdata = s.wdata ∧ t.tWdata = s.tWdata ∧ t.tmp = s.tmp)
      (fun _ _ ⟨hf, hw, htmp, _⟩ => ⟨hf.wdata, hw, htmp⟩) fun _ ⟨hf, hw, htmp, _⟩ => ⟨hf.wdata, hw, htmp⟩

end

end Sys2Proof.Machine

namespace Sys2Proof.Claims

open Sys2Proof.Machine

/-- Settles O44: the frame of the codec's write, around it the latching and the response. -/
theorem writeRegFrame : Obligations.WriteRegFrame := by
  intro d r v s t h
  obtain ⟨hreceive, htmp⟩ := execWriteReg_receiveSideKept h
  exact ⟨execWriteReg_surroundingsKept h, execWriteReg_responseKept h, hreceive, htmp, execWriteReg_registersKept h⟩

/-- Settles O45: the frame of the codec's read, around it the latching and the response. -/
theorem readRegFrame : Obligations.ReadRegFrame := by
  intro d r s t h
  obtain ⟨hwdata, htwdata, htmp⟩ := execReadReg_payloadKept h
  exact ⟨execReadReg_surroundingsKept h, execReadReg_responseKept h, hwdata, htwdata, htmp,
    execReadReg_registersKept h⟩

end Sys2Proof.Claims
end

section
/-! The BCD codec in numbers (spec/41_bcd_codec.md; obligations O8, O9, O10, O38, O40): encoding and decoding as formulas,
a merged byte on its kept bit and on its digits, and the ranges. -/

namespace Sys2Proof.Machine

open Sys2Proof.Claims (bcdByte)

/-! ### Encoding and decoding -/

/-- Only the tens can leave the byte, the ones are below 10 (R161). -/
theorem toNat_bcdEnc (v : Byte) : (bcdEnc v).toNat = ((v.toNat / 10) <<< 4 ||| v.toNat % 10) % 256 := by
  have hones : v.toNat % 10 % 2 ^ 8 = v.toNat % 10 := Nat.mod_eq_of_lt (by omega)
  calc (bcdEnc v).toNat
    _ = (v.toNat / 10) <<< 4 % 2 ^ 8 ||| v.toNat % 10 := by simp [bcdEnc]
    _ = ((v.toNat / 10) <<< 4 ||| v.toNat % 10) % 256 := by rw [← hones, ← Nat.or_mod_two_pow, hones]

/-- The ones fit under the tens, so the two parts do not overlap (R161). -/
theorem bcdEnc_eq_bcdByte (v : Byte) : bcdEnc v = bcdByte v := by
  have hones : v.toNat % 10 < 2 ^ 4 := by omega
  refine BitVec.eq_of_toNat_eq ?_
  rw [toNat_bcdEnc, ← Nat.shiftLeft_add_eq_or_of_lt hones, Nat.shiftLeft_eq]
  simp [bcdByte]

/-- No carry out of the byte: the sum is at most 15 + 15 * 10 (R163). -/
theorem toNat_bcdDec (b m : Byte) : (bcdDec b m).toNat = (b &&& m).toNat % 16 + (b &&& m).toNat / 16 * 10 := by
  have hones : (b &&& m &&& 0x0F).toNat = (b &&& m).toNat % 16 := Nat.and_two_pow_sub_one_eq_mod (b &&& m).toNat 4
  have htens : ((b &&& m) >>> 4).toNat = (b &&& m).toNat / 16 := Nat.shiftRight_eq_div_pow (b &&& m).toNat 4
  have hbyte := (b &&& m).isLt
  calc (bcdDec b m).toNat
    _ = ((b &&& m &&& 0x0F).toNat + ((b &&& m) >>> 4).toNat * 10 % 256) % 256 := rfl
    _ = (b &&& m).toNat % 16 + (b &&& m).toNat / 16 * 10 := by rw [hones, htens]; omega

theorem ofByte_eq_bcdDec {f : Field} {m : Byte} (h : f.kind = .bcd ∧ f.digitMask = m) (b : Byte) :
    f.ofByte b = bcdDec b m := by
  obtain ⟨hkind, rfl⟩ := h
  simp only [Field.ofByte, hkind]

/-! ### A merged byte on its kept bit and on its digits -/

/-- A value whose digits are below bit `i` leaves that bit to the merge (R166). -/
theorem getLsbD_bcdEnc_of_lt {v : Byte} {i : Nat} (h : v.toNat / 10 * 16 + v.toNat % 10 < 2 ^ i) :
    (bcdEnc v).getLsbD i = false := by
  rw [bcdEnc_eq_bcdByte, ← BitVec.testBit_toNat]
  exact Nat.testBit_eq_false_of_lt ((Nat.mod_le _ _).trans_lt h)

theorem and_not_twoPow_of_getLsbD {e : Byte} {i : Nat} (he : e.getLsbD i = false) : e &&& ~~~BitVec.twoPow 8 i = e := by
  ext j hj
  by_cases hij : j = i
  · subst hij
    simpa [hj] using he
  · simp [hij]

/-- The kept bit is the one read (R166). -/
theorem getLsbD_mergeKeep_twoPow {e : Byte} {i : Nat} (hi : i < 8) (he : e.getLsbD i = false) (cur : Byte) :
    (mergeKeep e cur (BitVec.twoPow 8 i)).getLsbD i = cur.getLsbD i := by
  rw [mergeKeep, BitVec.getLsbD_or, he, BitVec.getLsbD_and]
  simp [hi]

/-- Without the kept bit a merged byte is the byte that was encoded (R166). -/
theorem mergeKeep_twoPow_and_not {e : Byte} {i : Nat} (he : e.getLsbD i = false) (cur : Byte) :
    mergeKeep e cur (BitVec.twoPow 8 i) &&& ~~~BitVec.twoPow 8 i = e :=
  (mergeKeep_and (BitVec.and_not_self _) e cur).trans (and_not_twoPow_of_getLsbD he)

theorem mergeKeep_bcdEnc_twoPow {v : Byte} {i : Nat} (hi : i < 8) (h : v.toNat / 10 * 16 + v.toNat % 10 < 2 ^ i)
    (cur : Byte) :
    (mergeKeep (bcdEnc v) cur (BitVec.twoPow 8 i)).getLsbD i = cur.getLsbD i ∧
      mergeKeep (bcdEnc v) cur (BitVec.twoPow 8 i) &&& ~~~BitVec.twoPow 8 i = bcdByte v := by
  have hclear := getLsbD_bcdEnc_of_lt h
  exact ⟨getLsbD_mergeKeep_twoPow hi hclear cur, (mergeKeep_twoPow_and_not hclear cur).trans (bcdEnc_eq_bcdByte v)⟩

/-- R166 for SECONDS: the digits of a value up to 59 are below bit 7. -/
theorem mergeKeep_bcdEnc_bit7 {v : Byte} (hv : v.toNat ≤ 59) (cur : Byte) :
    (mergeKeep (bcdEnc v) cur 0x80).getLsbD 7 = cur.getLsbD 7 ∧
      mergeKeep (bcdEnc v) cur 0x80 &&& 0x7F = bcdByte v :=
  mergeKeep_bcdEnc_twoPow (i := 7) (by decide) (by omega) cur

/-- R166 for HOURS and ALARM_HOURS: the digits of a value up to 23 are below bit 6. -/
theorem mergeKeep_bcdEnc_bit6 {v : Byte} (hv : v.toNat ≤ 23) (cur : Byte) :
    (mergeKeep (bcdEnc v) cur 0x40).getLsbD 6 = cur.getLsbD 6 ∧
      mergeKeep (bcdEnc v) cur 0x40 &&& 0xBF = bcdByte v :=
  mergeKeep_bcdEnc_twoPow (i := 6) (by decide) (by omega) cur

/-! ### Ranges -/

theorem inRange_zero_iff {hi v : Byte} : inRange 0 hi v = true ↔ v.toNat ≤ hi.toNat :=
  inRange_iff.trans (and_iff_right (Nat.zero_le _))

end Sys2Proof.Machine

namespace Sys2Proof.Claims

open Sys2Proof.Machine

/-- Settles O8: the formula, and the digits in their nibbles. -/
theorem bcdEncodeFormula : Obligations.BcdEncodeFormula :=
  ⟨toNat_bcdEnc, fun v _ => bcdEnc_eq_bcdByte v⟩

/-- Settles O9: the formula, and the mask each field's decoding uses. -/
theorem bcdDecodeFormula : Obligations.BcdDecodeFormula := by
  have h7F : ∀ f ∈ [Field.seconds, .minutes, .alarmSeconds, .alarmMinutes], f.kind = .bcd ∧ f.digitMask = 0x7F := by
    decide
  have h3F : ∀ f ∈ [Field.hours, .alarmHours], f.kind = .bcd ∧ f.digitMask = 0x3F := by decide
  have hFF : ∀ f ∈ [Field.dayOfMonth, .month, .year], f.kind = .bcd ∧ f.digitMask = 0xFF := by decide
  exact ⟨toNat_bcdDec, fun f hf => ofByte_eq_bcdDec (h7F f hf), fun f hf => ofByte_eq_bcdDec (h3F f hf),
    fun f hf => ofByte_eq_bcdDec (hFF f hf), fun _ => rfl⟩

/-- Settles O10: a merge does not show under the digit mask, so each law is the round trip of a field with that mask and
that upper end. -/
theorem bcdRoundTrips : Obligations.BcdRoundTrips := by
  refine ⟨fun v hv => ofByte_toByte .seconds hv, fun v cur hv => ⟨?_, ?_⟩, fun v cur hv => ⟨?_, ?_⟩,
    fun v hv => ofByte_toByte .year hv⟩
  · exact (bcdDec_mergeKeep (by decide) (bcdEnc v) cur).trans (ofByte_toByte .hours hv)
  · exact (mergeKeep_bcdEnc_bit6 hv cur).left
  · exact (bcdDec_mergeKeep (by decide) (bcdEnc v) cur).trans (ofByte_toByte .seconds hv)
  · exact (mergeKeep_bcdEnc_bit7 hv cur).left

/-- Settles O38: the control bit is above the digits of every value in range. -/
theorem keptBitsAreThoseRead : Obligations.KeptBitsAreThoseRead :=
  ⟨fun _ cur hv => mergeKeep_bcdEnc_bit7 hv cur, fun _ cur hv => mergeKeep_bcdEnc_bit6 hv cur⟩

/-- Settles O40: the bounds of each field in plain numbers. -/
theorem fieldRanges : Obligations.FieldRanges := fun _ =>
  ⟨inRange_zero_iff, inRange_zero_iff, inRange_zero_iff, inRange_iff, inRange_iff, inRange_iff, inRange_zero_iff,
    inRange_zero_iff, inRange_zero_iff, inRange_zero_iff⟩

end Sys2Proof.Claims
end

section
/-! The ten getters (spec/42_rtc_getters.md R180 to R191; obligations O31 to O34 and O46): one read transaction of the
field's register, whose byte is decoded. What each answers comes from the codec's live read (`regRead_live`), what each
leaves alone from the frame of the read in every environment (`regRead_frame`). -/

namespace Sys2Proof.Machine

open Sys2Proof.Claims (Responded GetsField SurroundingsKept)

/-! ### The decoding written out (R182 to R191) -/

/-- Ones and tens are two ranges of the digit mask, each of which can be masked by itself (spec/41_bcd_codec.md R163). -/
theorem bcdDec_eq_of_masks {m tens : Byte} (hones : m &&& 0x0F = 0x0F) (htens : m >>> 4 = tens >>> 4) (b : Byte) :
    bcdDec b m = (b &&& 0x0F) + ((b &&& tens) >>> 4) * 10 := by
  have hb : b &&& m &&& 0x0F = b &&& 0x0F := by rw [BitVec.and_assoc, hones]
  have hb' : (b &&& m) >>> 4 = (b &&& tens) >>> 4 := by simp only [BitVec.ushiftRight_and_distrib, htens]
  exact congrArg₂ (fun ones tens => ones + tens * 10) hb hb'

theorem bcdDec_7F (b : Byte) : bcdDec b 0x7F = (b &&& 0x0F) + ((b &&& 0x70) >>> 4) * 10 :=
  bcdDec_eq_of_masks (by decide) (by decide) b

theorem bcdDec_3F (b : Byte) : bcdDec b 0x3F = (b &&& 0x0F) + ((b &&& 0x30) >>> 4) * 10 :=
  bcdDec_eq_of_masks (by decide) (by decide) b

theorem bcdDec_FF (b : Byte) : bcdDec b 0xFF = (b &&& 0x0F) + (b >>> 4) * 10 := by
  have hb : b &&& 0xFF = b := BitVec.and_allOnes
  rw [bcdDec_eq_of_masks (tens := 0xFF) (by decide) rfl, hb]

/-! ### What a getter answers -/

/-- A getter in a live environment (R180): its field's register is read once and the byte decoded. -/
theorem getter_getsField (f : Field) {decoded : Byte → Byte} (hdecoded : ∀ b, f.ofByte b = decoded b) :
    GetsField (Instr.getter f) f.register decoded := by
  intro s hs hlive
  obtain ⟨t, ht, htrace, -, hff, -, he, hl, hr, -⟩ :=
    regRead_live .getRd Config.rtcDevAddr f.register (latchN (Instr.getter f).opcode s).clearStatus hlive
  refine ⟨t.respond (f.ofByte (s.readHere Config.rtcDevAddr f.register).byte), ?_, responded_respond he hl hr _, htrace,
    hdecoded _, respond_status hff _⟩
  rw [exec_getter, getCommand, command_ready hs, memRead, ht]
  rfl

/-- A read that fails delivers the sentinel (spec/40_bus_engine.md R141). -/
theorem readOutcome_byte_of_failed (d : DevAddr) (r : Byte) (limit : Nat) (ack : Nat → Ack) (rx : Option (Nat × Byte)) :
    (readOutcome d r limit ack rx).status ≠ .ok → (readOutcome d r limit ack rx).byte = 0 :=
  readOutcome_cases (I := fun o => o.status ≠ .ok → o.byte = 0) d r limit ack rx (fun _ => rfl) (fun _ => rfl)
    (fun _ => rfl) (fun _ => rfl) fun _ _ hfailed => absurd rfl hfailed

/-- The codes of a transaction's statuses are 0 to 2 (spec/60_exceptions.md R231). -/
theorem TStatus.status_code_le (st : TStatus) : st.status.code.toNat ≤ 2 := by
  cases st <;> decide

theorem TStatus.status_code_ne_zero {st : TStatus} (h : st ≠ .ok) : st.status.code ≠ 0 := by
  cases st with
  | ok => exact absurd rfl h
  | nack | timeout => decide

/-! ### What a getter leaves unchanged -/

/-- The latches a getter has no use for: it has no operand and no payload, and keeps no byte. -/
structure LatchesKept (s t : State) : Prop where
  dev : t.dev = s.dev
  reg : t.reg = s.reg
  wdata : t.wdata = s.wdata
  tWdata : t.tWdata = s.tWdata
  tmp : t.tmp = s.tmp

section
variable {op : BitVec 6} {r : Byte} {decoded : Byte → Byte} {s t : State}

theorem getCommand_surroundingsKept (h : getCommand op r decoded s = .next t) : SurroundingsKept s t := by
  refine command_relates h (surroundingsKept_refl s) ?_
  have hkept := (memRead_piece .getRd r (latchN op s).clearStatus).close_surroundingsKept decoded
  exact { hkept with }

theorem getCommand_latchesKept (h : getCommand op r decoded s = .next t) : LatchesKept s t :=
  command_relates h ⟨rfl, rfl, rfl, rfl, rfl⟩ <|
    (regRead_frame .getRd Config.rtcDevAddr r (latchN op s).clearStatus).close (R := LatchesKept s)
      (fun _ _ ⟨hf, htwdata, htmp, _⟩ => ⟨hf.dev, hf.reg, hf.wdata, htwdata, htmp⟩)
      fun _ ⟨hf, htwdata, htmp, _⟩ => ⟨hf.dev, hf.reg, hf.wdata, htwdata, htmp⟩

end

end Sys2Proof.Machine

namespace Sys2Proof.Claims

open Sys2Proof.Machine

/-- Settles O31: the general getter, with the masks 0x7F and 0x3F written out. -/
theorem timeGetterResults : Obligations.TimeGetterResults :=
  ⟨getter_getsField .seconds bcdDec_7F, getter_getsField .minutes bcdDec_7F, getter_getsField .hours bcdDec_3F⟩

/-- Settles O32: the general getter, raw and with the mask 0xFF. -/
theorem dateGetterResults : Obligations.DateGetterResults :=
  ⟨getter_getsField .dayOfWeek fun _ => rfl, getter_getsField .dayOfMonth bcdDec_FF, getter_getsField .month bcdDec_FF,
    getter_getsField .year bcdDec_FF⟩

/-- Settles O33: the general getter, with the masks of the time fields. -/
theorem alarmGetterResults : Obligations.AlarmGetterResults :=
  ⟨getter_getsField .alarmSeconds bcdDec_7F, getter_getsField .alarmMinutes bcdDec_7F,
    getter_getsField .alarmHours bcdDec_3F⟩

/-- Settles O34: a failed read delivers the sentinel, which every field decodes to 0, and its status is a transaction's. -/
theorem failedGetterIsZero : Obligations.FailedGetterIsZero := by
  intro f s hs hlive
  obtain ⟨t, ht, -, -, hdata, hstatus⟩ := getter_getsField f (fun _ => rfl) s hs hlive
  refine ⟨t, ht, hstatus ▸ TStatus.status_code_le _, fun hfailed => ⟨?_, hstatus, ?_⟩⟩
  · have hbyte : (s.readHere Config.rtcDevAddr f.register).byte = 0 := readOutcome_byte_of_failed _ _ _ _ _ hfailed
    rw [hdata, hbyte, ofByte_zero]
  · exact hstatus ▸ TStatus.status_code_ne_zero hfailed

/-- Settles O46: the frame of the codec's read, around it the latching of the opcode and the response. -/
theorem getterFrame : Obligations.GetterFrame := by
  intro f s t h
  rw [exec_getter] at h
  obtain ⟨hdev, hreg, hwdata, htwdata, htmp⟩ := getCommand_latchesKept h
  exact ⟨getCommand_surroundingsKept h, getCommand_responseKept h, hdev, hreg, hwdata, htwdata, htmp,
    getCommand_registersKept h⟩

end Sys2Proof.Claims
end

section
/-! The ten setters (spec/43_rtc_setters.md R200 to R214; obligations O35 to O37, O39, O47 and O48): an invalid value is
answered at once, a valid one is written in one transaction, after one read where a bit of the register is kept. What
each answers comes from the codec's live write and read (`regWrite_live`, `regRead_live`), what each leaves alone from their
frames in every environment (`regWrite_frame`, `regRead_frame`). -/

namespace Sys2Proof.Machine

open Sys2Proof.Claims (Responded SetsPlain SetsKeeping SurroundingsKept ReceiveSideKept rtcLocation bcdByte)

/-! ### The byte a setter encodes (R200) -/

theorem toByte_eq_bcdByte {f : Field} (hf : f.kind = .bcd) (v : Byte) : f.toByte v = bcdByte v := by
  simp only [Field.toByte, hf, bcdEnc_eq_bcdByte]

/-! ### An invalid value (R201) -/

/-- What every setter answers to an invalid value. -/
theorem exec_setter_invalid {f : Field} {v : Byte} {s : State} (hs : s.Ready) (hv : ¬ (f.lo ≤ v ∧ v ≤ f.hi)) :
    exec (Instr.setter f v) s = .next ((latchV (Instr.setter f v).opcode v s).reject .invalid) := by
  have hrange := mt inRange_iff.1 hv
  by_cases hk : f.keep = 0
  · rw [exec_setter_plain hk, setPlain, command_ready hs, if_neg hrange]
  · rw [exec_setter_keeping hk, setKeeping, command_ready hs, if_neg hrange]

/-! ### One write (R202) -/

/-- The first transaction of a command takes the answers from the next on. -/
theorem State.writeAfter_zero (s : State) (d : DevAddr) (r v : Byte) :
    s.writeAfter 0 d r v = writeOutcome d r v s.nextAck := by
  simp only [State.writeAfter, Nat.zero_add]

/-- A register after a write transaction: the byte written if it was acknowledged, else what it held before. -/
theorem Memory.read_stored (stored : Bool) (m : Memory) (d : DevAddr) (r v : Byte) :
    (if stored then m.write (location d r) v else m).read (location d r) =
      if stored then some v else m.read (location d r) := by
  cases stored with
  | true => exact Memory.read_write_location m d r v
  | false => rfl

/-- A plain-write setter in a live environment: its value is encoded and written once to its field's register. -/
theorem setter_setsPlain {f : Field} {encoded : Byte → Byte} (hk : f.keep = 0)
    (hencoded : ∀ v, f.toByte v = encoded v) :
    SetsPlain (Instr.setter f) f.register f.lo.toNat f.hi.toNat encoded := by
  intro v s hlo hhi hs hlive
  obtain ⟨t, ht, htrace, hff, hm, he, hl, hr, -⟩ := regWrite_live .setWr Config.rtcDevAddr f.register (f.toByte v)
    (latchV (Instr.setter f v).opcode v s).clearStatus hlive
  rw [← hencoded, State.writeAfter_zero]
  refine ⟨t.respond 0, ?_, responded_respond he hl hr 0, htrace, rfl, respond_status hff 0, ?_⟩
  · rw [exec_setter_plain hk, setPlain, command_ready hs, if_pos (inRange_iff.2 ⟨hlo, hhi⟩), memWrite, ht]
    rfl
  · rw [State.respond_mem, hm]
    exact Memory.read_stored ..

/-! ### One read, then one write (R203) -/

theorem firstOf_eq_ite (earlier now : TStatus) : firstOf earlier now = if earlier = .ok then now else earlier := by
  cases earlier <;> rfl

/-- A read by the codec whose byte is kept in `tmp`, and a write of a byte made from it, in a live environment: the two
outcomes one after the other, the write's in the environment the read leaves. -/
theorem readModifyWrite_live (p q : CodecState) (d : DevAddr) (r : Byte) (merged : Byte → Byte) {s : State}
    (hlive : s.LiveFor 13) :
    let rd := s.readHere d r
    let wr := s.writeAfter rd.sent d r (merged rd.byte)
    ∃ t, ((regRead p d r s).next fun cur s => regWrite q d r (merged cur) (s.keepTmp cur)) = .ended () t ∧
      t.trace = s.trace ++ rd.events ++ wr.events ∧ t.tmp = rd.byte ∧
      t.firstFail = firstOf (firstOf s.firstFail rd.status) wr.status ∧
      t.mem.read (location d r) =
        (if wr.stored then some (merged rd.byte) else (s.afterRead d r).nextMem.read (location d r)) ∧
      t.est = .idle ∧ t.line = .idle ∧ t.lReq = .none := by
  intro rd wr
  obtain ⟨u, hu, hutrace, -, huff, -, -, -, -, -, hudone, -, hpiece, -⟩ := regRead_live p d r s (hlive.mono (by omega))
  have henv : SameEnvironment (s.afterRead d r) u := by
    have hread := regRead_environment (phase := p) (d := d) (r := r) (hlive.mono (by omega))
    rwa [hu] at hread
  obtain ⟨t, ht, htrace, hff, hm, he, hl, hr, -, -, -, -, -, htmp⟩ :=
    regWrite_live q d r (merged rd.byte) (u.keepTmp rd.byte)
      (hlive.later hpiece.doneScript hpiece.doneSeen (Nat.add_le_add_right hudone 5))
  have hwr : writeOutcome d r (merged rd.byte) (u.keepTmp rd.byte).nextAck = wr := by
    calc writeOutcome d r (merged rd.byte) (u.keepTmp rd.byte).nextAck
      _ = u.writeAfter 0 d r (merged rd.byte) := (State.writeAfter_zero ..).symm
      _ = (s.afterRead d r).writeAfter 0 d r (merged rd.byte) := henv.writeAfter ..
      _ = wr := State.writeAfter_afterRead ..
  have hmem : (u.keepTmp rd.byte).nextMem = (s.afterRead d r).nextMem := henv.nextMem
  rw [hwr] at htrace hff hm
  refine ⟨t, by rw [hu, Run.next_ended, ht], ?_, htmp, ?_, ?_, he, hl, hr⟩
  · rw [htrace, State.keepTmp_trace, hutrace]
  · rw [hff, State.keepTmp_firstFail, huff]
  · rw [hm, hmem, Memory.read_stored]

/-- A read-modify-write setter in a live environment: its field's register is read once, and the digits with the kept
bits of the byte read are written back. -/
theorem setter_setsKeeping {f : Field} (hk : f.keep ≠ 0) (hkind : f.kind = .bcd) (hzero : f.lo = 0) :
    SetsKeeping (Instr.setter f) f.register f.hi.toNat f.keep := by
  intro v s hhi hs hlive rd payload wr
  have hrange : inRange f.lo f.hi v = true := by rwa [hzero, inRange_zero_iff]
  obtain ⟨t, ht, htrace, htmp, hff, hm, he, hl, hr⟩ := readModifyWrite_live .setRd .setWr Config.rtcDevAddr
    f.register (fun cur => mergeKeep (f.toByte v) cur f.keep) (s := (latchV (Instr.setter f v).opcode v s).clearStatus) hlive
  rw [toByte_eq_bcdByte hkind] at ht htrace hff hm
  refine ⟨t.respond 0, ?_, responded_respond he hl hr 0, htrace, htmp, rfl, ?_, hm⟩
  · rw [exec_setter_keeping hk, setKeeping, command_ready hs, if_pos hrange, toByte_eq_bcdByte hkind]
    simp only [memRead, memWrite, ht, Run.close_ended]
  · rw [← firstOf_eq_ite]
    exact respond_status hff 0

/-! ### What a setter leaves unchanged -/

/-- What both kinds of setter leave alone besides registers and response: a setter has no address operands. -/
structure SetterKept (s t : State) : Prop extends SurroundingsKept s t where
  dev : t.dev = s.dev
  reg : t.reg = s.reg

theorem SetterKept.refl (s : State) : SetterKept s s := ⟨surroundingsKept_refl s, rfl, rfl⟩

/-- A valid value's transactions and response, or an invalid value's response. -/
theorem Run.Ends.setterBody_kept {n : Nat} {S : List Nat} {s : State} {r : Run Unit}
    (h : r.Ends (fun _ t => PieceFrame n S s.clearStatus t) (PieceFrame n S s.clearStatus)) (valid : Bool) :
    SetterKept s (if valid then r.close fun _ t => t.respond 0 else s.reject .invalid) := by
  cases valid with
  | true =>
    exact h.close (R := SetterKept s) (fun _ _ ht => { ht.surroundingsKept with dev := ht.dev, reg := ht.reg })
      fun _ ht => { ht.surroundingsKept with dev := ht.dev, reg := ht.reg }
  | false => exact { SetterKept.refl s with }

section
variable {op : BitVec 6} {r lo hi keep encoded v : Byte} {s t : State}

theorem setPlain_kept (h : setPlain op r lo hi encoded v s = .next t) : SetterKept s t := by
  refine command_relates h (SetterKept.refl s) ?_
  have hkept := (memWrite_piece .setWr r encoded (latchV op v s).clearStatus).setterBody_kept (inRange lo hi v)
  exact { hkept with }

theorem setKeeping_kept (h : setKeeping op r lo hi keep encoded v s = .next t) : SetterKept s t := by
  refine command_relates h (SetterKept.refl s) ?_
  have hkept := ((memRead_piece .setRd r (latchV op v s).clearStatus).next_piece fun cur w =>
    (memWrite_piece .setWr r (mergeKeep encoded cur keep) (w.keepTmp cur)).of_keepTmp).setterBody_kept (inRange lo hi v)
  exact { hkept with }

/-- A plain write receives nothing and keeps no byte. -/
theorem setPlain_receiveSideKept (h : setPlain op r lo hi encoded v s = .next t) :
    ReceiveSideKept s t ∧ t.tmp = s.tmp := by
  refine command_relates (R := fun s t => ReceiveSideKept s t ∧ t.tmp = s.tmp) h ⟨⟨rfl, rfl, rfl⟩, rfl⟩ ?_
  split
  · exact (regWrite_frame .setWr Config.rtcDevAddr r encoded (latchV op v s).clearStatus).close
      (R := fun t => ReceiveSideKept s t ∧ t.tmp = s.tmp)
      (fun _ _ ⟨_, hrx, htmp, _⟩ => ⟨⟨hrx.rbyte, hrx.cnt, hrx.rxSeen⟩, htmp⟩)
      fun _ ⟨_, hrx, htmp, _⟩ => ⟨⟨hrx.rbyte, hrx.cnt, hrx.rxSeen⟩, htmp⟩
  · exact ⟨⟨rfl, rfl, rfl⟩, rfl⟩

end

end Sys2Proof.Machine

namespace Sys2Proof.Claims

open Sys2Proof.Machine

/-- Settles O35: the general plain-write setter, its encoding in plain numbers. -/
theorem plainSetterResults : Obligations.PlainSetterResults :=
  ⟨setter_setsPlain (f := .minutes) rfl (toByte_eq_bcdByte rfl), setter_setsPlain (f := .dayOfWeek) rfl fun _ => rfl,
    setter_setsPlain (f := .dayOfMonth) rfl (toByte_eq_bcdByte rfl),
    setter_setsPlain (f := .month) rfl (toByte_eq_bcdByte rfl),
    setter_setsPlain (f := .year) rfl (toByte_eq_bcdByte rfl)⟩

/-- Settles O36: the general plain-write setter; the digits of a value up to 59 are below bit 7. -/
theorem alarmPlainSetterResults : Obligations.AlarmPlainSetterResults := by
  refine ⟨setter_setsPlain (f := .alarmSeconds) rfl (toByte_eq_bcdByte rfl),
    setter_setsPlain (f := .alarmMinutes) rfl (toByte_eq_bcdByte rfl), fun v hv => ?_⟩
  rw [← bcdEnc_eq_bcdByte]
  exact getLsbD_bcdEnc_of_lt (by omega)

/-- Settles O37: the general read-modify-write setter, with each field's keep mask. -/
theorem keepingSetterResults : Obligations.KeepingSetterResults :=
  ⟨setter_setsKeeping (f := .seconds) (by decide) rfl rfl, setter_setsKeeping (f := .hours) (by decide) rfl rfl,
    setter_setsKeeping (f := .alarmHours) (by decide) rfl rfl⟩

/-- Settles O39: the rejected state, written out. -/
theorem invalidValueDoesNothing : Obligations.InvalidValueDoesNothing := fun _ _ _ hs hv => exec_setter_invalid hs hv

/-- Settles O47: the frame of the codec's write, around it the latching and the response. -/
theorem plainSetterFrame : Obligations.PlainSetterFrame := by
  intro f v s t hk h
  rw [exec_setter_plain hk] at h
  have hkept := setPlain_kept h
  obtain ⟨hreceive, htmp⟩ := setPlain_receiveSideKept h
  exact ⟨hkept.toSurroundingsKept, setPlain_responseKept h, hreceive, hkept.dev, hkept.reg, htmp,
    setPlain_registersKept h⟩

/-- Settles O48: the frames of the codec's read and write, around them the latching and the response. -/
theorem keepingSetterFrame : Obligations.KeepingSetterFrame := by
  intro f v s t hk h
  rw [exec_setter_keeping hk] at h
  have hkept := setKeeping_kept h
  exact ⟨hkept.toSurroundingsKept, setKeeping_responseKept h, hkept.dev, hkept.reg, setKeeping_registersKept h⟩

end Sys2Proof.Claims
end

section
/-! RTC_INIT (spec/44_rtc_init.md R220 to R224; obligations O41 to O43 and O49). Both halves of the sequence are one shape:
read a register, and if a bit of the byte read is 1 write the byte back with that bit cleared (`correctRegister`). What that
shape does in a live environment is said once, from the codec's live read and write; the command is two of them, and a
working device and an absent one are two environments of it. -/

namespace Sys2Proof.Machine

open Sys2Proof.Claims (Responded TransactionShape SurroundingsKept rtcLocation readEvents writeEvents
  firstFailure afterInitSeconds)

/-! ### Live pieces of a command, one after the other -/

/-- How a piece of a command that starts in `s` ends in `t` when its at most `n` requests are completed: its events, the
statuses of its transactions in order, the bus released, and the environment as `e` describes it. -/
structure LivePiece (n : Nat) (es : List Event) (sts : List TStatus) (e s t : State) : Prop where
  trace : t.trace = s.trace ++ es
  firstFail : t.firstFail = sts.foldl firstOf s.firstFail
  environment : SameEnvironment e t
  doneScript : t.doneScript = s.doneScript
  requests : s.doneSeen ≤ t.doneSeen ∧ t.doneSeen ≤ s.doneSeen + n
  est : t.est = .idle
  line : t.line = .idle
  lReq : t.lReq = .none

section
variable {m n : Nat} {es fs : List Event} {sts sts' : List TStatus} {e e' s t u : State}

theorem LivePiece.trans (h : LivePiece m es sts e s t) (k : LivePiece n fs sts' e' t u) :
    LivePiece (m + n) (es ++ fs) (sts ++ sts') e' s u :=
  { k with
    trace := by rw [k.trace, h.trace, List.append_assoc]
    firstFail := by rw [k.firstFail, h.firstFail, List.foldl_append]
    doneScript := k.doneScript.trans h.doneScript
    requests := by have := h.requests; have := k.requests; omega }

theorem LivePiece.mono (h : LivePiece m es sts e s t) (hmn : m ≤ n) : LivePiece n es sts e s t :=
  { h with requests := ⟨h.requests.1, h.requests.2.trans (by omega)⟩ }

theorem LivePiece.keepTmp (h : LivePiece n es sts e s t) (b : Byte) : LivePiece n es sts e s (t.keepTmp b) :=
  { h with environment := { h.environment with } }

theorem LivePiece.enter (h : LivePiece n es sts e s t) (c : CodecState) : LivePiece n es sts e s (t.enter c) :=
  { h with environment := { h.environment with } }

/-- What is left of a live stretch after a piece. -/
theorem LivePiece.live (h : LivePiece m es sts e s t) (hlive : s.LiveFor (m + n)) : t.LiveFor n :=
  hlive.later h.doneScript h.requests.1 (by have := h.requests.2; omega)

end

theorem memRead_livePiece (phase : CodecState) (r : Byte) {e s : State} (he : SameEnvironment e s)
    (hlive : s.LiveFor 8) :
    let rd := e.readHere Config.rtcDevAddr r
    ∃ t, memRead phase r s = .ended rd.byte t ∧
      LivePiece 8 rd.events [rd.status] (e.afterRead Config.rtcDevAddr r) s t := by
  obtain ⟨t, ht, htrace, -, hff, -, hest, hline, hreq, -, hdone, -, hframe, -⟩ :=
    regRead_live phase Config.rtcDevAddr r s hlive
  have henv := regRead_environment (phase := phase) (d := Config.rtcDevAddr) (r := r) hlive
  rw [ht] at henv
  rw [he.readHere] at ht htrace hff
  exact ⟨t, ht, htrace, hff, (he.afterRead ..).trans henv, hframe.doneScript, ⟨hframe.doneSeen, hdone⟩, hest, hline,
    hreq⟩

theorem memWrite_livePiece (phase : CodecState) (r v : Byte) {e s : State} (he : SameEnvironment e s)
    (hlive : s.LiveFor 5) :
    let wr := e.writeAfter 0 Config.rtcDevAddr r v
    ∃ t, memWrite phase r v s = .ended () t ∧
      LivePiece 5 wr.events [wr.status] (e.afterWrite Config.rtcDevAddr r v) s t ∧ t.tmp = s.tmp := by
  obtain ⟨t, ht, htrace, hff, -, hest, hline, hreq, -, hdone, -, hframe, -, htmp⟩ :=
    regWrite_live phase Config.rtcDevAddr r v s hlive
  have henv := regWrite_environment (phase := phase) (d := Config.rtcDevAddr) (r := r) (v := v) hlive
  rw [ht] at henv
  rw [← State.writeAfter_zero, he.writeAfter] at htrace hff
  exact ⟨t, ht, ⟨htrace, hff, (he.afterWrite ..).trans henv, hframe.doneScript, ⟨hframe.doneSeen, hdone⟩, hest,
    hline, hreq⟩, htmp⟩

/-! ### One register corrected (R220, R223) -/

/-- Read register `r`; if bit `bit` of the byte is 1, write the byte back masked and settle in another codec state. -/
def correctRegister (rd wr : CodecState) (settle : CodecState → CodecState) (r : Byte) (bit : Nat) (mask : Byte)
    (s : State) : Run Unit :=
  (memRead rd r s).next fun b s =>
  if b.getLsbD bit then
    (memWrite wr r (b &&& mask) (s.keepTmp b)).next fun _ s => .ended () (s.enter (settle s.cst))
  else .ended () (s.keepTmp b)

theorem initSeconds_eq_correctRegister (s : State) :
    initSeconds s = correctRegister .initRdSec .initWrSec (fun _ => .initSettle) 0x00 7 0x7F s := rfl

theorem Run.next_ended_unit (r : Run Unit) : (r.next fun _ s => .ended () s) = r := by
  cases r <;> rfl

theorem initHours_eq_correctRegister (s : State) :
    initHours s = correctRegister .initRdHr .initWrHr id 0x02 6 0xBF s :=
  congrArg (memRead .initRdHr 0x02 s).next <| funext₂ fun hr u => by
    split
    · exact (Run.next_ended_unit _).symm
    · rfl

/-- The byte the correction of register `r` finds in the environment `e`. -/
def State.found (e : State) (r : Byte) : Byte := (e.readHere Config.rtcDevAddr r).byte

/-- The corrective write of register `r`, in the environment its read leaves. -/
def State.correction (e : State) (r mask : Byte) : Outcome :=
  (e.afterRead Config.rtcDevAddr r).writeAfter 0 Config.rtcDevAddr r (e.found r &&& mask)

/-- The events of correcting register `r` in the environment `e`. -/
def State.correctionEvents (e : State) (r : Byte) (bit : Nat) (mask : Byte) : List Event :=
  (e.readHere Config.rtcDevAddr r).events ++ if (e.found r).getLsbD bit then (e.correction r mask).events else []

/-- The statuses of its read and of its write, OK where there is none. -/
def State.correctionStatuses (e : State) (r : Byte) (bit : Nat) (mask : Byte) : List TStatus :=
  [(e.readHere Config.rtcDevAddr r).status, if (e.found r).getLsbD bit then (e.correction r mask).status else .ok]

/-- The environment it leaves. -/
def State.afterCorrection (e : State) (r : Byte) (bit : Nat) (mask : Byte) : State :=
  if (e.found r).getLsbD bit then
    (e.afterRead Config.rtcDevAddr r).afterWrite Config.rtcDevAddr r (e.found r &&& mask)
  else e.afterRead Config.rtcDevAddr r

theorem afterInitSeconds_eq_afterCorrection (s : State) : afterInitSeconds s = s.afterCorrection 0x00 7 0x7F := rfl

theorem State.afterCorrection_pollLimit (e : State) (r : Byte) (bit : Nat) (mask : Byte) :
    (e.afterCorrection r bit mask).pollLimit = e.pollLimit := by
  unfold State.afterCorrection
  split <;> rfl

theorem correctRegister_livePiece (rd wr : CodecState) (settle : CodecState → CodecState) (r : Byte) (bit : Nat)
    (mask : Byte) {e s : State} (he : SameEnvironment e s) (hlive : s.LiveFor 13) :
    ∃ t, correctRegister rd wr settle r bit mask s = .ended () t ∧
      LivePiece 13 (e.correctionEvents r bit mask) (e.correctionStatuses r bit mask) (e.afterCorrection r bit mask) s t ∧
      t.tmp = e.found r := by
  obtain ⟨u, hu, hread⟩ := memRead_livePiece rd r he (hlive.mono (by omega))
  replace hread := hread.keepTmp (e.found r)
  simp only [correctRegister, State.correctionEvents, State.correctionStatuses, State.afterCorrection, hu,
    Run.next_ended]
  by_cases hbit : (e.found r).getLsbD bit = true
  · obtain ⟨t, ht, hwrite, htmp⟩ :=
      memWrite_livePiece wr r (e.found r &&& mask) hread.environment (hread.live hlive)
    refine ⟨t.enter (settle t.cst), ?_, ?_, htmp⟩
    · rw [← State.found, if_pos hbit, ht, Run.next_ended]
    · simp only [if_pos hbit]
      exact (hread.trans hwrite).enter _
  · refine ⟨u.keepTmp (e.found r), ?_, ?_, rfl⟩
    · rw [← State.found, if_neg hbit]
    · simp only [if_neg hbit, List.append_nil]
      exact { hread.mono (by omega) with firstFail := by rw [hread.firstFail]; exact (firstOf_ok _).symm }

/-- A correction is one transaction or two, each with its own stop (R70). -/
theorem correctionEvents_count (e : State) (r : Byte) (bit : Nat) (mask : Byte) :
    1 ≤ (e.correctionEvents r bit mask).count .start ∧ (e.correctionEvents r bit mask).count .start ≤ 2 ∧
      (e.correctionEvents r bit mask).count .stop = (e.correctionEvents r bit mask).count .start := by
  have hread : TransactionShape .read (e.readHere Config.rtcDevAddr r).events := readOutcome_shape ..
  have hwrite : TransactionShape .write (e.correction r mask).events := writeOutcome_shape ..
  simp only [State.correctionEvents, List.count_append, hread.oneStart, hread.oneStop]
  split
  · simp [hwrite.oneStart, hwrite.oneStop]
  · simp

/-! ### The command (R220, R221) -/

/-- The status of a command that goes on after a failure: an earlier failure stays, else the first of the list. -/
theorem foldl_firstOf (sts : List TStatus) (earlier : TStatus) :
    sts.foldl firstOf earlier = firstOf earlier (firstFailure sts) := by
  induction sts generalizing earlier with
  | nil => exact (firstOf_ok earlier).symm
  | cons st sts ih =>
    rw [List.foldl_cons, ih]
    cases earlier <;> cases st <;> rfl

/-- The sentinel byte of a failed read (spec/40_bus_engine.md R141) has no bit set, so it causes no write. -/
theorem readHere_bit_of_failed {e : State} {d : DevAddr} {r : Byte} (h : (e.readHere d r).status ≠ .ok) (bit : Nat) :
    (e.readHere d r).byte.getLsbD bit = false := by
  have hbyte : (e.readHere d r).byte = 0 := readOutcome_byte_of_failed _ _ _ _ _ h
  rw [hbyte]
  exact BitVec.getLsbD_zero

/-- RTC_INIT in a live environment: register 0x00 is corrected, then register 0x02 in the environment that leaves. -/
theorem exec_rtcInit_live {s : State} (hs : s.Ready) (hlive : s.LiveFor 26) :
    ∃ t, exec .rtcInit s = .next t ∧ Responded t ∧ t.rspData = 0 ∧ t.tmp = (afterInitSeconds s).found 0x02 ∧
      t.trace = s.trace ++ (s.correctionEvents 0x00 7 0x7F ++ (afterInitSeconds s).correctionEvents 0x02 6 0xBF) ∧
      t.rspStatus = (firstFailure (s.correctionStatuses 0x00 7 0x7F ++
        (afterInitSeconds s).correctionStatuses 0x02 6 0xBF)).status.code ∧
      t.mem = ((afterInitSeconds s).afterCorrection 0x02 6 0xBF).mem := by
  have henv : SameEnvironment s (latchN 0x03 s).clearStatus := ⟨rfl, rfl, rfl, rfl, rfl, rfl, rfl, rfl⟩
  obtain ⟨u, hu, hsec, -⟩ :=
    correctRegister_livePiece .initRdSec .initWrSec (fun _ => .initSettle) 0x00 7 0x7F henv (hlive.mono (by omega))
  rw [← afterInitSeconds_eq_afterCorrection] at hsec
  obtain ⟨t, ht, hhr, htmp⟩ :=
    correctRegister_livePiece .initRdHr .initWrHr id 0x02 6 0xBF hsec.environment (hsec.live hlive)
  have hboth := hsec.trans hhr
  refine ⟨t.respond 0, ?_, responded_respond hhr.est hhr.line hhr.lReq 0, rfl, htmp, hboth.trace,
    respond_status (hboth.firstFail.trans (foldl_firstOf _ _)) 0, hboth.environment.mem⟩
  rw [exec, execRtcInit, command_ready hs, initSeconds_eq_correctRegister, hu, Run.next_ended,
    initHours_eq_correctRegister, ht, Run.close_ended]

/-! ### A working device (R220) -/

/-- The next `n` transmissions are acknowledged. -/
def Acknowledges (n : Nat) (s : State) : Prop := ∀ j < n, s.nextAck j = .ack

theorem Acknowledges.mono {m n : Nat} {s : State} (h : Acknowledges n s) (hmn : m ≤ n) : Acknowledges m s :=
  fun j hj => h j (by omega)

theorem State.nextAck_afterRead (s : State) (d : DevAddr) (r : Byte) (j : Nat) :
    (s.afterRead d r).nextAck j = s.nextAck ((s.readHere d r).sent + j) := by
  simp [State.nextAck, Nat.add_assoc]

theorem State.nextAck_afterWrite (s : State) (d : DevAddr) (r v : Byte) (j : Nat) :
    (s.afterWrite d r v).nextAck j = s.nextAck ((s.writeAfter 0 d r v).sent + j) := by
  simp [State.nextAck, Nat.add_assoc]

theorem readOutcome_sent_le (d : DevAddr) (r : Byte) (limit : Nat) (ack : Nat → Ack) (rx : Option (Nat × Byte)) :
    (readOutcome d r limit ack rx).sent ≤ 3 :=
  readOutcome_cases (I := fun o => o.sent ≤ 3) d r limit ack rx (by simp) (by simp) (by simp) (by simp)
    fun _ _ => by simp

theorem writeOutcome_sent_le (d : DevAddr) (r v : Byte) (ack : Nat → Ack) : (writeOutcome d r v ack).sent ≤ 3 :=
  writeOutcome_cases (I := fun o => o.sent ≤ 3) d r v ack (by simp) (by simp) (by simp) (by simp)

theorem Acknowledges.afterRead {n : Nat} {s : State} (h : Acknowledges (3 + n) s) (d : DevAddr) (r : Byte) :
    Acknowledges n (s.afterRead d r) := by
  intro j hj
  have hsent : (s.readHere d r).sent ≤ 3 := readOutcome_sent_le ..
  rw [State.nextAck_afterRead]
  exact h _ (by omega)

theorem Acknowledges.afterWrite {n : Nat} {s : State} (h : Acknowledges (3 + n) s) (d : DevAddr) (r v : Byte) :
    Acknowledges n (s.afterWrite d r v) := by
  intro j hj
  have hsent : (s.writeAfter 0 d r v).sent ≤ 3 := writeOutcome_sent_le ..
  rw [State.nextAck_afterWrite]
  exact h _ (by omega)

theorem Acknowledges.afterCorrection {n : Nat} {s : State} (h : Acknowledges (6 + n) s) (r : Byte) (bit : Nat)
    (mask : Byte) : Acknowledges n (s.afterCorrection r bit mask) := by
  have hread := (h.mono (m := 3 + (3 + n)) (by omega)).afterRead Config.rtcDevAddr r
  unfold State.afterCorrection
  split
  · exact hread.afterWrite _ _ _
  · exact hread.mono (by omega)

section
variable {s : State} {r b : Byte} {k : Nat}

/-- The read of a working device (spec/40_bus_engine.md R143, last row). -/
theorem readHere_received (hack : Acknowledges 3 s) (hrx : s.nextRx Config.rtcDevAddr r = some (k, b))
    (hk : k ≤ s.pollLimit.toNat) : s.readHere Config.rtcDevAddr r = ⟨readEvents r b k, .ok, b, 3, false⟩ := by
  rw [State.readHere, hrx]
  exact readOutcome_received _ r _ (hack 0 (by omega)) (hack 1 (by omega)) (hack 2 (by omega)) hk

/-- The corrective write of a working device (R142, last row). -/
theorem correction_stored (hack : Acknowledges 6 s) (mask : Byte) :
    s.correction r mask = ⟨writeEvents r (s.found r &&& mask), .ok, 0, 3, true⟩ := by
  have hack' : Acknowledges 3 (s.afterRead Config.rtcDevAddr r) := Acknowledges.afterRead hack _ _
  rw [State.correction, State.writeAfter_zero]
  exact writeOutcome_stored _ r _ (hack' 0 (by omega)) (hack' 1 (by omega)) (hack' 2 (by omega))

/-- Correcting a register of a working device. -/
theorem correction_working (hack : Acknowledges 6 s) (hrx : s.nextRx Config.rtcDevAddr r = some (k, b))
    (hk : k ≤ s.pollLimit.toNat) (bit : Nat) (mask : Byte) :
    s.found r = b ∧ s.correctionStatuses r bit mask = [.ok, .ok] ∧
      s.correctionEvents r bit mask =
        readEvents r b k ++ (if b.getLsbD bit then writeEvents r (b &&& mask) else []) ∧
      (b.getLsbD bit = true →
        (s.afterCorrection r bit mask).mem.read (rtcLocation r) = some (b &&& mask)) := by
  have hread := readHere_received (hack.mono (by omega)) hrx hk
  have hfound : s.found r = b := by rw [State.found, hread]
  have hwrite := correction_stored (r := r) hack mask
  rw [hfound] at hwrite
  refine ⟨hfound, ?_, ?_, fun hbit => ?_⟩
  · simp only [State.correctionStatuses, hread, hwrite, ite_self]
  · simp only [State.correctionEvents, hfound, hread, hwrite]
  · have hstored := congrArg Outcome.stored hwrite
    rw [State.correction, hfound] at hstored
    rw [State.afterCorrection, hfound, if_pos hbit, State.afterWrite_mem, if_pos hstored]
    exact Memory.read_write_location ..

end

/-! ### The registers from one transaction to the next (spec/20_memory.md R65) -/

/-- What the chip leaves alone before some transactions it leaves alone before the later ones of them. -/
theorem not_chipTouches_later {s t : State} {m n a : Nat} (hscript : t.chipScript = s.chipScript)
    (hseen : t.chipSeen = s.chipSeen + m) (h : ¬ s.ChipTouches (m + n) a) : ¬ t.ChipTouches n a := by
  rintro ⟨j, hj, ha⟩
  refine h ⟨m + j, by omega, ?_⟩
  simpa only [State.chipAnswer, hscript, hseen, Nat.add_assoc] using ha

theorem read_afterRead {s : State} {a n : Nat} (d : DevAddr) (r : Byte) (hc : ¬ s.ChipTouches (1 + n) a) :
    (s.afterRead d r).mem.read a = s.mem.read a :=
  State.read_nextMem (by omega) hc

theorem read_afterWrite_other {s : State} {d : DevAddr} {r v : Byte} {a n : Nat} (ha : a ≠ location d r)
    (hc : ¬ s.ChipTouches (1 + n) a) : (s.afterWrite d r v).mem.read a = s.mem.read a := by
  rw [State.afterWrite_mem]
  split
  · rw [Memory.read_write_other _ _ (Ne.symm ha), State.read_nextMem (by omega) hc]
  · exact State.read_nextMem (by omega) hc

/-- A correction changes no register but its own and those the chip changes before its transactions. -/
theorem read_afterCorrection_other {s : State} {r : Byte} {a : Nat} (bit : Nat) (mask : Byte)
    (ha : a ≠ rtcLocation r) (hc : ¬ s.ChipTouches 2 a) :
    (s.afterCorrection r bit mask).mem.read a = s.mem.read a := by
  have hread : (s.afterRead Config.rtcDevAddr r).mem.read a = s.mem.read a := read_afterRead _ _ (n := 1) hc
  unfold State.afterCorrection
  split
  · have hc' : ¬ (s.afterRead Config.rtcDevAddr r).ChipTouches 1 a := not_chipTouches_later (s := s) (m := 1) rfl rfl hc
    rw [read_afterWrite_other (n := 0) ha hc', hread]
  · exact hread

theorem not_chipTouches_afterCorrection {s : State} {a n : Nat} (r : Byte) (bit : Nat) (mask : Byte)
    (hc : ¬ s.ChipTouches (2 + n) a) : ¬ (s.afterCorrection r bit mask).ChipTouches n a := by
  unfold State.afterCorrection
  split
  · exact not_chipTouches_later (s := s) (m := 2) rfl rfl hc
  · exact not_chipTouches_later (s := s) (m := 1) rfl rfl fun hc' => hc (hc'.mono (by omega))

/-! ### No device (R221) -/

/-- The read where no device acknowledges (spec/40_bus_engine.md R143, first row). -/
theorem readHere_without_device {s : State} (hack : s.nextAck 0 = .nack) (r : Byte) :
    s.readHere Config.rtcDevAddr r = ⟨[.start, .tx 0xD0 .nack, .stop], .nack, 0, 1, false⟩ :=
  readOutcome_nack0 _ r _ hack

/-- Correcting a register where no device acknowledges: one failed read, whose byte 0x00 needs no write (R139). -/
theorem correction_without_device {s : State} (hack : s.nextAck 0 = .nack) (r : Byte) (bit : Nat) (mask : Byte) :
    s.correctionStatuses r bit mask = [.nack, .ok] ∧
      s.correctionEvents r bit mask = [.start, .tx 0xD0 .nack, .stop] ∧
      s.afterCorrection r bit mask = s.afterRead Config.rtcDevAddr r := by
  have hread := readHere_without_device hack r
  have hbit : ¬ (s.found r).getLsbD bit = true := by simp [State.found, hread]
  simp only [State.correctionStatuses, State.correctionEvents, State.afterCorrection, if_neg hbit, hread,
    List.append_nil, and_self]

/-! ### What RTC_INIT leaves unchanged -/

theorem rtcInit_piece (s : State) :
    ((initSeconds s).next fun _ t => initHours t).Ends
      (fun _ t => PieceFrame 4 [rtcLocation 0x00, rtcLocation 0x02] s t)
      (PieceFrame 4 [rtcLocation 0x00, rtcLocation 0x02] s) :=
  (initSeconds_piece s).next_piece fun _ => initHours_piece

theorem execRtcInit_surroundingsKept {s t : State} (h : execRtcInit s = .next t) : SurroundingsKept s t := by
  refine command_relates h (surroundingsKept_refl s) ?_
  have hkept := (rtcInit_piece (latchN 0x03 s).clearStatus).close_surroundingsKept fun _ => 0
  exact { hkept with }

/-- RTC_INIT has no operands (R91, format N). -/
theorem execRtcInit_operandsKept {s t : State} (h : execRtcInit s = .next t) :
    t.dev = s.dev ∧ t.reg = s.reg ∧ t.wdata = s.wdata :=
  command_relates (R := fun s t => t.dev = s.dev ∧ t.reg = s.reg ∧ t.wdata = s.wdata) h ⟨rfl, rfl, rfl⟩ <|
    (rtcInit_piece (latchN 0x03 s).clearStatus).close
      (R := fun t => t.dev = s.dev ∧ t.reg = s.reg ∧ t.wdata = s.wdata)
      (fun _ _ hf => ⟨hf.dev, hf.reg, hf.wdata⟩) fun _ hf => ⟨hf.dev, hf.reg, hf.wdata⟩

end Sys2Proof.Machine

namespace Sys2Proof.Claims

open Sys2Proof.Machine

/-- Settles O41: both registers are corrected as on a working device. What is stored in 0x00 stays: the second correction
is of another register. -/
theorem rtcInitOnWorkingDevice : Obligations.RtcInitOnWorkingDevice := by
  intro s sec hr k1 k2 hs hlive hacks hrx1 hk1 hrx2 hk2
  have hack1 : Acknowledges (6 + 6) s := hacks
  have hack2 : Acknowledges 6 (afterInitSeconds s) := hack1.afterCorrection 0x00 7 0x7F
  have hlimit : (afterInitSeconds s).pollLimit = s.pollLimit := s.afterCorrection_pollLimit 0x00 7 0x7F
  obtain ⟨-, hsts1, hes1, hstored1⟩ := correction_working (hack1.mono (by omega)) hrx1 hk1 7 0x7F
  obtain ⟨hfound, hsts2, hes2, hstored2⟩ := correction_working hack2 hrx2 (hlimit ▸ hk2) 6 0xBF
  obtain ⟨t, ht, hresp, hdata, htmp, htrace, hstatus, hmem⟩ := exec_rtcInit_live hs hlive
  refine ⟨t, ht, hresp, hdata, ?_, htmp.trans hfound, ?_, fun hbit => ?_, fun hbit hc => ?_⟩
  · rw [hstatus, hsts1, hsts2]
    rfl
  · rw [htrace, hes1, hes2]
    simp only [List.append_assoc]
  · rw [hmem, hstored2 hbit]
  · have hother : rtcLocation 0x00 ≠ rtcLocation 0x02 := by decide
    have hc2 : ¬ (afterInitSeconds s).ChipTouches 2 (rtcLocation 0x00) :=
      not_chipTouches_afterCorrection 0x00 7 0x7F hc
    rw [hmem, read_afterCorrection_other 6 0xBF hother hc2]
    exact hstored1 hbit

/-- Settles O42: the two corrections in order, each one transaction or two; a failed read delivers the sentinel 0x00. -/
theorem rtcInitAlwaysResponds : Obligations.RtcInitAlwaysResponds := by
  intro s hs hlive sec wsec s2 hr s3 whr
  obtain ⟨t, ht, hresp, hdata, htmp, htrace, hstatus, hmem⟩ := exec_rtcInit_live hs hlive
  have hwrites : t.mem = if hr.byte.getLsbD 6 then (s3.afterWrite Config.rtcDevAddr 0x02 (hr.byte &&& 0xBF)).mem
      else s3.mem := hmem.trans (apply_ite State.mem ..)
  obtain ⟨hlo1, hhi1, hstop1⟩ := correctionEvents_count s 0x00 7 0x7F
  obtain ⟨hlo2, hhi2, hstop2⟩ := correctionEvents_count (afterInitSeconds s) 0x02 6 0xBF
  refine ⟨t, _, ht, hresp, hdata, htmp, htrace, (List.append_assoc ..).symm, (readHere_bit_of_failed · 7),
    (readHere_bit_of_failed · 6), hstatus, hwrites, hstatus ▸ TStatus.status_code_le _, ?_⟩
  simp only [List.count_append]
  omega

/-- Settles O43: in both corrections the read fails at its address byte, and its byte 0x00 needs no write. -/
theorem rtcInitWithoutDevice : Obligations.RtcInitWithoutDevice := by
  intro s hs hlive hnack
  obtain ⟨hsts1, hes1, henv1⟩ := correction_without_device (hnack 0 (by omega)) 0x00 7 0x7F
  have hnack2 : (s.afterRead Config.rtcDevAddr 0x00).nextAck 0 = .nack := by
    rw [State.nextAck_afterRead, readHere_without_device (hnack 0 (by omega))]
    exact hnack 1 (by omega)
  obtain ⟨hsts2, hes2, henv2⟩ := correction_without_device hnack2 0x02 6 0xBF
  obtain ⟨t, ht, hresp, hdata, -, htrace, hstatus, hmem⟩ := exec_rtcInit_live hs hlive
  rw [afterInitSeconds_eq_afterCorrection, henv1] at htrace hstatus hmem
  refine ⟨t, ht, hresp, hdata, ?_, ?_, fun a hc => ?_⟩
  · rw [hstatus, hsts1, hsts2]
    rfl
  · rw [htrace, hes1, hes2]
    rfl
  · have hc2 : ¬ (s.afterRead Config.rtcDevAddr 0x00).ChipTouches 1 a :=
      not_chipTouches_later (s := s) (m := 1) rfl rfl hc
    rw [hmem, henv2, read_afterRead (n := 0) _ _ hc2, read_afterRead (n := 1) _ _ hc]

/-- Settles O49: the frames of the two halves, around them the latching of the opcode and the response. -/
theorem rtcInitFrame : Obligations.RtcInitFrame := by
  intro s t h
  obtain ⟨hdev, hreg, hwdata⟩ := execRtcInit_operandsKept h
  exact ⟨execRtcInit_surroundingsKept h, execRtcInit_responseKept h, hdev, hreg, hwdata, execRtcInit_registersKept h⟩

end Sys2Proof.Claims
end

section
/-! A busy block and the host (obligations O18 and O19). The list of words still to be presented is read in `C_IDLE` only,
so a cycle outside it commutes with putting another list in its place: the engine's moves, then the codec's, then the
cycle. That the list is not taken from is the same fact with the list that is there. -/

namespace Sys2Proof.Machine

/-- The state with `other` as the list of words the host has still to present (R30). -/
def State.presenting (other : List CmdWord) (s : State) : State := { s with commands := other }

/-- Changing the host's list before `f` comes to changing it after. -/
def IgnoresHost (f : State → State) : Prop :=
  ∀ (other : List CmdWord) (s : State), f (s.presenting other) = (f s).presenting other

section
variable (other : List CmdWord) (s : State)

@[simp] theorem State.presenting_est : (s.presenting other).est = s.est := rfl
@[simp] theorem State.presenting_cst : (s.presenting other).cst = s.cst := rfl
@[simp] theorem State.presenting_tDir : (s.presenting other).tDir = s.tDir := rfl
@[simp] theorem State.presenting_tResult : (s.presenting other).tResult = s.tResult := rfl
@[simp] theorem State.presenting_lAckstat : (s.presenting other).lAckstat = s.lAckstat := rfl

end

/-! ### The engine (spec/40_bus_engine.md R129 to R139) -/

theorem afterAddrW_ignoresHost : IgnoresHost afterAddrW := fun other s => by
  simp only [afterAddrW, State.presenting_lAckstat]
  split <;> rfl

theorem afterReg_ignoresHost : IgnoresHost afterReg := fun other s => by
  simp only [afterReg, State.presenting_lAckstat, State.presenting_tDir]
  split
  · rfl
  · split <;> rfl

theorem afterData_ignoresHost : IgnoresHost afterData := fun other s => by
  simp only [afterData, State.presenting_lAckstat]
  split <;> rfl

theorem afterAddrR_ignoresHost : IgnoresHost afterAddrR := fun other s => by
  simp only [afterAddrR, State.presenting_lAckstat]
  split <;> rfl

theorem sample_ignoresHost : IgnoresHost sample := fun other s => by
  cases hfull : s.lRxfull with
  | true =>
    rw [sample_full hfull, sample_full (s := s.presenting other) hfull]
    rfl
  | false =>
    by_cases hlast : s.cnt = 1
    · rw [sample_last hfull hlast, sample_last (s := s.presenting other) hfull hlast]
      rfl
    · rw [sample_clear hfull hlast, sample_clear (s := s.presenting other) hfull hlast]
      rfl

/-- The engine's moves in the cycle the awaited flag is seen. -/
theorem doneStep_ignoresHost : IgnoresHost doneStep := fun other s => by
  simp only [doneStep, State.presenting_est]
  split
  · rfl
  · exact afterAddrW_ignoresHost other s
  · exact afterReg_ignoresHost other s
  · exact afterData_ignoresHost other s
  · rfl
  · exact afterAddrR_ignoresHost other s
  all_goals rfl

/-- The engine samples, moves on, or waits. -/
theorem engineCycle_ignoresHost : IgnoresHost engineCycle := fun other s => by
  by_cases hidle : s.est = .idle
  · simp only [engineCycle, State.presenting_est, hidle]
  · by_cases hpoll : s.est = .rxPoll
    · simp only [engineCycle, State.presenting_est, hpoll]
      exact sample_ignoresHost other s
    · cases hdone : s.lDone with
      | true =>
        rw [engineCycle_done hidle hpoll hdone, engineCycle_done (s := s.presenting other) hidle hpoll hdone]
        exact doneStep_ignoresHost other s
      | false =>
        rw [engineCycle_wait hidle hpoll hdone, engineCycle_wait (s := s.presenting other) hidle hpoll hdone]
        rfl

/-! ### The codec and the cycle (spec/10_state.md R26) -/

/-- The two moves of RTC_INIT that look at the byte read have two cases each; every other codec state has one move. -/
theorem codecNext_ignoresHost : IgnoresHost codecNext := fun other s => by
  cases hc : s.cst with
  | initRdSec =>
    rw [codecNext_initRdSec hc, codecNext_initRdSec (s := s.presenting other) hc, State.presenting_tResult]
    split <;> rfl
  | initRdHr =>
    rw [codecNext_initRdHr hc, codecNext_initRdHr (s := s.presenting other) hc, State.presenting_tResult]
    split <;> rfl
  | idle => simp only [codecNext, State.presenting_cst, hc]
  | raw | getRd | setRd | setWr | initWrSec | initSettle | initWrHr | resp =>
    simp only [codecNext, State.presenting_cst, hc]
    rfl

/-- Outside `C_IDLE` a cycle does not look at the host's list (R30, spec/20_memory.md R72). -/
theorem cycle_presenting {s : State} (hidle : s.cst ≠ .idle) (other : List CmdWord) :
    cycle (s.presenting other) = (cycle s).presenting other := by
  by_cases hresp : s.cst = .resp
  · rw [cycle_resp hresp, cycle_resp (s := s.presenting other) hresp]
    rfl
  · have hb : Busy s := ⟨hidle, hresp⟩
    have hb' : Busy (s.presenting other) := hb
    by_cases he : s.est = .idle
    · rw [cycle_engineIdle hb he, cycle_engineIdle hb' he]
      exact codecNext_ignoresHost other s
    · rw [cycle_engine hb he, cycle_engine hb' he]
      exact engineCycle_ignoresHost other s

/-- Nor does it take from the list: putting the list that is there in its place changes nothing. -/
theorem cycle_commands {s : State} (hidle : s.cst ≠ .idle) : (cycle s).commands = s.commands :=
  (congrArg State.commands (cycle_presenting hidle s.commands) :)

/-! ### A command turned away (spec/70_reset_and_hazards.md R264) -/

theorem command_turnedAway {s : State} (hlimit : s.pollLimit ≠ 0) (hbusy : s.cmdReady = false)
    (latch body : State → State) : command latch body s = .next s := by
  rw [command, if_neg hlimit, if_neg (by simp [hbusy])]

end Sys2Proof.Machine

namespace Sys2Proof.Claims

open Sys2Proof.Machine

/-- Settles O18: a busy step is one cycle, and outside `C_IDLE` a cycle commutes with changing the host's list. -/
theorem busyIgnoresHost : Obligations.BusyIgnoresHost := by
  intro s other hlimit hrst hidle
  refine ⟨cycle s, step_busy hlimit hrst hidle, cycle_commands hidle, ?_⟩
  exact (step_busy (s := s.presenting other) hlimit hrst hidle).trans (congrArg _ (cycle_presenting hidle other))

/-- Settles O19: every instruction runs in the frame of a command, which turns it away. -/
theorem commandTurnedAway : Obligations.CommandTurnedAway := by
  intro i s hlimit hbusy
  obtain ⟨latch, body, hi⟩ := exec_runsInFrame i
  rw [hi, command_turnedAway hlimit hbusy]

end Sys2Proof.Claims
end
